-- ==== Sys2Proof/Word.lean ====
section
/-! DEFINITION. The widths of the block's quantities (spec/00_scope.md R8, R9): every quantity is unsigned. -/

namespace Sys2Proof

/-- A command word as it crosses the command port (spec/30_encoding.md R80: one length, 16 bits). -/
abbrev CmdWord := BitVec 16

/-- A byte of a stream, and a symbol: "a value in the range of a single byte (0–255)" (spec/00_scope.md R14). -/
abbrev Byte := BitVec 8

/-- A count (`TOTAL`, an entry of `FREQ`, `DCNT`) and a word of the response stream (spec/10_state.md R24, R27, R28). -/
abbrev Word32 := BitVec 32

/-- A node id (spec/10_state.md R30): 0 to 255 leaves, 256 to 510 internal nodes, 511 `NONE`. -/
abbrev NodeId := BitVec 9

/-- The `FREQ` field of a node record (spec/10_state.md R31; width `NFW` of spec/00_scope.md R8). -/
abbrev NodeFreq := BitVec 40

end Sys2Proof
end

