-- ==== Sys2Proof/Syntax.lean ====
section
/-! DEFINITION. The sixteen commands (spec/30_encoding.md R82), one constructor per row of spec/opcode_table.json, and the ways a
word can be illegal (R88). -/

namespace Sys2Proof

/-- A command. Where the row's operand condition is "any", the operand is a byte; where it bounds the operand (`WBIT`, `ERDR`,
`DRDR`) the whole `arg` byte is carried and `Instr.WellFormed` states the bound; where `arg` must be 0 there is no operand. -/
inductive Instr where
  /-- `ERESET`: reset the encoder (R190). -/
  | ereset
  /-- `FACC s`: count one input symbol (R101). -/
  | facc (s : Byte)
  /-- `TBUILD`: build the encoder's tree (R125). -/
  | tbuild
  /-- `CDERIVE`: derive the code table (R133). -/
  | cderive
  /-- `WHDR`: emit the container header (R161). -/
  | whdr
  /-- `ESYM s`: encode one input symbol (R163). -/
  | esym (s : Byte)
  /-- `WBIT b`: write one raw bit (R145). -/
  | wbit (b : Byte)
  /-- `FLUSH`: close the container (R146). -/
  | flush
  /-- `ERDF s`: read an encoder frequency entry (R194). -/
  | erdf (s : Byte)
  /-- `ERDR n`: read encoder register n (R195). -/
  | erdr (n : Byte)
  /-- `DRESET`: reset the decoder (R191). -/
  | dreset
  /-- `DBYTE v`: give the decoder the next container byte (R173). -/
  | dbyte (v : Byte)
  /-- `DTREE`: build the decoder's tree and start decoding (R172). -/
  | dtree
  /-- `DEND`: the container bytes are exhausted (R178). -/
  | dend
  /-- `DRDF s`: read a decoder frequency entry (R196). -/
  | drdf (s : Byte)
  /-- `DRDR n`: read decoder register n (R197). -/
  | drdr (n : Byte)
deriving DecidableEq, Repr

/-- Why a word spells no command (spec/30_encoding.md R88). -/
inductive IllegalWord where
  /-- `op` is not one of the sixteen of R82. -/
  | unassignedOp (op : Byte)
  /-- A command without operand whose `arg` is not 0. -/
  | argNotZero (arg : Byte)
  /-- `WBIT` with `arg ≥ 2`. -/
  | bitOperand (arg : Byte)
  /-- `ERDR` with `arg ≥ 4` or `DRDR` with `arg ≥ 7`: a reserved register number. -/
  | reservedRegister (arg : Byte)
deriving DecidableEq, Repr

end Sys2Proof
end

