-- ==== Sys2Proof/WellFormed.lean ====
section
/-! DEFINITION. The operand conditions of spec/30_encoding.md R82 on a command as syntax. -/

namespace Sys2Proof

/-- The operand condition of the command's row in R82: `WBIT` takes 0 or 1, `ERDR` 0 to 3, `DRDR` 0 to 6, the others any byte or
none. -/
def Instr.wellFormed : Instr → Bool
  | .ereset => true
  | .facc _ => true
  | .tbuild => true
  | .cderive => true
  | .whdr => true
  | .esym _ => true
  | .wbit b => decide (b.toNat ≤ 1)
  | .flush => true
  | .erdf _ => true
  | .erdr n => decide (n.toNat ≤ 3)
  | .dreset => true
  | .dbyte _ => true
  | .dtree => true
  | .dend => true
  | .drdf _ => true
  | .drdr n => decide (n.toNat ≤ 6)

/-- The command meets its row's operand condition. -/
abbrev Instr.WellFormed (i : Instr) : Prop := i.wellFormed = true

end Sys2Proof
end

