-- ==== Sys2Proof/Decode.lean ====
section
/-! DEFINITION. Decoding and encoding of command words (spec/30_encoding.md R80 to R82, R88). The word is transferred whole on
`cmd_data[15:0]`, so there is no byte order to decide: bit 0 is the word's least significant bit. -/

namespace Sys2Proof

/-- `op`, bits 15:8 (R80). -/
def opField (w : CmdWord) : Byte := w.extractLsb' 8 8

/-- `arg`, bits 7:0, as it stands: never extended, scaled or shifted (R80, R81). -/
def argField (w : CmdWord) : Byte := w.extractLsb' 0 8

/-- A command without operand: its `arg` must be 0 (R82). -/
def decodeNoArg (arg : Byte) (i : Instr) : Except IllegalWord Instr :=
  if arg = 0#8 then .ok i else .error (.argNotZero arg)

/-- `WBIT b`: `arg ≤ 1` (R82). -/
def decodeWbit (arg : Byte) : Except IllegalWord Instr :=
  if arg.toNat ≤ 1 then .ok (.wbit arg) else .error (.bitOperand arg)

/-- `ERDR n`: `arg ≤ 0x03` (R82). -/
def decodeErdr (arg : Byte) : Except IllegalWord Instr :=
  if arg.toNat ≤ 3 then .ok (.erdr arg) else .error (.reservedRegister arg)

/-- `DRDR n`: `arg ≤ 0x06`, so that 0x2907 is reserved (R82). -/
def decodeDrdr (arg : Byte) : Except IllegalWord Instr :=
  if arg.toNat ≤ 6 then .ok (.drdr arg) else .error (.reservedRegister arg)

/-- The opcode map of R82. Every word has a verdict: a command, or the reason it is illegal (R88, R92). -/
def decode (w : CmdWord) : Except IllegalWord Instr :=
  match (opField w).toNat with
  | 0x10 => decodeNoArg (argField w) .ereset
  | 0x11 => .ok (.facc (argField w))
  | 0x12 => decodeNoArg (argField w) .tbuild
  | 0x13 => decodeNoArg (argField w) .cderive
  | 0x14 => decodeNoArg (argField w) .whdr
  | 0x15 => .ok (.esym (argField w))
  | 0x16 => decodeWbit (argField w)
  | 0x17 => decodeNoArg (argField w) .flush
  | 0x18 => .ok (.erdf (argField w))
  | 0x19 => decodeErdr (argField w)
  | 0x20 => decodeNoArg (argField w) .dreset
  | 0x21 => .ok (.dbyte (argField w))
  | 0x22 => decodeNoArg (argField w) .dtree
  | 0x23 => decodeNoArg (argField w) .dend
  | 0x28 => .ok (.drdf (argField w))
  | 0x29 => decodeDrdr (argField w)
  | _ => .error (.unassignedOp (opField w))

/-- The word of an instruction of nbits bits, numbered as spec/opcode_table.json numbers them (every row has one 16-bit word),
given to the decoder. -/
def decodeTableWord (nbits w : Nat) : Option Instr :=
  match decode (BitVec.ofNat 16 (w % 2 ^ nbits)) with
  | .ok i => some i
  | .error _ => none

/-- The opcode of a command (R82, column op). -/
def opcodeOf : Instr → Byte
  | .ereset => 0x10#8
  | .facc _ => 0x11#8
  | .tbuild => 0x12#8
  | .cderive => 0x13#8
  | .whdr => 0x14#8
  | .esym _ => 0x15#8
  | .wbit _ => 0x16#8
  | .flush => 0x17#8
  | .erdf _ => 0x18#8
  | .erdr _ => 0x19#8
  | .dreset => 0x20#8
  | .dbyte _ => 0x21#8
  | .dtree => 0x22#8
  | .dend => 0x23#8
  | .drdf _ => 0x28#8
  | .drdr _ => 0x29#8

/-- The operand of a command, 0 when unused (R80). -/
def operandOf : Instr → Byte
  | .ereset => 0#8
  | .facc s => s
  | .tbuild => 0#8
  | .cderive => 0#8
  | .whdr => 0#8
  | .esym s => s
  | .wbit b => b
  | .flush => 0#8
  | .erdf s => s
  | .erdr n => n
  | .dreset => 0#8
  | .dbyte v => v
  | .dtree => 0#8
  | .dend => 0#8
  | .drdf s => s
  | .drdr n => n

/-- The word of a command, `(op << 8) | operand` (spec/30_encoding.md R94). -/
def encode (i : Instr) : CmdWord := opcodeOf i ++ operandOf i

end Sys2Proof
end

