-- ==== Sys2Proof/Config.lean ====
section
/-! DEFINITION. The parameters of the block (spec/00_scope.md R8): constants, the source's and this spec's. Nothing here is a
free value: every point the source leaves open is decided in spec/92_eei_decisions.md. The parameters `TIEBREAK`, `FIRST_SIDE`
and `HDR_ENDIAN` are orders, not numbers: they are `less` (Machine/Priority.lean), `mergeOnce` (Machine/TreeBuilder.lean) and the
header lanes (Machine/Operands.lean). -/

namespace Sys2Proof.Config

/-- `NSYM`: the alphabet size. -/
def nsym : Nat := 256

/-- `HDRLEN`: the header length in bytes, 4 + 256 × 4. -/
def hdrLen : Nat := 1028

/-- `PQCAP`: most entries the priority structure holds at once. -/
def pqCap : Nat := 256

/-- `PATHCAP`: most bits a code can have that the code table must hold. -/
def pathCap : Nat := 256

/-- The id of the first internal node (spec/10_state.md R30). -/
def firstInternal : NodeId := 256#9

/-- `NONE`: the node id that means "no node" (spec/10_state.md R30). -/
def noneId : NodeId := 0x1FF#9

/-- `CNTW`: the largest value of a 32-bit count, 2^32 − 1. -/
def countMax : Word32 := 0xFFFFFFFF#32

/-- `SINGLE_CODE`: the code of the only symbol of a one-symbol alphabet, the one-bit string `0` (spec/43_code_table_deriver.md
R132, decision D17). -/
def singleCode : List Bool := [false]

/-- The symbols in ascending order, 0 to 255: the range of every `for s in 0..255` of the rules. -/
def symbols : List Nat := List.range nsym

end Sys2Proof.Config
end

