-- ==== Sys2Proof/Machine/State.lean ====
section
/-! DEFINITION. The state of the block as plain data (spec/10_state.md R24 to R42), its reset value (R51), and the reasons a step
can stop. An internal array is a list of (index, element) pairs in one canonical form: indices strictly rising, no entry equal to
what an unlisted index reads as (Machine/Table.lean). -/

namespace Sys2Proof.Machine

/-- `E.PHASE` (R25). The values 5 and 6 are never held. -/
inductive Phase where
  /-- Pass 1: frequencies are being accumulated. -/
  | count
  /-- The tree is built. -/
  | tree
  /-- The code table is derived. -/
  | codes
  /-- The header is out; pass 2: symbols are being encoded. -/
  | body
  /-- The last byte is out. -/
  | done
  /-- An error is latched. -/
  | fault
deriving DecidableEq, Repr

/-- `D.STATE` (R36). The values 4 to 6 are never held. -/
inductive DState where
  /-- The header is being received. -/
  | awaitHeader
  /-- The header is complete; the tree is to be built. -/
  | awaitTree
  /-- The tree is being walked. -/
  | decoding
  /-- The declared number of symbols has been emitted. -/
  | done
  /-- An error is latched. -/
  | fault
deriving DecidableEq, Repr

/-- The fault codes of `E.ERR` and `D.ERR` (spec/60_exceptions.md R200). Codes 6 to 15 are never held. -/
inductive ErrCode where
  /-- Code 0: no fault latched. -/
  | noFault
  /-- Code 1: a command not legal in the unit's phase or state (R201). -/
  | seqError
  /-- Code 2: `FACC` at a total of 2^32 − 1 (R202). -/
  | countOverflow
  /-- Code 3: `ESYM` of a symbol without code (R203). -/
  | noCode
  /-- Code 4: `DEND` in `AwaitHeader` or `Decoding` (R204). -/
  | truncatedInput
  /-- Code 5: `DTREE` with a nonzero total and an all-zero table (R205). -/
  | emptyAlphabet
deriving DecidableEq, Repr

/-- A record of the node arena (R31): 67 bits, `FREQ` 40, `LEFT` 9, `RIGHT` 9, `LEAF` 1, `SYM` 8. -/
structure NodeRec where
  freq  : NodeFreq
  left  : NodeId
  right : NodeId
  leaf  : Bool
  sym   : Byte
deriving DecidableEq, Repr

/-- What both units have, each its own copy (R28 to R31, R39). -/
structure TreeUnit where
  /-- `U.FREQ[0..255]`: (symbol, count); an unlisted entry reads 0. -/
  freq  : List (Nat × Word32)
  /-- `U.HEAP`: the live slots `U.HEAP[0]` to `U.HEAP[U.HSIZE − 1]`; the rest hold no value (R29), and `U.HSIZE` is the length. -/
  heap  : List NodeId
  /-- `U.NODE[0..510]`: (node id, record); an unlisted record holds no value (R48). -/
  node  : List (Nat × NodeRec)
  /-- `U.NNEXT`: the id the next internal node will take (R30). -/
  nnext : NodeId
  /-- `U.ROOT`: the id of the tree's root, or `NONE` (R30). -/
  root  : NodeId
deriving DecidableEq, Repr

/-- The encoder unit E (R25 to R35). -/
structure Encoder where
  /-- `E.PHASE` (R25). -/
  phase : Phase
  /-- `E.ERR` (R26). -/
  err   : ErrCode
  /-- `E.TOTAL` (R27). -/
  total : Word32
  /-- `E.FREQ`, `E.HEAP`, `E.HSIZE`, `E.NODE`, `E.NNEXT`, `E.ROOT`. -/
  tree  : TreeUnit
  /-- `E.CLEN[0..255]` (R33): (symbol, code length); an unlisted entry reads 0. -/
  clen  : List (Nat × BitVec 9)
  /-- `E.CBITS[0..255]` (R33): (symbol, the bits 0, 1, ... of the row that hold a value). Every write of a row starts at bit 0
  (R131), so the bits that hold a value are always the first ones; an unlisted row holds none (R48). -/
  cbits : List (Nat × List Bool)
  /-- `E.WB_ACC` (R35). -/
  wbAcc : Byte
  /-- `E.WB_CNT` (R35). -/
  wbCnt : BitVec 3
deriving DecidableEq, Repr

/-- The decoder unit D (R36 to R42). -/
structure Decoder where
  /-- `D.STATE` (R36). -/
  state  : DState
  /-- `D.ERR` (R37). -/
  err    : ErrCode
  /-- `D.HCNT` (R38). -/
  hcnt   : BitVec 11
  /-- `D.TOTAL` (R39). -/
  total  : Word32
  /-- `D.FREQ`, `D.HEAP`, `D.HSIZE`, `D.NODE`, `D.NNEXT`, `D.ROOT`. -/
  tree   : TreeUnit
  /-- `D.CUR` (R40). -/
  cur    : NodeId
  /-- `D.DCNT` (R41). -/
  dcnt   : Word32
  /-- `D.BR_BYTE` (R42). -/
  brByte : Byte
  /-- `D.BR_CNT` (R42). -/
  brCnt  : BitVec 4
deriving DecidableEq, Repr

/-- What the host can do at the ports (R49, R50): present a command word, raise `rst`, or take the next element of an output
channel. -/
inductive HostInput where
  /-- A word transferred on the command channel. -/
  | word (w : CmdWord)
  /-- `rst` is 1 at a rising edge of `clk` (spec/70_reset_and_hazards.md R230). -/
  | rst
  /-- `eout_ready` is 1. -/
  | takeEout
  /-- `dout_ready` is 1. -/
  | takeDout
  /-- `rsp_ready` is 1. -/
  | takeRsp
deriving DecidableEq, Repr

/-- The whole state of the block, and the inputs the host has still to present. -/
structure State where
  /-- `ILL` (R24). -/
  ill       : Bool
  /-- `EOUT` (R24), oldest byte first. -/
  eout      : List Byte
  /-- `DOUT` (R24), oldest byte first. -/
  dout      : List Byte
  /-- `RSP` (R24), oldest word first. -/
  rsp       : List Word32
  /-- How many elements of `EOUT` the host has taken (R49, R50). -/
  eoutTaken : Nat
  /-- How many elements of `DOUT` the host has taken (R49, R50). -/
  doutTaken : Nat
  /-- How many elements of `RSP` the host has taken (R49, R50). -/
  rspTaken  : Nat
  /-- The encoder unit E. -/
  enc       : Encoder
  /-- The decoder unit D. -/
  dec       : Decoder
  /-- The index into the command list: how many command words have been taken since reset (R22). -/
  pc        : Nat
  /-- The model's own field: what the host presents from now on, next first (R22, R23; DESIGN CHOICE, log entry 1). -/
  hostIn    : List HostInput
deriving DecidableEq, Repr

/-- The model-internal faults: a step that meets one stops. Each is SAFE: no reachable state meets one, and a stopped step proves
nothing about the block. (The block's own faults, spec/60_exceptions.md R200, are codes held in `U.ERR` after a next state.) -/
inductive Fault where
  /-- A read of an arena record that nothing has written since the unit's reset (R48, spec/93_implementation_defined.md V4): raised
  by every read of `U.NODE`. Safe. -/
  | unwrittenNode
  /-- A read of the record of `NONE`, which does not exist (R30, spec/60_exceptions.md R221 (c)): raised by every read of
  `U.NODE`. Safe. -/
  | noneNode
  /-- A read of a heap slot that holds no value (R29, R48): raised by the sifts of `PQ_INSERT` and `PQ_EXTRACT_MIN` and by
  `TREE_BUILD`. Safe. -/
  | deadSlot
  /-- `PQ_EXTRACT_MIN` on an empty heap (spec/41_priority_structure.md R113). Safe. -/
  | heapUnderflow
  /-- `PQ_INSERT` of a 257th entry (spec/60_exceptions.md R221 (b)). Safe. -/
  | heapOverflow
  /-- `TREE_BUILD` with no id left for an internal node (R30: ids end at 510). Safe. -/
  | arenaFull
  /-- `TREE_BUILD` with a frequency sum that does not fit 40 bits (spec/60_exceptions.md R221 (e)). Safe. -/
  | sumOverflow
  /-- `CODE_DERIVE` with a path longer than 256 bits (spec/60_exceptions.md R221 (d)). Safe. -/
  | codeTooLong
  /-- `ESYM` reading a code bit that holds no value (R48). Safe. -/
  | unwrittenCodeBit
  /-- `BR_NEXT` with `D.BR_CNT` outside 1 to 8 (spec/45_bit_reader.md R152). Safe. -/
  | readerCount
  /-- `DBYTE` in `AwaitHeader` with 1028 or more header bytes already counted (R38: never so). Safe. -/
  | headerOverrun
  /-- A 32-bit count that would wrap although the rule's own test passed (spec/00_scope.md R9, spec/40_frequency_accumulator.md
  R101, spec/47_container_decode.md R176): raised by `FACC` and `DSTEP`. Safe. -/
  | countWrap
  /-- A loop of a rule that did not end within its bound (spec/70_reset_and_hazards.md R247): raised by the sifts, the merge loop
  and the bit loop of `DBYTE`. Safe. -/
  | loopBound
deriving DecidableEq, Repr

/-- The refusals. Every command of the table has its meaning and every other word is executed as `illegal()`, so none is raised. -/
inductive Refusal where
  /-- An instruction with no meaning in the model: raised by a rejected arm of `exec`; there is none left. Safe. -/
  | notModelled (mnemonic : String)
deriving DecidableEq, Repr

/-- A unit's tree part after reset (R51): counts 0, no heap entry, no record, `NNEXT` 256, `ROOT` `NONE`. -/
def TreeUnit.reset : TreeUnit :=
  { freq := [], heap := [], node := [], nnext := Config.firstInternal, root := Config.noneId }

/-- The encoder after reset (R51), hardware or unit. -/
def Encoder.reset : Encoder :=
  { phase := .count, err := .noFault, total := 0#32, tree := TreeUnit.reset, clen := [], cbits := [], wbAcc := 0#8, wbCnt := 0#3 }

/-- The decoder after reset (R51), hardware or unit. -/
def Decoder.reset : Decoder :=
  { state := .awaitHeader, err := .noFault, hcnt := 0#11, total := 0#32, tree := TreeUnit.reset, cur := Config.noneId,
    dcnt := 0#32, brByte := 0#8, brCnt := 0#4 }

/-- The block right after hardware reset (R51, spec/70_reset_and_hazards.md R230), with nothing presented yet. -/
def State.reset : State :=
  { ill := false, eout := [], dout := [], rsp := [], eoutTaken := 0, doutTaken := 0, rspTaken := 0,
    enc := Encoder.reset, dec := Decoder.reset, pc := 0, hostIn := [] }

end Sys2Proof.Machine
end

