-- ==== Sys2Proof/Machine/Table.lean ====
section
/-! DEFINITION. The internal arrays of the block as lists of (index, element) in one canonical form: indices strictly rising, no
entry equal to what an unlisted index reads as (spec/20_memory.md R60; log entry 6). -/

namespace Sys2Proof.Machine

/-- The element listed at an index, if any. -/
def tableFind {α : Type} : List (Nat × α) → Nat → Option α
  | [], _ => none
  | (k', v) :: t, k => if k' = k then some v else tableFind t k

/-- Lists an element at an index, keeping the indices rising. -/
def tableInsert {α : Type} : List (Nat × α) → Nat → α → List (Nat × α)
  | [], k, v => [(k, v)]
  | (k', v') :: t, k, v =>
    if k < k' then (k, v) :: (k', v') :: t
    else if k = k' then (k, v) :: t
    else (k', v') :: tableInsert t k v

/-- Takes an index off the list. -/
def tableErase {α : Type} : List (Nat × α) → Nat → List (Nat × α)
  | [], _ => []
  | (k', v') :: t, k => if k' = k then tableErase t k else (k', v') :: tableErase t k

/-- Reads an array whose unlisted elements read as `d`. -/
def tableGet {α : Type} (d : α) (t : List (Nat × α)) (k : Nat) : α := (tableFind t k).getD d

/-- Writes an array whose unlisted elements read as `d`: writing `d` takes the index off the list. -/
def tablePut {α : Type} [DecidableEq α] (d : α) (t : List (Nat × α)) (k : Nat) (v : α) : List (Nat × α) :=
  if v = d then tableErase t k else tableInsert t k v

/-- Indices strictly rising, starting at `lo` or above and staying below `hi`. -/
def tableRises {α : Type} (hi : Nat) : Nat → List (Nat × α) → Bool
  | _, [] => true
  | lo, (k, _) :: t => decide (lo ≤ k) && decide (k < hi) && tableRises hi (k + 1) t

/-- The canonical form of an array of `n` elements whose unlisted elements hold no value. -/
def tableWf {α : Type} (n : Nat) (t : List (Nat × α)) : Bool := tableRises n 0 t

/-- The canonical form of an array of `n` elements whose unlisted elements read as `d`. -/
def tableWfD {α : Type} [DecidableEq α] (d : α) (n : Nat) (t : List (Nat × α)) : Bool :=
  tableWf n t && t.all (fun e => decide (e.2 ≠ d))

end Sys2Proof.Machine
end

