-- ==== Sys2Proof/Machine/Operands.lean ====
section
/-! DEFINITION. Operand forms and data layouts: the bit and register-number operands (spec/30_encoding.md R81), the byte lanes of a
header field (spec/20_memory.md R62), the packed node record (spec/10_state.md R31). -/

namespace Sys2Proof.Machine

/-- The operand of `WBIT` as a bit: `arg[0]` (R81). -/
def bitOperand (arg : Byte) : Bool := arg.getLsbD 0

/-- Byte k of a header field, little-endian: `v[8k+7 : 8k]` (R62, decision D16). -/
def headerLane (v : Word32) (k : Nat) : Byte := v.extractLsb' (8 * k) 8

/-- The four bytes of a header field at offsets o, o + 1, o + 2, o + 3 (R62). -/
def headerField (v : Word32) : List Byte := [headerLane v 0, headerLane v 1, headerLane v 2, headerLane v 3]

/-- `v[8k+7 : 8k] <- b`: only the eight named bits change (spec/47_container_decode.md R171). -/
def setHeaderLane (v : Word32) (k : Nat) (b : Byte) : Word32 :=
  (v &&& ~~~(0xFF#32 <<< (8 * k))) ||| (b.setWidth 32 <<< (8 * k))

/-- A node record as its 67 bits, most significant field first: `FREQ`, `LEFT`, `RIGHT`, `LEAF`, `SYM` (R31). -/
def packNode (r : NodeRec) : BitVec 67 := r.freq ++ r.left ++ r.right ++ BitVec.ofBool r.leaf ++ r.sym

/-- The fields of 67 bits read as a node record: [66:27], [26:18], [17:9], [8], [7:0] (R31). -/
def unpackNode (v : BitVec 67) : NodeRec :=
  { freq := v.extractLsb' 27 40, left := v.extractLsb' 18 9, right := v.extractLsb' 9 9, leaf := v.getLsbD 8,
    sym := v.extractLsb' 0 8 }

end Sys2Proof.Machine
end

