-- ==== Sys2Proof/Machine/Flags.lean ====
section
/-! DEFINITION. The status bits and the readable registers: the encodings of phases, states and fault codes (spec/10_state.md R25,
R36, spec/60_exceptions.md R200), the `fault` pin (R49) and the output channels, the register maps (R44, R45). The block has no
condition codes (R43). -/

namespace Sys2Proof.Machine

/-- The 3-bit encoding of `E.PHASE` (R25). -/
def phaseCode : Phase → BitVec 3
  | .count => 0#3
  | .tree => 1#3
  | .codes => 2#3
  | .body => 3#3
  | .done => 4#3
  | .fault => 7#3

/-- The 3-bit encoding of `D.STATE` (R36). -/
def dstateCode : DState → BitVec 3
  | .awaitHeader => 0#3
  | .awaitTree => 1#3
  | .decoding => 2#3
  | .done => 3#3
  | .fault => 7#3

/-- The 4-bit fault code held in `U.ERR` (R200). -/
def errBits : ErrCode → BitVec 4
  | .noFault => 0#4
  | .seqError => 1#4
  | .countOverflow => 2#4
  | .noCode => 3#4
  | .truncatedInput => 4#4
  | .emptyAlphabet => 5#4

/-- `U.HSIZE`: how many slots of the heap are live (R29). -/
def TreeUnit.hsize (u : TreeUnit) : BitVec 9 := BitVec.ofNat 9 u.heap.length

/-- The `fault` pin: `ILL = 1` or `E.PHASE = FAULT` or `D.STATE = FAULT` (R49, spec/60_exceptions.md R213). -/
def faultPin (s : State) : Bool := s.ill || decide (s.enc.phase = .fault) || decide (s.dec.state = .fault)

/-- `eout_valid` and `eout_data`: the next element of `EOUT` not yet taken (R49). -/
def eoutPort (s : State) : Option Byte := s.eout[s.eoutTaken]?

/-- `dout_valid` and `dout_data`: the next element of `DOUT` not yet taken (R49). -/
def doutPort (s : State) : Option Byte := s.dout[s.doutTaken]?

/-- `rsp_valid` and `rsp_data`: the next element of `RSP` not yet taken (R49). -/
def rspPort (s : State) : Option Word32 := s.rsp[s.rspTaken]?

/-- A status register: [2:0] the phase or state; [3] 0; [7:4] `ERR`; [8] `ILL`; [31:9] 0 (R44, R45). -/
def statusWord (ill : Bool) (err : ErrCode) (code : BitVec 3) : Word32 :=
  0#23 ++ BitVec.ofBool ill ++ errBits err ++ 0#1 ++ code

/-- `E_TREE` and `D_TREE`: [8:0] `ROOT`; [15:9] 0; [24:16] `NNEXT`; [31:25] 0 (R44, R45). -/
def treeWord (u : TreeUnit) : Word32 := 0#7 ++ u.nnext ++ 0#7 ++ u.root

/-- `E_WB`: [7:0] `WB_ACC`; [10:8] `WB_CNT`; [31:11] 0 (R44). -/
def wbWord (e : Encoder) : Word32 := 0#21 ++ e.wbCnt ++ e.wbAcc

/-- `D_BR`: [7:0] `BR_BYTE`; [11:8] `BR_CNT`; [31:12] 0 (R45). -/
def brWord (d : Decoder) : Word32 := 0#20 ++ d.brCnt ++ d.brByte

/-- The value of encoder register n (R44); `none` for the reserved numbers 0x04 to 0xFF. -/
def encRegister (s : State) (n : Byte) : Option Word32 :=
  match n.toNat with
  | 0 => some (statusWord s.ill s.enc.err (phaseCode s.enc.phase))
  | 1 => some s.enc.total
  | 2 => some (treeWord s.enc.tree)
  | 3 => some (wbWord s.enc)
  | _ => none

/-- The value of decoder register n (R45); `none` for the reserved numbers 0x07 to 0xFF. -/
def decRegister (s : State) (n : Byte) : Option Word32 :=
  match n.toNat with
  | 0 => some (statusWord s.ill s.dec.err (dstateCode s.dec.state))
  | 1 => some s.dec.total
  | 2 => some (treeWord s.dec.tree)
  | 3 => some (brWord s.dec)
  | 4 => some s.dec.dcnt
  | 5 => some (0#21 ++ s.dec.hcnt)
  | 6 => some (0#23 ++ s.dec.cur)
  | _ => none

end Sys2Proof.Machine
end

