-- ==== Sys2Proof/Machine/Ops.lean ====
section
/-! DEFINITION. The shared operations over the state: element reads and writes, the streams, taking a fault (`raise`) and the return
from one (the unit resets), `illegal()`, the dispatch gate of spec/30_encoding.md R89, and the host's inputs. -/

namespace Sys2Proof.Machine

/-- Outcomes of a step. -/
abbrev Out := Host.Outcome State Fault Refusal

/-- A rule's result as an outcome: the next state, or a model-internal fault. -/
def outcomeOf : Except Fault State → Out
  | .ok s => .next s
  | .error f => .fault f

/-! ### Parts of the state -/

/-- The state with another encoder. -/
def State.withEnc (s : State) (e : Encoder) : State := { s with enc := e }

/-- The state with another decoder. -/
def State.withDec (s : State) (d : Decoder) : State := { s with dec := d }

/-- The encoder with another phase. -/
def Encoder.withPhase (e : Encoder) (p : Phase) : Encoder := { e with phase := p }

/-- The encoder with another tree part. -/
def Encoder.withTree (e : Encoder) (u : TreeUnit) : Encoder := { e with tree := u }

/-- The encoder with another bit-writer accumulator. -/
def Encoder.withWriter (e : Encoder) (acc : Byte) (cnt : BitVec 3) : Encoder := { e with wbAcc := acc, wbCnt := cnt }

/-- The decoder with another state. -/
def Decoder.withState (d : Decoder) (st : DState) : Decoder := { d with state := st }

/-- The decoder with another bit-reader accumulator. -/
def Decoder.withReader (d : Decoder) (v : Byte) (cnt : BitVec 4) : Decoder := { d with brByte := v, brCnt := cnt }

/-! ### Array elements -/

/-- `U.FREQ[s]` (spec/10_state.md R28). -/
def freqAt (u : TreeUnit) (s : Nat) : Word32 := tableGet 0#32 u.freq s

/-- `U.FREQ[s] <- v` (R28). -/
def setFreq (u : TreeUnit) (s : Nat) (v : Word32) : TreeUnit := { u with freq := tablePut 0#32 u.freq s v }

/-- `U.NODE[n]` (R31): the record of `NONE` does not exist, and a record nothing has written holds no value (R48). -/
def nodeAt (node : List (Nat × NodeRec)) (n : NodeId) : Except Fault NodeRec :=
  if n = Config.noneId then .error .noneNode
  else
    match tableFind node n.toNat with
    | some r => .ok r
    | none => .error .unwrittenNode

/-- `U.NODE[n] <- r` (R31). -/
def setNode (u : TreeUnit) (n : NodeId) (r : NodeRec) : TreeUnit := { u with node := tableInsert u.node n.toNat r }

/-- `leaf(U, n)` (spec/00_scope.md R12). -/
def isLeaf (node : List (Nat × NodeRec)) (n : NodeId) : Except Fault Bool :=
  match nodeAt node n with
  | .ok r => .ok r.leaf
  | .error f => .error f

/-- `E.CLEN[s]` (R33). -/
def clenAt (e : Encoder) (s : Nat) : BitVec 9 := tableGet 0#9 e.clen s

/-- The bits of `E.CBITS[s]` that hold a value, bit 0 first (R33, R48). -/
def cbitsAt (e : Encoder) (s : Nat) : List Bool := tableGet [] e.cbits s

/-- Every entry of `U.FREQ` is zero (spec/47_container_decode.md R172). -/
def allZero (u : TreeUnit) : Bool := Config.symbols.all (fun s => decide (freqAt u s = 0#32))

/-! ### Streams -/

/-- `emit(EOUT, b)` for each byte in order (spec/00_scope.md R12). -/
def emitE (bs : List Byte) (s : State) : State := { s with eout := s.eout ++ bs }

/-- `emit(DOUT, b)` (R12). -/
def emitD (b : Byte) (s : State) : State := { s with dout := s.dout ++ [b] }

/-- `respond(v)` (R12). -/
def respond (v : Word32) (s : State) : State := { s with rsp := s.rsp ++ [v] }

/-! ### Faults of the block -/

/-- `raise <Fault>(E)` (spec/60_exceptions.md R206): `E.ERR` takes the code, `E.PHASE` becomes FAULT, nothing else changes. -/
def raiseE (c : ErrCode) (s : State) : State := { s with enc := { s.enc with err := c, phase := .fault } }

/-- `raise <Fault>(D)` (R206). -/
def raiseD (c : ErrCode) (s : State) : State := { s with dec := { s.dec with err := c, state := .fault } }

/-- `illegal()` (spec/00_scope.md R12, spec/30_encoding.md R88): `ILL <- 1`, nothing else. -/
def illegal (s : State) : State := { s with ill := true }

/-- The encoder's reset, the only return from its FAULT phase besides hardware reset (spec/48_system_commands.md R190,
spec/60_exceptions.md R211). -/
def resetE (s : State) : State := { s with enc := Encoder.reset }

/-- The decoder's reset (spec/48_system_commands.md R191, spec/60_exceptions.md R211). -/
def resetD (s : State) : State := { s with dec := Decoder.reset }

/-! ### Dispatch gates -/

/-- R89 steps 3 to 5 for an encoder command whose row of R90 has its only `x` in phase `legal`: ignored in FAULT, `SeqError`
elsewhere, else the command's own rule. -/
def gateE (legal : Phase) (s : State) (rule : State → Except Fault State) : Out :=
  if s.enc.phase = .fault then .next s
  else if s.enc.phase = legal then outcomeOf (rule s)
  else .next (raiseE .seqError s)

/-! ### The host's inputs -/

/-- A command word is taken: the program index advances by exactly 1, whatever the word does (spec/10_state.md R22). -/
def acceptWord (s : State) (rest : List HostInput) : State := { s with pc := s.pc + 1, hostIn := rest }

/-- An input other than a command word is taken. -/
def acceptInput (s : State) (rest : List HostInput) : State := { s with hostIn := rest }

/-- Hardware reset: every element takes its reset value (R51, spec/70_reset_and_hazards.md R230); what the host has still to present
is the host's. -/
def hardwareReset (rest : List HostInput) : State := { State.reset with hostIn := rest }

/-- A transfer on `eout`, when `eout_valid` is 1 (R49). -/
def takeEout (s : State) : State := if s.eoutTaken < s.eout.length then { s with eoutTaken := s.eoutTaken + 1 } else s

/-- A transfer on `dout`, when `dout_valid` is 1 (R49). -/
def takeDout (s : State) : State := if s.doutTaken < s.dout.length then { s with doutTaken := s.doutTaken + 1 } else s

/-- A transfer on `rsp`, when `rsp_valid` is 1 (R49). -/
def takeRsp (s : State) : State := if s.rspTaken < s.rsp.length then { s with rspTaken := s.rspTaken + 1 } else s

end Sys2Proof.Machine
end

