-- ==== Sys2Proof/Machine/Accumulator.lean ====
section
/-! DEFINITION. The frequency accumulator (spec/40_frequency_accumulator.md): `FACC`. -/

namespace Sys2Proof.Machine

/-- The encoder after one more symbol s is counted (R101). -/
def countSymbol (e : Encoder) (c : Byte) : Encoder :=
  { e with tree := setFreq e.tree c.toNat (freqAt e.tree c.toNat + 1#32), total := e.total + 1#32 }

/-- The rule of `FACC s` in phase COUNT (R101). The total's test comes first and protects both additions; an entry that would wrap
all the same (in no reachable state) is a model-internal fault, "never a wrap" (spec/00_scope.md R9). -/
def faccRule (c : Byte) (s : State) : Except Fault State :=
  if s.enc.total = Config.countMax then .ok (raiseE .countOverflow s)
  else if freqAt s.enc.tree c.toNat = Config.countMax then .error .countWrap
  else .ok (s.withEnc (countSymbol s.enc c))

/-- `FACC s`: count one input symbol (R101). -/
def execFacc (c : Byte) (s : State) : Out := gateE .count s (faccRule c)

end Sys2Proof.Machine
end

