-- ==== Sys2Proof/Machine/CodeDeriver.lean ====
section
/-! DEFINITION. The code table deriver (spec/43_code_table_deriver.md): the micro-operation `CODE_DERIVE`, and `CDERIVE`. -/

namespace Sys2Proof.Machine

/-- `set_code(s, path)` (R131): the length, and the bits 0 to len − 1 of the row; the bits above keep what they held. A path over the
capacity of 256 bits is a model-internal fault (spec/60_exceptions.md R221 (d)). -/
def setCode (e : Encoder) (s : Byte) (path : List Bool) : Except Fault Encoder :=
  if path.length ≤ Config.pathCap then
    .ok { e with
      clen := tablePut 0#9 e.clen s.toNat (BitVec.ofNat 9 path.length)
      cbits := tablePut [] e.cbits s.toNat (path ++ (cbitsAt e s.toNat).drop path.length) }
  else .error .codeTooLong

/-- `walk(n, path)` (R131): left before right, 0 = left and 1 = right. The first argument is how much longer the path may grow, plus
one: a path of more than 256 bits is a model-internal fault. -/
def walk : Nat → Encoder → NodeId → List Bool → Except Fault Encoder
  | 0, _, _, _ => .error .codeTooLong
  | room + 1, e, n, path =>
    match nodeAt e.tree.node n with
    | .error f => .error f
    | .ok r =>
      if r.leaf then setCode e r.sym path
      else
        match walk room e r.left (path ++ [false]) with
        | .ok e' => walk room e' r.right (path ++ [true])
        | .error f => .error f

/-- `CODE_DERIVE(E)` (R131): no tree gives no codes (R136), a leaf root the one-bit code (R132), else the walk from the root. -/
def codeDerive (e : Encoder) : Except Fault Encoder :=
  if e.tree.root = Config.noneId then .ok { e with clen := [] }
  else
    match nodeAt e.tree.node e.tree.root with
    | .error f => .error f
    | .ok r =>
      if r.leaf then setCode { e with clen := [] } r.sym Config.singleCode
      else walk (Config.pathCap + 1) { e with clen := [] } e.tree.root []

/-- The rule of `CDERIVE` in phase TREE (R133): `CODE_DERIVE(E)`, then phase CODES. -/
def cderiveRule (s : State) : Except Fault State :=
  match codeDerive s.enc with
  | .ok e => .ok (s.withEnc (e.withPhase .codes))
  | .error f => .error f

/-- `CDERIVE`: derive the code table (R133). -/
def execCderive (s : State) : Out := gateE .tree s cderiveRule

end Sys2Proof.Machine
end

