-- ==== Sys2Proof/Machine/BitReader.lean ====
section
/-! DEFINITION. The bit reader of the decoder (spec/45_bit_reader.md): the micro-operations `BR_LOAD` and `BR_NEXT`. They have no
command word (spec/30_encoding.md R95). -/

namespace Sys2Proof.Machine

/-- `BR_LOAD(v)` (R151). -/
def brLoad (v : Byte) (d : Decoder) : Decoder := d.withReader v 8#4

/-- `BR_NEXT()` (R152): the bit taken, `D.BR_BYTE` indexed with the new count, and the decoder after. A call with the count outside
1 to 8 is a model-internal fault. -/
def brNext (d : Decoder) : Except Fault (Bool × Decoder) :=
  if 1 ≤ d.brCnt.toNat ∧ d.brCnt.toNat ≤ 8 then
    .ok (d.brByte.getLsbD (d.brCnt.toNat - 1), d.withReader d.brByte (d.brCnt - 1#4))
  else .error .readerCount

end Sys2Proof.Machine
end

