-- ==== Sys2Proof/Machine/Priority.lean ====
section
/-! DEFINITION. The priority structure (spec/41_priority_structure.md): the order `less` and the micro-operations `PQ_INSERT` and
`PQ_EXTRACT_MIN` on an array-stored binary heap. They have no command word (spec/30_encoding.md R95). -/

namespace Sys2Proof.Machine

/-- The order on keys (R111, `TIEBREAK`): the smaller frequency first, among equal frequencies the smaller id. -/
def keyLess (fa : NodeFreq) (a : NodeId) (fb : NodeFreq) (b : NodeId) : Bool :=
  decide (fa.toNat < fb.toNat) || (decide (fa = fb) && decide (a.toNat < b.toNat))

/-- `less(U, a, b)` (R111), reading the records of both ids. -/
def less (node : List (Nat × NodeRec)) (a b : NodeId) : Except Fault Bool :=
  match nodeAt node a, nodeAt node b with
  | .ok ra, .ok rb => .ok (keyLess ra.freq a rb.freq b)
  | .error f, _ => .error f
  | _, .error f => .error f

/-- `U.HEAP[i]`, which holds a value only for `i < U.HSIZE` (spec/10_state.md R29). -/
def slotAt (heap : List NodeId) (i : Nat) : Except Fault NodeId :=
  match heap[i]? with
  | some n => .ok n
  | none => .error .deadSlot

/-- `swap U.HEAP[i] and U.HEAP[j]`, given what they hold. -/
def swapSlots (heap : List NodeId) (i : Nat) (x : NodeId) (j : Nat) (y : NodeId) : List NodeId := (heap.set i y).set j x

/-- The loop of `PQ_INSERT` (R112): the entry in slot i moves up while it is `less` than its parent in slot (i − 1) div 2. The first
argument bounds the turns of the loop. -/
def siftUp (node : List (Nat × NodeRec)) : Nat → List NodeId → Nat → Except Fault (List NodeId)
  | 0, heap, i => if i = 0 then .ok heap else .error .loopBound
  | bound + 1, heap, i =>
    if i = 0 then .ok heap
    else
      match slotAt heap i, slotAt heap ((i - 1) / 2) with
      | .ok x, .ok p =>
        match less node x p with
        | .ok true => siftUp node bound (swapSlots heap i x ((i - 1) / 2) p) ((i - 1) / 2)
        | .ok false => .ok heap
        | .error f => .error f
      | .error f, _ => .error f
      | _, .error f => .error f

/-- `PQ_INSERT(U, n)` on the heap of unit U (R112): at most 256 entries (R115). -/
def pqInsert (node : List (Nat × NodeRec)) (heap : List NodeId) (n : NodeId) : Except Fault (List NodeId) :=
  if heap.length < Config.pqCap then siftUp node heap.length (heap ++ [n]) heap.length else .error .heapOverflow

/-- One comparison of `PQ_EXTRACT_MIN`'s loop (R113): `if c < U.HSIZE and less(U, U.HEAP[c], U.HEAP[m]) then m <- c`. -/
def smallerChild (node : List (Nat × NodeRec)) (heap : List NodeId) (c m : Nat) : Except Fault Nat :=
  if c < heap.length then
    match slotAt heap c, slotAt heap m with
    | .ok x, .ok y =>
      match less node x y with
      | .ok true => .ok c
      | .ok false => .ok m
      | .error f => .error f
    | .error f, _ => .error f
    | _, .error f => .error f
  else .ok m

/-- The slot the loop of `PQ_EXTRACT_MIN` goes on with: i, or its `less`-smaller child among slots 2i + 1 and 2i + 2 (R113). -/
def siftTarget (node : List (Nat × NodeRec)) (heap : List NodeId) (i : Nat) : Except Fault Nat :=
  match smallerChild node heap (2 * i + 1) i with
  | .ok m => smallerChild node heap (2 * i + 2) m
  | .error f => .error f

/-- The loop of `PQ_EXTRACT_MIN` (R113): the entry in slot i moves down while a child is `less`. The first argument bounds the turns
of the loop. -/
def siftDown (node : List (Nat × NodeRec)) : Nat → List NodeId → Nat → Except Fault (List NodeId)
  | 0, _, _ => .error .loopBound
  | bound + 1, heap, i =>
    match siftTarget node heap i with
    | .ok m =>
      if m = i then .ok heap
      else
        match slotAt heap i, slotAt heap m with
        | .ok x, .ok y => siftDown node bound (swapSlots heap i x m y) m
        | .error f, _ => .error f
        | _, .error f => .error f
    | .error f => .error f

/-- `PQ_EXTRACT_MIN(U)` on the heap of unit U (R113): the id in slot 0, and the heap without it. The last live slot gives slot 0 its
id before it goes dead. -/
def pqExtractMin (node : List (Nat × NodeRec)) (heap : List NodeId) : Except Fault (NodeId × List NodeId) :=
  match heap, heap.getLast? with
  | r :: _, some last =>
    if heap.length - 1 = 0 then .ok (r, [])
    else
      match siftDown node heap.length (heap.dropLast.set 0 last) 0 with
      | .ok h => .ok (r, h)
      | .error f => .error f
  | _, _ => .error .heapUnderflow

end Sys2Proof.Machine
end

