-- ==== Sys2Proof/Machine/TreeBuilder.lean ====
section
/-! DEFINITION. The tree builder (spec/42_tree_builder.md): the micro-operation `TREE_BUILD`, used by both units, and `TBUILD`. -/

namespace Sys2Proof.Machine

/-- The record of the leaf of a symbol (R121): `FREQ = zext_40(U.FREQ[s])`, no children, `LEAF` 1. -/
def leafRec (u : TreeUnit) (s : Nat) : NodeRec :=
  { freq := (freqAt u s).setWidth 40, left := Config.noneId, right := Config.noneId, leaf := true, sym := BitVec.ofNat 8 s }

/-- The record of an internal node over A (left, the first extracted, `FIRST_SIDE`) and B (right) (R121, decision D13); a sum that
does not fit 40 bits is a model-internal fault (spec/60_exceptions.md R221 (e)). -/
def mergedRec (ra rb : NodeRec) (a b : NodeId) : Except Fault NodeRec :=
  if ra.freq.toNat + rb.freq.toNat < 2 ^ 40 then
    .ok { freq := ra.freq + rb.freq, left := a, right := b, leaf := false, sym := 0#8 }
  else .error .sumOverflow

/-- One turn of the leaf loop of `TREE_BUILD` (R121): a leaf for a symbol of nonzero frequency, inserted. -/
def insertLeaf (u : TreeUnit) (s : Nat) : Except Fault TreeUnit :=
  if freqAt u s = 0#32 then .ok u
  else
    match pqInsert (setNode u (BitVec.ofNat 9 s) (leafRec u s)).node u.heap (BitVec.ofNat 9 s) with
    | .ok h => .ok { setNode u (BitVec.ofNat 9 s) (leafRec u s) with heap := h }
    | .error f => .error f

/-- The leaf loop of `TREE_BUILD` (R121): symbols in the given order (ascending at its one call, decision D14). -/
def insertLeaves : List Nat → TreeUnit → Except Fault TreeUnit
  | [], u => .ok u
  | s :: rest, u =>
    match insertLeaf u s with
    | .ok u' => insertLeaves rest u'
    | .error f => .error f

/-- The end of one turn of the merge loop (R121): node P over A and B is written and inserted. -/
def addMerged (u : TreeUnit) (heap : List NodeId) (a b : NodeId) : Except Fault TreeUnit :=
  if u.nnext = Config.noneId then .error .arenaFull
  else
    match nodeAt u.node a, nodeAt u.node b with
    | .ok ra, .ok rb =>
      match mergedRec ra rb a b with
      | .ok r =>
        match pqInsert (setNode u u.nnext r).node heap u.nnext with
        | .ok h => .ok { setNode u u.nnext r with heap := h, nnext := u.nnext + 1#9 }
        | .error f => .error f
      | .error f => .error f
    | .error f, _ => .error f
    | _, .error f => .error f

/-- One turn of the merge loop (R121): the two least ids A and B are extracted and merged. -/
def mergeOnce (u : TreeUnit) : Except Fault TreeUnit :=
  match pqExtractMin u.node u.heap with
  | .ok (a, h1) =>
    match pqExtractMin u.node h1 with
    | .ok (b, h2) => addMerged u h2 a b
    | .error f => .error f
  | .error f => .error f

/-- The merge loop of `TREE_BUILD` (R121): `while U.HSIZE > 1`. The first argument bounds the turns of the loop. -/
def mergeLoop : Nat → TreeUnit → Except Fault TreeUnit
  | 0, u => if u.heap.length ≤ 1 then .ok u else .error .loopBound
  | bound + 1, u =>
    if u.heap.length ≤ 1 then .ok u
    else
      match mergeOnce u with
      | .ok u' => mergeLoop bound u'
      | .error f => .error f

/-- The end of `TREE_BUILD` (R121): `U.ROOT` is the one node that remains, in slot 0, or `NONE` with no entry (R123); the heap is
emptied. -/
def takeRoot (u : TreeUnit) : TreeUnit :=
  { u with root := (match u.heap with | [] => Config.noneId | r :: _ => r), heap := [] }

/-- `TREE_BUILD(U)` (R121). -/
def treeBuild (u : TreeUnit) : Except Fault TreeUnit :=
  match insertLeaves Config.symbols { u with heap := [], nnext := Config.firstInternal } with
  | .ok u1 =>
    match mergeLoop u1.heap.length u1 with
    | .ok u2 => .ok (takeRoot u2)
    | .error f => .error f
  | .error f => .error f

/-- The rule of `TBUILD` in phase COUNT (R125): `TREE_BUILD(E)`, then phase TREE. -/
def tbuildRule (s : State) : Except Fault State :=
  match treeBuild s.enc.tree with
  | .ok u => .ok (s.withEnc ((s.enc.withTree u).withPhase .tree))
  | .error f => .error f

/-- `TBUILD`: end of pass 1; build the encoder's tree (R125). -/
def execTbuild (s : State) : Out := gateE .count s tbuildRule

end Sys2Proof.Machine
end

