-- ==== Sys2Proof/Machine/ContainerDecode.lean ====
section
/-! DEFINITION. The decode half of the container codec (spec/47_container_decode.md): `DBYTE`, `DTREE`, `DEND`, and the
micro-operation `DSTEP`. -/

namespace Sys2Proof.Machine

/-- The byte number h of the header goes to byte h of the total, or to byte (h − 4) mod 4 of entry (h − 4) div 4 (R171). -/
def storeHeaderByte (d : Decoder) (h : Nat) (v : Byte) : Decoder :=
  if h < 4 then { d with total := setHeaderLane d.total h v }
  else { d with tree := setFreq d.tree ((h - 4) / 4) (setHeaderLane (freqAt d.tree ((h - 4) / 4)) ((h - 4) % 4) v) }

/-- `DBYTE v` in state `AwaitHeader` (R171); a count of 1028 or more (in no reachable state, R38) is a model-internal fault. -/
def headerByteRule (v : Byte) (s : State) : Except Fault State :=
  if s.dec.hcnt.toNat < Config.hdrLen then
    .ok (s.withDec
      { storeHeaderByte s.dec s.dec.hcnt.toNat v with
        hcnt := s.dec.hcnt + 1#11
        state := if s.dec.hcnt.toNat + 1 = Config.hdrLen then .awaitTree else .awaitHeader })
  else .error .headerOverrun

/-- The node a bit leads to (R176): the root itself when it is a leaf, else the left child on 0 and the right child on 1. -/
def nextNode (d : Decoder) (bit : Bool) : Except Fault NodeId :=
  match isLeaf d.tree.node d.tree.root with
  | .ok true => .ok d.tree.root
  | .ok false =>
    match nodeAt d.tree.node d.cur with
    | .ok r => .ok (if bit then r.right else r.left)
    | .error f => .error f
  | .error f => .error f

/-- A symbol is complete (R176): it is emitted and counted, the cursor goes back to the root, and the state becomes `Done` when the
count is reached (R177). -/
def finishSymbol (sym : Byte) (s : State) : State :=
  emitD sym (s.withDec
    { s.dec with
      dcnt := s.dec.dcnt + 1#32
      cur := s.dec.tree.root
      state := if s.dec.dcnt + 1#32 = s.dec.total then .done else s.dec.state })

/-- `DSTEP(bit)` (R176). A count that would wrap (in no reachable state) is a model-internal fault. -/
def dstep (bit : Bool) (s : State) : Except Fault State :=
  match nextNode s.dec bit with
  | .error f => .error f
  | .ok n =>
    match nodeAt s.dec.tree.node n with
    | .error f => .error f
    | .ok r =>
      if r.leaf then
        if s.dec.dcnt = Config.countMax then .error .countWrap else .ok (finishSymbol r.sym s)
      else .ok (s.withDec { s.dec with cur := n })

/-- One turn of the loop of R174: `DSTEP(BR_NEXT())`. -/
def decodeBit (s : State) : Except Fault State :=
  match brNext s.dec with
  | .ok (bit, d) => dstep bit (s.withDec d)
  | .error f => .error f

/-- The loop of R174: `while D.BR_CNT > 0 and D.STATE = Decoding`. The first argument bounds the turns of the loop. -/
def decodeBits : Nat → State → Except Fault State
  | 0, s => if s.dec.brCnt = 0#4 ∨ s.dec.state ≠ .decoding then .ok s else .error .loopBound
  | bound + 1, s =>
    if s.dec.brCnt = 0#4 ∨ s.dec.state ≠ .decoding then .ok s
    else
      match decodeBit s with
      | .ok s' => decodeBits bound s'
      | .error f => .error f

/-- `DBYTE v` in state `Decoding` (R174): up to eight bits are decoded; what is left after `Done` is discarded. -/
def bodyByteRule (v : Byte) (s : State) : Except Fault State :=
  match decodeBits 8 (s.withDec (brLoad v s.dec)) with
  | .ok s' => .ok (s'.withDec (s'.dec.withReader s'.dec.brByte 0#4))
  | .error f => .error f

/-- `DBYTE v`: give the decoder the next container byte (R173): by state R171, `SeqError`, R174, R175, ignored. -/
def execDbyte (v : Byte) (s : State) : Out :=
  match s.dec.state with
  | .awaitHeader => outcomeOf (headerByteRule v s)
  | .awaitTree => .next (raiseD .seqError s)
  | .decoding => outcomeOf (bodyByteRule v s)
  | .done => .next s
  | .fault => .next s

/-- The rule of `DTREE` in state `AwaitTree` (R172). -/
def dtreeRule (s : State) : Except Fault State :=
  if s.dec.total = 0#32 then .ok (s.withDec (s.dec.withState .done))
  else if allZero s.dec.tree then .ok (raiseD .emptyAlphabet s)
  else
    match treeBuild s.dec.tree with
    | .ok u => .ok (s.withDec { s.dec with tree := u, cur := u.root, dcnt := 0#32, state := .decoding })
    | .error f => .error f

/-- `DTREE`: the `AwaitTree` step (R172, spec/30_encoding.md R91). -/
def execDtree (s : State) : Out :=
  match s.dec.state with
  | .awaitHeader => .next (raiseD .seqError s)
  | .awaitTree => outcomeOf (dtreeRule s)
  | .decoding => .next (raiseD .seqError s)
  | .done => .next (raiseD .seqError s)
  | .fault => .next s

/-- `DEND`: the container bytes are exhausted (R178). -/
def execDend (s : State) : Out :=
  match s.dec.state with
  | .awaitHeader => .next (raiseD .truncatedInput s)
  | .awaitTree => .next (raiseD .seqError s)
  | .decoding => .next (raiseD .truncatedInput s)
  | .done => .next s
  | .fault => .next s

end Sys2Proof.Machine
end

