-- ==== Sys2Proof/Machine/BitWriter.lean ====
section
/-! DEFINITION. The bit writer (spec/44_bit_writer.md): the micro-operations `WB_WRITE` and `WB_FLUSH`, and `WBIT` and `FLUSH`. -/

namespace Sys2Proof.Machine

/-- `acc <- E.WB_ACC | (b << (7 − E.WB_CNT))` (R141): b below the bits already pending. -/
def placeBit (acc : Byte) (cnt : BitVec 3) (b : Bool) : Byte := acc ||| ((BitVec.ofBool b).setWidth 8 <<< (7 - cnt.toNat))

/-- `WB_WRITE(b)` (R141): the eighth bit completes the byte, which is emitted. -/
def wbWrite (b : Bool) (s : State) : State :=
  if s.enc.wbCnt = 7#3 then
    emitE [placeBit s.enc.wbAcc s.enc.wbCnt b] (s.withEnc (s.enc.withWriter 0#8 0#3))
  else s.withEnc (s.enc.withWriter (placeBit s.enc.wbAcc s.enc.wbCnt b) (s.enc.wbCnt + 1#3))

/-- `WB_WRITE` of each bit in order. -/
def wbWriteAll : List Bool → State → State
  | [], s => s
  | b :: bs, s => wbWriteAll bs (wbWrite b s)

/-- `WB_FLUSH()` (R142): a partial byte is emitted if at least one bit is pending; the accumulator is reset. -/
def wbFlush (s : State) : State :=
  (if s.enc.wbCnt = 0#3 then s else emitE [s.enc.wbAcc] s).withEnc (s.enc.withWriter 0#8 0#3)

/-- The rule of `WBIT b` in phase BODY (R145). -/
def wbitRule (b : Bool) (s : State) : Except Fault State := .ok (wbWrite b s)

/-- `WBIT b`: write one raw bit into the body (R145). An operand of 2 or more spells no command and is executed as `illegal()`
(spec/30_encoding.md R88); the decoder gives none. -/
def execWbit (arg : Byte) (s : State) : Out :=
  if arg.toNat ≤ 1 then gateE .body s (wbitRule (bitOperand arg)) else .next (illegal s)

/-- The rule of `FLUSH` in phase BODY (R146). -/
def flushRule (s : State) : Except Fault State :=
  .ok ((wbFlush s).withEnc ((wbFlush s).enc.withPhase .done))

/-- `FLUSH`: end of pass 2; close the container (R146). -/
def execFlush (s : State) : Out := gateE .body s flushRule

end Sys2Proof.Machine
end

