-- ==== Sys2Proof/Machine/ContainerEncode.lean ====
section
/-! DEFINITION. The encode half of the container codec (spec/46_container_encode.md): `WHDR` and `ESYM`. -/

namespace Sys2Proof.Machine

/-- The fields of the frequency table in symbol order, each least significant byte first (R161). -/
def tableBytes (u : TreeUnit) : List Nat → List Byte
  | [] => []
  | s :: rest => headerField (freqAt u s) ++ tableBytes u rest

/-- The 1028 bytes of the header: the total at offset 0, entry s at offset 4 + 4s (R161, spec/20_memory.md R61, R62). -/
def headerBytes (e : Encoder) : List Byte := headerField e.total ++ tableBytes e.tree Config.symbols

/-- The rule of `WHDR` in phase CODES (R161). -/
def whdrRule (s : State) : Except Fault State :=
  .ok ((emitE (headerBytes s.enc) s).withEnc (s.enc.withPhase .body))

/-- `WHDR`: emit the container header (R161). -/
def execWhdr (s : State) : Out := gateE .codes s whdrRule

/-- `CODE(s)`, the first `CLEN[s]` bits of the row (spec/10_state.md R33); a bit that holds no value is a model-internal fault
(R48). -/
def codeOf (e : Encoder) (s : Nat) : Except Fault (List Bool) :=
  if (clenAt e s).toNat ≤ (cbitsAt e s).length then .ok ((cbitsAt e s).take (clenAt e s).toNat) else .error .unwrittenCodeBit

/-- The rule of `ESYM s` in phase BODY (R163): `NoCode` when the symbol has no code, else its bits through the bit writer. -/
def esymRule (c : Byte) (s : State) : Except Fault State :=
  if clenAt s.enc c.toNat = 0#9 then .ok (raiseE .noCode s)
  else
    match codeOf s.enc c.toNat with
    | .ok bits => .ok (wbWriteAll bits s)
    | .error f => .error f

/-- `ESYM s`: encode one input symbol (R163). -/
def execEsym (c : Byte) (s : State) : Out := gateE .body s (esymRule c)

end Sys2Proof.Machine
end

