-- ==== Sys2Proof/Machine/System.lean ====
section
/-! DEFINITION. The system commands (spec/48_system_commands.md): two unit resets and four reads, legal in every phase and state
(spec/30_encoding.md R89 step 2). -/

namespace Sys2Proof.Machine

/-- `ERESET`: reset the encoder (R190). -/
def execEreset (s : State) : Out := .next (resetE s)

/-- `DRESET`: reset the decoder (R191). -/
def execDreset (s : State) : Out := .next (resetD s)

/-- `ERDF s`: read an encoder frequency entry (R194). -/
def execErdf (c : Byte) (s : State) : Out := .next (respond (freqAt s.enc.tree c.toNat) s)

/-- `DRDF s`: read a decoder frequency entry (R196). -/
def execDrdf (c : Byte) (s : State) : Out := .next (respond (freqAt s.dec.tree c.toNat) s)

/-- A read of a register: the value is answered, or the number is reserved and the word illegal (R193). -/
def readRegister (v : Option Word32) (s : State) : Out :=
  match v with
  | some w => .next (respond w s)
  | none => .next (illegal s)

/-- `ERDR n`: read encoder register n (R195). -/
def execErdr (n : Byte) (s : State) : Out := readRegister (encRegister s n) s

/-- `DRDR n`: read decoder register n (R197). -/
def execDrdr (n : Byte) (s : State) : Out := readRegister (decRegister s n) s

end Sys2Proof.Machine
end

