-- ==== Sys2Proof/Machine/Dispatch.lean ====
section
/-! DEFINITION. What each command does: one arm per constructor of Instr (spec/30_encoding.md R82, R89). -/

namespace Sys2Proof.Machine

def exec (i : Instr) (s : State) : Host.Outcome State Fault Refusal :=
  match i with
  | .ereset => Sys2Proof.Machine.execEreset s
  | .facc c => Sys2Proof.Machine.execFacc c s
  | .tbuild => Sys2Proof.Machine.execTbuild s
  | .cderive => Sys2Proof.Machine.execCderive s
  | .whdr => Sys2Proof.Machine.execWhdr s
  | .esym c => Sys2Proof.Machine.execEsym c s
  | .wbit b => Sys2Proof.Machine.execWbit b s
  | .flush => Sys2Proof.Machine.execFlush s
  | .erdf c => Sys2Proof.Machine.execErdf c s
  | .erdr n => Sys2Proof.Machine.execErdr n s
  | .dreset => Sys2Proof.Machine.execDreset s
  | .dbyte v => Sys2Proof.Machine.execDbyte v s
  | .dtree => Sys2Proof.Machine.execDtree s
  | .dend => Sys2Proof.Machine.execDend s
  | .drdf c => Sys2Proof.Machine.execDrdf c s
  | .drdr n => Sys2Proof.Machine.execDrdr n s

end Sys2Proof.Machine
end

