-- ==== Sys2Proof/Machine/Step.lean ====
section
/-! DEFINITION. One step: the next input of the host is taken (spec/10_state.md R22, R49, R50). -/

namespace Sys2Proof.Machine

/-- A command word, once taken: its command is executed, or the word is illegal (spec/30_encoding.md R88, R89). -/
def runWord (w : CmdWord) (s : State) : Host.Outcome State Fault Refusal :=
  match decode w with
  | .ok i => exec i s
  | .error _ => .next (illegal s)

/-- One step. With no input left the block waits, its state kept (R51, spec/60_exceptions.md R220). -/
def step (s : State) : Host.Outcome State Fault Refusal :=
  match s.hostIn with
  | [] => .next s
  | .word w :: rest => runWord w (acceptWord s rest)
  | .rst :: rest => .next (hardwareReset rest)
  | .takeEout :: rest => .next (takeEout (acceptInput s rest))
  | .takeDout :: rest => .next (takeDout (acceptInput s rest))
  | .takeRsp :: rest => .next (takeRsp (acceptInput s rest))

/-- The host presents the word of an instruction of nbits bits next, before what it was going to present (log entry 9). -/
def State.withFetchWord (s : State) (nbits w : Nat) : State :=
  { s with hostIn := .word (BitVec.ofNat 16 (w % 2 ^ nbits)) :: s.hostIn }

end Sys2Proof.Machine
end

