-- ==== Sys2Proof/Safety.lean ====
section
/-! DEFINITION. What counts as a safe run, in the terms the statements use: the invariant of every reachable state, and the words
of the rules about trees, codes and bit sequences. -/

namespace Sys2Proof.Machine

/-! ### Runs without a recorded fault -/

/-- "no fault recorded" (spec/60_exceptions.md R207): `ILL = 0`, `E.ERR = 0` and `D.ERR = 0`. -/
abbrev noFaultRecorded (s : State) : Prop := s.ill = false ∧ s.enc.err = .noFault ∧ s.dec.err = .noFault

/-! ### The arena and the tree (spec/10_state.md R30 to R32) -/

/-- The sum over the symbols of `U.FREQ`. -/
def freqSum (u : TreeUnit) : Nat := (Config.symbols.map (fun s => (freqAt u s).toNat)).sum

/-- The symbols of nonzero frequency, ascending. -/
def usedSymbols (u : TreeUnit) : List Nat := Config.symbols.filter (fun s => decide (freqAt u s ≠ 0#32))

/-- The frequency of a child that is listed and has a smaller id than its parent (ids follow the order of creation, R30, R124 (d)). -/
def childFreq (node : List (Nat × NodeRec)) (parent : Nat) (c : NodeId) : Option Nat :=
  if c.toNat < parent then (tableFind node c.toNat).map (fun r => r.freq.toNat) else none

/-- The sum of the two children's frequencies, when both are listed with smaller ids. -/
def childrenSum (node : List (Nat × NodeRec)) (parent : Nat) (l r : NodeId) : Option Nat :=
  match childFreq node parent l, childFreq node parent r with
  | some a, some b => some (a + b)
  | _, _ => none

/-- A leaf's record (R31, R32 (b), (d)): its id is its symbol, it has no child, and its frequency is the symbol's nonzero entry. -/
abbrev leafOk (u : TreeUnit) (e : Nat × NodeRec) : Prop :=
  e.1 = e.2.sym.toNat ∧ e.2.left = Config.noneId ∧ e.2.right = Config.noneId ∧
    e.2.freq = (freqAt u e.1).setWidth 40 ∧ freqAt u e.1 ≠ 0#32

/-- An internal node's record (R30, R31, R32 (b), (c)): its id is 256 or above and already given out, and its frequency is the sum of
two listed children that are older. -/
abbrev innerOk (u : TreeUnit) (e : Nat × NodeRec) : Prop :=
  256 ≤ e.1 ∧ e.1 < u.nnext.toNat ∧ e.2.sym = 0#8 ∧
    childrenSum u.node e.1 e.2.left e.2.right = some e.2.freq.toNat

/-- Every listed record is a leaf's or an internal node's, by its `LEAF` bit. -/
abbrev arenaOk (u : TreeUnit) : Prop :=
  tableWf 511 u.node = true ∧
    ∀ e ∈ u.node, (e.2.leaf = true → leafOk u e) ∧ (e.2.leaf = false → innerOk u e)

/-- The root is `NONE` or a listed record (R30, R48). -/
abbrev rootOk (u : TreeUnit) : Prop := u.root = Config.noneId ∨ (tableFind u.node u.root.toNat).isSome = true

/-- A unit's tree part between commands: tables canonical, heap empty (R29), arena and root as above, `NNEXT` from 256 (R30). -/
abbrev treeOk (u : TreeUnit) : Prop :=
  tableWfD 0#32 256 u.freq = true ∧ u.heap = [] ∧ 256 ≤ u.nnext.toNat ∧ arenaOk u ∧ rootOk u

/-- A unit that has not built its tree since its reset (R48, R51). -/
abbrev noTree (u : TreeUnit) : Prop := u.node = [] ∧ u.root = Config.noneId ∧ u.nnext = Config.firstInternal

/-- The node a path leads to: 0 = left, 1 = right, a leaf has no children (spec/43_code_table_deriver.md R130, R135). -/
def follow (node : List (Nat × NodeRec)) : NodeId → List Bool → Option NodeId
  | n, [] => some n
  | n, b :: bs =>
    match tableFind node n.toNat with
    | some r => if r.leaf then none else follow node (if b then r.right else r.left) bs
    | none => none

/-- The ids of the listed leaves. -/
def leafIds (node : List (Nat × NodeRec)) : List Nat := (node.filter (fun e => e.2.leaf)).map (fun e => e.1)

/-- The ids a record names as its children: two for an internal node, none for a leaf (R31). -/
def childrenOf (e : Nat × NodeRec) : List Nat := if e.2.leaf then [] else [e.2.left.toNat, e.2.right.toNat]

/-- The ids the listed records name as children, each as often as it is named. -/
def childIds (node : List (Nat × NodeRec)) : List Nat := node.flatMap childrenOf

/-- R32 (a): the listed records are the root and the children, each once: the root is the child of no node and every other id of
exactly one; and every listed record is reachable from the root. -/
abbrev ownedOnce (u : TreeUnit) : Prop :=
  (u.node.map (fun e => e.1)).Perm (u.root.toNat :: childIds u.node) ∧
    ∀ e ∈ u.node, ∃ path, follow u.node u.root path = some (BitVec.ofNat 9 e.1)

/-- The tree of R32 as a whole, between commands: no root means nothing was built; a root is that of a tree with (a) exclusive
ownership, (d) exactly the used symbols as leaves and one merge less than there are of them (R124 (b)), and (e) the table's sum at the
root. The clauses about single records, R32 (b) and (c), are `arenaOk`'s. -/
structure TreeShape (u : TreeUnit) : Prop where
  noRoot    : u.root = Config.noneId → noTree u
  owned     : u.root ≠ Config.noneId → ownedOnce u
  leaves    : u.root ≠ Config.noneId → (leafIds u.node).Perm (usedSymbols u)
  rootFreq  : u.root ≠ Config.noneId → (tableFind u.node u.root.toNat).map (fun r => r.freq.toNat) = some (freqSum u)
  nextInner : u.root ≠ Config.noneId → u.nnext.toNat = 256 + ((usedSymbols u).length - 1)

/-- A node that a merge creating node p can take (spec/42_tree_builder.md R121): the leaf of a used symbol, or an internal node created
before p, that no node created before p has as a child. -/
def mergeable (u : TreeUnit) (p : Nat) (x : NodeId) : Prop :=
  (x.toNat < 256 ∧ freqAt u x.toNat ≠ 0#32 ∨ 256 ≤ x.toNat ∧ x.toNat < p) ∧
    ∀ q r, 256 ≤ q.toNat → q.toNat < p → nodeAt u.node q = .ok r → r.left ≠ x ∧ r.right ≠ x

/-- The leaves under a node, left to right; the first argument bounds the depth. -/
def leavesUnder (node : List (Nat × NodeRec)) : Nat → NodeId → List Nat
  | 0, _ => []
  | depth + 1, n =>
    match tableFind node n.toNat with
    | some r => if r.leaf then [r.sym.toNat] else leavesUnder node depth r.left ++ leavesUnder node depth r.right
    | none => []

/-- The heap invariant of spec/41_priority_structure.md R114: the live slots hold distinct ids, each with a record, and no entry is
`less` than its parent. -/
def heapOk (node : List (Nat × NodeRec)) (heap : List NodeId) : Prop :=
  heap.Nodup ∧ (∀ n ∈ heap, ∃ r, nodeAt node n = .ok r) ∧
    ∀ i x p, 1 ≤ i → heap[i]? = some x → heap[(i - 1) / 2]? = some p → less node x p = .ok false

/-! ### The invariant of the machine -/

/-- The encoder between commands: `ERR` and FAULT agree (R26), the frequencies sum to the total (R28), the tree part is sound and a
tree has the shape of R32, no tree before `TBUILD` and no code before `CDERIVE` (R51), every code bit below `CLEN` holds a value (R48),
the bits of `WB_ACC` below the pending ones are 0 (R35), and bits are pending only in BODY or after a fault in it. -/
structure EncInv (e : Encoder) : Prop where
  errPhase   : e.err = .noFault ↔ e.phase ≠ .fault
  sumTotal   : freqSum e.tree = e.total.toNat
  tree       : treeOk e.tree
  shape      : TreeShape e.tree
  countPhase : e.phase = .count → noTree e.tree
  noCodes    : e.phase = .count ∨ e.phase = .tree → e.clen = []
  clenForm   : tableWfD 0#9 256 e.clen = true
  cbitsForm  : tableWfD [] 256 e.cbits = true
  codeBits   : ∀ s < 256, (clenAt e s).toNat ≤ (cbitsAt e s).length ∧ (cbitsAt e s).length ≤ 256
  lowBits    : e.wbAcc <<< e.wbCnt.toNat = 0#8
  pending    : e.phase ≠ .body ∧ e.phase ≠ .fault → e.wbCnt = 0#3

/-- The cursor in state `Decoding` (R40, R176): on the root when the root is a leaf, else on an internal node. -/
def cursorOk (d : Decoder) : Bool :=
  match tableFind d.tree.node d.tree.root.toNat with
  | none => false
  | some r =>
    if r.leaf then decide (d.cur = d.tree.root)
    else
      match tableFind d.tree.node d.cur.toNat with
      | none => false
      | some c => !c.leaf

/-- The decoder between commands: `ERR` and FAULT agree (R37), the tree part is sound and a tree has the shape of R32, no tree before
`DTREE`, the header count fits
the state (R38), the reader is empty (R42), the decoded count stays within the total (R41, R177) and reaches it in `Done`, and in
`Decoding` there is a tree and the cursor stands on a node of it reachable from the root (R40). -/
structure DecInv (d : Decoder) : Prop where
  errState  : d.err = .noFault ↔ d.state ≠ .fault
  tree      : treeOk d.tree
  shape     : TreeShape d.tree
  noTreeYet : d.state = .awaitHeader ∨ d.state = .awaitTree → noTree d.tree ∧ d.dcnt = 0#32 ∧ d.cur = Config.noneId
  hcntRange : d.hcnt.toNat ≤ 1028
  hcntHead  : d.state = .awaitHeader → d.hcnt.toNat < 1028
  hcntFull  : d.state ≠ .awaitHeader ∧ d.state ≠ .fault → d.hcnt.toNat = 1028
  reader    : d.brCnt = 0#4
  dcntRange : d.dcnt.toNat ≤ d.total.toNat
  dcntDone  : d.state = .done → d.dcnt = d.total
  decoding  : d.state = .decoding → d.dcnt.toNat < d.total.toNat ∧ cursorOk d = true ∧
    ∃ path, follow d.tree.node d.tree.root path = some d.cur

/-- The host has taken at most what was emitted (R50). -/
abbrev takenOk (s : State) : Prop :=
  s.eoutTaken ≤ s.eout.length ∧ s.doutTaken ≤ s.dout.length ∧ s.rspTaken ≤ s.rsp.length

/-- The invariant of every reachable state. -/
structure State.Inv (s : State) : Prop where
  enc   : EncInv s.enc
  dec   : DecInv s.dec
  taken : takenOk s

/-! ### Words for the statements -/

/-- The command addresses the encoder: `op[7:4]` is 1 (spec/30_encoding.md R80). -/
def forEncoder (i : Instr) : Bool := decide ((opcodeOf i).toNat / 16 = 1)

/-- The six commands that are legal in every phase and state (spec/30_encoding.md R89 step 2). -/
def isSystem (i : Instr) : Bool :=
  decide ((opcodeOf i).toNat ∈ [0x10, 0x18, 0x19, 0x20, 0x28, 0x29])

/-- The reserved words (spec/30_encoding.md R88): `op` is not one of the sixteen of R82, or the operand condition of its row is
broken. -/
def reservedWord (w : CmdWord) : Bool :=
  decide (w.toNat / 256 ∉ [0x10, 0x11, 0x12, 0x13, 0x14, 0x15, 0x16, 0x17, 0x18, 0x19, 0x20, 0x21, 0x22, 0x23, 0x28, 0x29]) ||
  decide (w.toNat / 256 ∈ [0x10, 0x12, 0x13, 0x14, 0x17, 0x20, 0x22, 0x23] ∧ w.toNat % 256 ≠ 0) ||
  decide (w.toNat / 256 = 0x16 ∧ 1 < w.toNat % 256) ||
  decide (w.toNat / 256 = 0x19 ∧ 3 < w.toNat % 256) ||
  decide (w.toNat / 256 = 0x29 ∧ 6 < w.toNat % 256)

/-- Four bytes read as a header field, least significant byte first (spec/20_memory.md R62); missing bytes count as 0. -/
def fieldAt (bs : List Byte) (offset : Nat) : Nat :=
  (bs.getD offset 0#8).toNat + 256 * (bs.getD (offset + 1) 0#8).toNat + 65536 * (bs.getD (offset + 2) 0#8).toNat +
    16777216 * (bs.getD (offset + 3) 0#8).toNat

/-- A function of the state, carried through an outcome. -/
def overNext (f : State → State) : Out → Out
  | .next s => .next (f s)
  | .fault r => .fault r
  | .refused r => .refused r

/-- The bits of a byte, most significant first (spec/45_bit_reader.md R152). -/
def bitsOf (v : Byte) : List Bool :=
  [v.getLsbD 7, v.getLsbD 6, v.getLsbD 5, v.getLsbD 4, v.getLsbD 3, v.getLsbD 2, v.getLsbD 1, v.getLsbD 0]

/-- `BR_NEXT` as often as the first argument says: the bits in the order taken. -/
def takeBits : Nat → Decoder → Except Fault (List Bool × Decoder)
  | 0, d => .ok ([], d)
  | k + 1, d =>
    match brNext d with
    | .ok (b, d') =>
      match takeBits k d' with
      | .ok (bs, d'') => .ok (b :: bs, d'')
      | .error f => .error f
    | .error f => .error f

/-- `DSTEP` of each bit in order. -/
def dstepAll : List Bool → State → Except Fault State
  | [], s => .ok s
  | b :: bs, s =>
    match dstep b s with
    | .ok s' => dstepAll bs s'
    | .error f => .error f

/-- `DSTEP` of each bit in order as long as the state is `Decoding` (spec/47_container_decode.md R174, R177). -/
def dstepWhile : List Bool → State → Except Fault State
  | [], s => .ok s
  | b :: bs, s =>
    if s.dec.state = .decoding then
      match dstep b s with
      | .ok s' => dstepWhile bs s'
      | .error f => .error f
    else .ok s

/-- `DBYTE` in `AwaitHeader` for each byte in order. -/
def headerBytesIn : List Byte → State → Except Fault State
  | [], s => .ok s
  | v :: vs, s =>
    match headerByteRule v s with
    | .ok s' => headerBytesIn vs s'
    | .error f => .error f

/-- The codes of a message, one after the other (spec/46_container_encode.md R164). -/
def codesOf (e : Encoder) : List Byte → Except Fault (List Bool)
  | [] => .ok []
  | c :: cs =>
    match codeOf e c.toNat, codesOf e cs with
    | .ok bits, .ok rest => .ok (bits ++ rest)
    | .error f, _ => .error f
    | _, .error f => .error f

end Sys2Proof.Machine
end

