-- ==== Sys2Proof/Certificates/Slice0/Obligations.lean ====
section
/-! DEFINITION. The statements for the provers, from the numbered rules of spec/. Each docstring names the rule it formalises. A
next state is written as the old state with the named elements changed, so that every other element is stated unchanged. -/

open Sys2Proof Sys2Proof.Machine

/-! ### Encoding (spec/30_encoding.md) -/

/-- R82, R94: the word of every well-formed command decodes to it, with every operand. -/
def Obligations.DecodeEncodeRoundTrip : Prop :=
  ∀ i : Instr, i.WellFormed → decode (encode i) = .ok i

/-- R82, R88: a word that decodes is the word of the command it decodes to, which meets its row's operand condition. -/
def Obligations.DecodedWordIsItsEncoding : Prop :=
  ∀ (w : CmdWord) (i : Instr), decode w = .ok i → i.WellFormed ∧ encode i = w

/-- R88, R92: the illegal words are exactly the reserved ones of R88. -/
def Obligations.IllegalWordsAreTheReservedOnes : Prop :=
  ∀ w : CmdWord, (∃ r, decode w = .error r) ↔ reservedWord w = true

/-- R82, spec/95_test_vectors.md X3: words written out from the encoding table decode to the commands they stand for. -/
def Obligations.SpecWordsDecode : Prop :=
  decode 0x1000#16 = .ok .ereset ∧ decode 0x1161#16 = .ok (.facc 0x61#8) ∧ decode 0x15FF#16 = .ok (.esym 0xFF#8) ∧
  decode 0x1601#16 = .ok (.wbit 1#8) ∧ decode 0x1903#16 = .ok (.erdr 3#8) ∧ decode 0x21E0#16 = .ok (.dbyte 0xE0#8) ∧
  decode 0x2200#16 = .ok .dtree ∧ decode 0x2906#16 = .ok (.drdr 6#8) ∧ decode 0x2907#16 = .error (.reservedRegister 7#8) ∧
  decode 0x1602#16 = .error (.bitOperand 2#8) ∧ decode 0x0000#16 = .error (.unassignedOp 0#8)

/-- spec/10_state.md R31: the 67 bits of a node record hold `FREQ` in [66:27], `LEFT` in [26:18], `RIGHT` in [17:9], `LEAF` in [8]
and `SYM` in [7:0], packed and read back, and nothing else. -/
def Obligations.NodeRecordLayout : Prop :=
  (∀ r : NodeRec,
    (packNode r).extractLsb' 27 40 = r.freq ∧ (packNode r).extractLsb' 18 9 = r.left ∧ (packNode r).extractLsb' 9 9 = r.right ∧
    (packNode r).getLsbD 8 = r.leaf ∧ (packNode r).extractLsb' 0 8 = r.sym) ∧
  (∀ v : BitVec 67,
    (unpackNode v).freq = v.extractLsb' 27 40 ∧ (unpackNode v).left = v.extractLsb' 18 9 ∧ (unpackNode v).right = v.extractLsb' 9 9 ∧
    (unpackNode v).leaf = v.getLsbD 8 ∧ (unpackNode v).sym = v.extractLsb' 0 8) ∧
  (∀ r : NodeRec, unpackNode (packNode r) = r) ∧ (∀ v : BitVec 67, packNode (unpackNode v) = v)

/-! ### One step (spec/10_state.md R22, R49, R50; spec/30_encoding.md R89) -/

/-- R22, R89: when the next word decodes to a command, the step is that command's `exec`, on the state with the word taken and the
program index advanced by 1. -/
def Obligations.StepRunsDecodedCommand : Prop :=
  ∀ (s : State) (w : CmdWord) (rest : List HostInput) (i : Instr),
    s.hostIn = .word w :: rest → decode w = .ok i →
      step s = exec i { s with pc := s.pc + 1, hostIn := rest }

/-- R88, R207: an illegal word sets `ILL` and changes nothing else; the word is taken and the program index advances by 1. -/
def Obligations.IllegalWordSetsOnlyIll : Prop :=
  ∀ (s : State) (w : CmdWord) (rest : List HostInput) (r : IllegalWord),
    s.hostIn = .word w :: rest → decode w = .error r →
      step s = .next { s with ill := true, pc := s.pc + 1, hostIn := rest }

/-- spec/60_exceptions.md R220: with nothing to do the block waits with all its state kept. -/
def Obligations.WaitsWithStateKept : Prop :=
  ∀ s : State, s.hostIn = [] → step s = .next s

/-- spec/70_reset_and_hazards.md R230, spec/10_state.md R51: hardware reset gives every element its reset value, whatever it held;
what the host has still to present stays (log entry 1). -/
def Obligations.HardwareResetStep : Prop :=
  ∀ (s : State) (rest : List HostInput), s.hostIn = .rst :: rest →
    step s = .next { State.reset with hostIn := rest }

/-- R49, R50: the host takes the next element of an output channel when there is one; nothing else changes (the output queues are log
entry 2). -/
def Obligations.HostTakesNextOutput : Prop :=
  ∀ (s : State) (rest : List HostInput),
    (s.hostIn = .takeEout :: rest →
      step s = .next { s with hostIn := rest, eoutTaken := if (eoutPort s).isSome then s.eoutTaken + 1 else s.eoutTaken }) ∧
    (s.hostIn = .takeDout :: rest →
      step s = .next { s with hostIn := rest, doutTaken := if (doutPort s).isSome then s.doutTaken + 1 else s.doutTaken }) ∧
    (s.hostIn = .takeRsp :: rest →
      step s = .next { s with hostIn := rest, rspTaken := if (rspPort s).isSome then s.rspTaken + 1 else s.rspTaken })

/-- R22: every command word advances the program index by exactly 1, whatever it does, and no other input is consumed with it. -/
def Obligations.ProgramIndexAdvancesByOne : Prop :=
  ∀ (s t : State) (w : CmdWord) (rest : List HostInput),
    s.hostIn = .word w :: rest → step s = .next t → t.pc = s.pc + 1 ∧ t.hostIn = rest

/-- R24: the three streams only grow: no command removes or changes an element. -/
def Obligations.StreamsOnlyGrow : Prop :=
  ∀ (i : Instr) (s t : State), exec i s = .next t →
    (∃ a, t.eout = s.eout ++ a) ∧ (∃ b, t.dout = s.dout ++ b) ∧ (∃ c, t.rsp = s.rsp ++ c)

/-- R24, R88: unless the input is hardware reset, `ILL` is 1 after a step exactly when it was 1 before or the word was illegal. -/
def Obligations.IllSetByIllegalWordsOnly : Prop :=
  ∀ s t : State, s.hostIn.head? ≠ some .rst → step s = .next t →
    (t.ill = true ↔ s.ill = true ∨ ∃ w rest r, s.hostIn = .word w :: rest ∧ decode w = .error r)

/-- R49, spec/60_exceptions.md R213: the `fault` pin. -/
def Obligations.FaultPinIsItsThreeCauses : Prop :=
  ∀ s : State, faultPin s = true ↔ s.ill = true ∨ s.enc.phase = .fault ∨ s.dec.state = .fault

/-! ### Units, phases and states (spec/10_state.md R47; spec/30_encoding.md R89 to R91) -/

/-- R47: a command addressed to one unit neither reads nor writes the other unit or its output stream: with any other contents of
those it does the same and leaves them. -/
def Obligations.UnitsAreIndependent : Prop :=
  (∀ (i : Instr) (s : State) (d : Decoder) (o : List Byte), forEncoder i = true →
    exec i { s with dec := d, dout := o } = overNext (fun t => { t with dec := d, dout := o }) (exec i s)) ∧
  (∀ (i : Instr) (s : State) (e : Encoder) (o : List Byte), forEncoder i = false →
    exec i { s with enc := e, eout := o } = overNext (fun t => { t with enc := e, eout := o }) (exec i s))

/-- R89 step 3, spec/60_exceptions.md R211: a faulted unit ignores every command but its reset and its reads. -/
def Obligations.FaultedUnitIgnoresCommands : Prop :=
  ∀ (i : Instr) (s : State), i.WellFormed → isSystem i = false →
    (forEncoder i = true → s.enc.phase = .fault → exec i s = .next s) ∧
    (forEncoder i = false → s.dec.state = .fault → exec i s = .next s)

/-- spec/60_exceptions.md R201, R206: a command of a unit in a phase or state where its cell is S latches code 1 and FAULT, and
changes nothing else. -/
def Obligations.SeqErrorOutOfPhase : Prop :=
  errBits .seqError = 1#4 ∧
  (∀ s : State, s.enc.phase ≠ .fault →
    (s.enc.phase ≠ .count →
      (∀ c, exec (.facc c) s = .next { s with enc := { s.enc with err := .seqError, phase := .fault } }) ∧
      exec .tbuild s = .next { s with enc := { s.enc with err := .seqError, phase := .fault } }) ∧
    (s.enc.phase ≠ .tree → exec .cderive s = .next { s with enc := { s.enc with err := .seqError, phase := .fault } }) ∧
    (s.enc.phase ≠ .codes → exec .whdr s = .next { s with enc := { s.enc with err := .seqError, phase := .fault } }) ∧
    (s.enc.phase ≠ .body →
      (∀ c, exec (.esym c) s = .next { s with enc := { s.enc with err := .seqError, phase := .fault } }) ∧
      (∀ b, (Instr.wbit b).WellFormed →
        exec (.wbit b) s = .next { s with enc := { s.enc with err := .seqError, phase := .fault } }) ∧
      exec .flush s = .next { s with enc := { s.enc with err := .seqError, phase := .fault } })) ∧
  (∀ s : State,
    (s.dec.state = .awaitTree →
      (∀ v, exec (.dbyte v) s = .next { s with dec := { s.dec with err := .seqError, state := .fault } }) ∧
      exec .dend s = .next { s with dec := { s.dec with err := .seqError, state := .fault } }) ∧
    (s.dec.state ≠ .awaitTree → s.dec.state ≠ .fault →
      exec .dtree s = .next { s with dec := { s.dec with err := .seqError, state := .fault } }))

/-- R90: the phase after an encoder command is the old one, FAULT, or the one its row shows. -/
def Obligations.EncoderPhaseTransitions : Prop :=
  ∀ (i : Instr) (s t : State), exec i s = .next t →
    t.enc.phase = s.enc.phase ∨ (t.enc.phase = .fault ∧ forEncoder i = true ∧ isSystem i = false) ∨
    (i = .ereset ∧ t.enc.phase = .count) ∨
    (i = .tbuild ∧ s.enc.phase = .count ∧ t.enc.phase = .tree) ∨
    (i = .cderive ∧ s.enc.phase = .tree ∧ t.enc.phase = .codes) ∨
    (i = .whdr ∧ s.enc.phase = .codes ∧ t.enc.phase = .body) ∨
    (i = .flush ∧ s.enc.phase = .body ∧ t.enc.phase = .done)

/-- R91: the state after a decoder command is the old one, FAULT, or one its row shows. -/
def Obligations.DecoderStateTransitions : Prop :=
  ∀ (i : Instr) (s t : State), exec i s = .next t →
    t.dec.state = s.dec.state ∨ (t.dec.state = .fault ∧ forEncoder i = false ∧ isSystem i = false) ∨
    (i = .dreset ∧ t.dec.state = .awaitHeader) ∨
    (∃ v, i = .dbyte v ∧ s.dec.state = .awaitHeader ∧ s.dec.hcnt = 1027#11 ∧ t.dec.state = .awaitTree) ∨
    (i = .dtree ∧ s.dec.state = .awaitTree ∧ s.dec.total ≠ 0#32 ∧ t.dec.state = .decoding) ∨
    (i = .dtree ∧ s.dec.state = .awaitTree ∧ s.dec.total = 0#32 ∧ t.dec.state = .done) ∨
    (∃ v, i = .dbyte v ∧ s.dec.state = .decoding ∧ t.dec.dcnt = s.dec.total ∧ t.dec.state = .done)

/-- spec/60_exceptions.md R211, R212: only its unit reset or hardware reset changes anything of a faulted unit. -/
def Obligations.FaultedUnitKeepsItsState : Prop :=
  ∀ s t : State, s.hostIn.head? ≠ some .rst → step s = .next t →
    (s.enc.phase = .fault → s.hostIn.head? ≠ some (.word 0x1000#16) → t.enc = s.enc) ∧
    (s.dec.state = .fault → s.hostIn.head? ≠ some (.word 0x2000#16) → t.dec = s.dec)

/-! ### Reset and system commands (spec/10_state.md R51; spec/48_system_commands.md) -/

/-- R51, R230: the hardware-reset column, element by element (the three queues are empty by R230, log entry 2; the program index is 0
by R22; `hostIn` is the model's own field, log entry 1, and is not spoken of). -/
def Obligations.ResetValues : Prop :=
  State.reset.ill = false ∧ State.reset.eout = [] ∧ State.reset.dout = [] ∧ State.reset.rsp = [] ∧
  phaseCode State.reset.enc.phase = 0#3 ∧ errBits State.reset.enc.err = 0#4 ∧ State.reset.enc.total = 0#32 ∧
  (∀ k, freqAt State.reset.enc.tree k = 0#32) ∧ State.reset.enc.tree.hsize = 0#9 ∧ State.reset.enc.tree.nnext = 256#9 ∧
  State.reset.enc.tree.root = 0x1FF#9 ∧ (∀ k, clenAt State.reset.enc k = 0#9) ∧
  State.reset.enc.wbAcc = 0#8 ∧ State.reset.enc.wbCnt = 0#3 ∧
  (∀ n, ∃ f, nodeAt State.reset.enc.tree.node n = .error f) ∧ (∀ k, cbitsAt State.reset.enc k = []) ∧
  dstateCode State.reset.dec.state = 0#3 ∧ errBits State.reset.dec.err = 0#4 ∧ State.reset.dec.hcnt = 0#11 ∧
  State.reset.dec.total = 0#32 ∧ (∀ k, freqAt State.reset.dec.tree k = 0#32) ∧ State.reset.dec.tree.hsize = 0#9 ∧
  State.reset.dec.tree.nnext = 256#9 ∧ State.reset.dec.tree.root = 0x1FF#9 ∧
  (∀ n, ∃ f, nodeAt State.reset.dec.tree.node n = .error f) ∧ State.reset.dec.cur = 0x1FF#9 ∧ State.reset.dec.dcnt = 0#32 ∧
  State.reset.dec.brByte = 0#8 ∧ State.reset.dec.brCnt = 0#4 ∧
  eoutPort State.reset = none ∧ doutPort State.reset = none ∧ rspPort State.reset = none ∧ State.reset.pc = 0

/-- R190, R191, R51: a unit reset, in every phase and state, gives its unit the values of reset and changes nothing else. -/
def Obligations.UnitResetsReset : Prop :=
  ∀ s : State,
    exec .ereset s = .next { s with enc := State.reset.enc } ∧ exec .dreset s = .next { s with dec := State.reset.dec }

/-- R194, R193: `ERDF s`, in every phase, appends `E.FREQ[s]` to `RSP` and changes nothing else. -/
def Obligations.ErdfAnswersFrequency : Prop :=
  ∀ (c : Byte) (s : State), exec (.erdf c) s = .next { s with rsp := s.rsp ++ [freqAt s.enc.tree c.toNat] }

/-- R196, R193: `DRDF s`, in every state, appends `D.FREQ[s]` to `RSP` and changes nothing else. -/
def Obligations.DrdfAnswersFrequency : Prop :=
  ∀ (c : Byte) (s : State), exec (.drdf c) s = .next { s with rsp := s.rsp ++ [freqAt s.dec.tree c.toNat] }

/-- R195, R44: `ERDR n` appends encoder register n, field by field as R44 lists them (fields not listed read 0), and changes nothing
else; a reserved number sets `ILL` and returns no word. -/
def Obligations.ErdrAnswersRegister : Prop :=
  ∀ s : State,
    (∃ v : Word32, exec (.erdr 0#8) s = .next { s with rsp := s.rsp ++ [v] } ∧
      v.extractLsb' 0 3 = phaseCode s.enc.phase ∧ v.getLsbD 3 = false ∧ v.extractLsb' 4 4 = errBits s.enc.err ∧
      v.getLsbD 8 = s.ill ∧ v.extractLsb' 9 23 = 0#23) ∧
    exec (.erdr 1#8) s = .next { s with rsp := s.rsp ++ [s.enc.total] } ∧
    (∃ v : Word32, exec (.erdr 2#8) s = .next { s with rsp := s.rsp ++ [v] } ∧
      v.extractLsb' 0 9 = s.enc.tree.root ∧ v.extractLsb' 9 7 = 0#7 ∧ v.extractLsb' 16 9 = s.enc.tree.nnext ∧
      v.extractLsb' 25 7 = 0#7) ∧
    (∃ v : Word32, exec (.erdr 3#8) s = .next { s with rsp := s.rsp ++ [v] } ∧
      v.extractLsb' 0 8 = s.enc.wbAcc ∧ v.extractLsb' 8 3 = s.enc.wbCnt ∧ v.extractLsb' 11 21 = 0#21) ∧
    (∀ n : Byte, 3 < n.toNat → exec (.erdr n) s = .next { s with ill := true })

/-- R197, R45: `DRDR n` appends decoder register n, field by field as R45 lists them (fields not listed read 0), and changes nothing
else; a reserved number sets `ILL` and returns no word. -/
def Obligations.DrdrAnswersRegister : Prop :=
  ∀ s : State,
    (∃ v : Word32, exec (.drdr 0#8) s = .next { s with rsp := s.rsp ++ [v] } ∧
      v.extractLsb' 0 3 = dstateCode s.dec.state ∧ v.getLsbD 3 = false ∧ v.extractLsb' 4 4 = errBits s.dec.err ∧
      v.getLsbD 8 = s.ill ∧ v.extractLsb' 9 23 = 0#23) ∧
    exec (.drdr 1#8) s = .next { s with rsp := s.rsp ++ [s.dec.total] } ∧
    (∃ v : Word32, exec (.drdr 2#8) s = .next { s with rsp := s.rsp ++ [v] } ∧
      v.extractLsb' 0 9 = s.dec.tree.root ∧ v.extractLsb' 9 7 = 0#7 ∧ v.extractLsb' 16 9 = s.dec.tree.nnext ∧
      v.extractLsb' 25 7 = 0#7) ∧
    (∃ v : Word32, exec (.drdr 3#8) s = .next { s with rsp := s.rsp ++ [v] } ∧
      v.extractLsb' 0 8 = s.dec.brByte ∧ v.extractLsb' 8 4 = s.dec.brCnt ∧ v.extractLsb' 12 20 = 0#20) ∧
    exec (.drdr 4#8) s = .next { s with rsp := s.rsp ++ [s.dec.dcnt] } ∧
    (∃ v : Word32, exec (.drdr 5#8) s = .next { s with rsp := s.rsp ++ [v] } ∧
      v.extractLsb' 0 11 = s.dec.hcnt ∧ v.extractLsb' 11 21 = 0#21) ∧
    (∃ v : Word32, exec (.drdr 6#8) s = .next { s with rsp := s.rsp ++ [v] } ∧
      v.extractLsb' 0 9 = s.dec.cur ∧ v.extractLsb' 9 23 = 0#23) ∧
    (∀ n : Byte, 6 < n.toNat → exec (.drdr n) s = .next { s with ill := true })

/-! ### Frequency accumulator (spec/40_frequency_accumulator.md) -/

/-- R101: `FACC s` by phase. Where it counts, `E.FREQ[s]` and `E.TOTAL` go up by exactly 1 and no other entry or element changes. The
premise, an entry never above the total, follows from the invariant of R28 (StepKeepsInvariant). -/
def Obligations.FaccCountsOneSymbol : Prop :=
  ∀ (c : Byte) (s : State), (freqAt s.enc.tree c.toNat).toNat ≤ s.enc.total.toNat →
    (s.enc.phase = .fault → exec (.facc c) s = .next s) ∧
    (s.enc.phase ≠ .fault → s.enc.phase ≠ .count →
      exec (.facc c) s = .next { s with enc := { s.enc with err := .seqError, phase := .fault } }) ∧
    (s.enc.phase = .count → s.enc.total = 0xFFFFFFFF#32 →
      exec (.facc c) s = .next { s with enc := { s.enc with err := .countOverflow, phase := .fault } }) ∧
    (s.enc.phase = .count → s.enc.total ≠ 0xFFFFFFFF#32 →
      ∃ u : TreeUnit,
        exec (.facc c) s = .next { s with enc := { s.enc with total := s.enc.total + 1#32, tree := u } } ∧
        (s.enc.total + 1#32).toNat = s.enc.total.toNat + 1 ∧
        (freqAt u c.toNat).toNat = (freqAt s.enc.tree c.toNat).toNat + 1 ∧
        (∀ k, k ≠ c.toNat → freqAt u k = freqAt s.enc.tree k) ∧
        u = { s.enc.tree with freq := u.freq })

/-! ### Priority structure (spec/41_priority_structure.md) -/

/-- R111: the order on (frequency, id) is the one given there, and it is a strict total order on distinct ids; `less(U, a, b)` is that
order on the records of a and b, in this order, and answers whenever both are recorded. -/
def Obligations.KeyOrderIsStrictAndTotal : Prop :=
  (∀ fa a fb b, keyLess fa a fb b = true ↔ fa.toNat < fb.toNat ∨ (fa.toNat = fb.toNat ∧ a.toNat < b.toNat)) ∧
  (∀ fa a, keyLess fa a fa a = false) ∧
  (∀ fa a fb b fc c, keyLess fa a fb b = true → keyLess fb b fc c = true → keyLess fa a fc c = true) ∧
  (∀ fa a fb b, a ≠ b → keyLess fa a fb b = true ∨ keyLess fb b fa a = true) ∧
  (∀ node a b ra rb, nodeAt node a = .ok ra → nodeAt node b = .ok rb →
    less node a b = .ok (keyLess ra.freq a rb.freq b) ∧
    (less node a b = .ok true ↔
      ra.freq.toNat < rb.freq.toNat ∨ (ra.freq.toNat = rb.freq.toNat ∧ a.toNat < b.toNat)))

/-- R112, R114: `PQ_INSERT` of a recorded id not in the heap, with at most 255 entries, keeps the heap invariant and leaves the heap
holding the old ids and the new one. -/
def Obligations.PqInsertAddsItsId : Prop :=
  ∀ (node : List (Nat × NodeRec)) (heap : List NodeId) (n : NodeId),
    heapOk node heap → heap.length ≤ 255 → (∃ r, nodeAt node n = .ok r) → n ∉ heap →
      ∃ h, pqInsert node heap n = .ok h ∧ heapOk node h ∧ h.Perm (n :: heap)

/-- R113, R114: `PQ_EXTRACT_MIN` on a heap that is not empty returns the one id that is `less` than every other, keeps the heap
invariant and leaves the heap holding exactly the other ids. -/
def Obligations.PqExtractMinTakesTheLeast : Prop :=
  ∀ (node : List (Nat × NodeRec)) (heap : List NodeId), heapOk node heap → heap ≠ [] →
    ∃ m h, pqExtractMin node heap = .ok (m, h) ∧ heapOk node h ∧ heap.Perm (m :: h) ∧
      ∀ x ∈ h, less node m x = .ok true

/-! ### Tree builder (spec/42_tree_builder.md) -/

/-- R124, R121: `TREE_BUILD` of any table succeeds, whatever the unit held. With d used symbols it leaves no tree (d = 0), or a tree
whose leaves are exactly the used symbols, each once, with d − 1 merges, depth at most d − 1 and the table's sum at the root; the
heap is empty and the table unchanged. -/
def Obligations.TreeBuildMakesTheTree : Prop :=
  ∀ u : TreeUnit, ∃ t : TreeUnit, treeBuild u = .ok t ∧ t.freq = u.freq ∧ t.heap = [] ∧
    (usedSymbols u = [] → t.root = Config.noneId ∧ t.nnext = 256#9) ∧
    (usedSymbols u ≠ [] →
      t.root ≠ Config.noneId ∧
      t.nnext.toNat = 256 + ((usedSymbols u).length - 1) ∧
      (leavesUnder t.node 511 t.root).Perm (usedSymbols u) ∧
      (∃ r, nodeAt t.node t.root = .ok r ∧ r.freq.toNat = freqSum u) ∧
      (∀ path n, follow t.node t.root path = some n → path.length ≤ (usedSymbols u).length - 1))

/-- R121, R124 (c), (d): what the merges of `TREE_BUILD` take and on which side. Every used symbol has its leaf's record. Every internal
node p, the ids 256 to `NNEXT` − 1 being in the order of creation, has as its left child the least and as its right child the next, by
`less`, of all nodes no earlier merge took; its frequency is the exact sum of theirs, `LEAF` is 0 and `SYM` is 0. -/
def Obligations.TreeBuildMergesTheTwoLeast : Prop :=
  ∀ u t : TreeUnit, treeBuild u = .ok t →
    (∀ c < 256, freqAt u c ≠ 0#32 →
      nodeAt t.node (BitVec.ofNat 9 c) = .ok { freq := (freqAt u c).setWidth 40, left := Config.noneId, right := Config.noneId,
                                               leaf := true, sym := BitVec.ofNat 8 c }) ∧
    (∀ p : NodeId, 256 ≤ p.toNat → p.toNat < t.nnext.toNat →
      ∃ r ra rb, nodeAt t.node p = .ok r ∧ nodeAt t.node r.left = .ok ra ∧ nodeAt t.node r.right = .ok rb ∧
        mergeable t p.toNat r.left ∧ mergeable t p.toNat r.right ∧ less t.node r.left r.right = .ok true ∧
        (∀ x, mergeable t p.toNat x → x ≠ r.left → x ≠ r.right → less t.node r.right x = .ok true) ∧
        r.freq.toNat = ra.freq.toNat + rb.freq.toNat ∧ r.leaf = false ∧ r.sym = 0#8)

/-- R122: with one used symbol the root is its leaf, no merge is made and `NNEXT` stays 256. -/
def Obligations.TreeBuildOneSymbol : Prop :=
  ∀ (u : TreeUnit) (c : Nat), usedSymbols u = [c] →
    ∃ t : TreeUnit, treeBuild u = .ok t ∧ t.root = BitVec.ofNat 9 c ∧ t.nnext = 256#9 ∧
      nodeAt t.node t.root = .ok { freq := (freqAt u c).setWidth 40, left := Config.noneId, right := Config.noneId,
                                   leaf := true, sym := BitVec.ofNat 8 c }

/-- R123: on an all-zero table `TREE_BUILD` sets `ROOT` to `NONE`, `NNEXT` to 256 and `HSIZE` to 0, writes no record and raises
nothing. -/
def Obligations.TreeBuildNoSymbol : Prop :=
  ∀ u : TreeUnit, (∀ k < 256, freqAt u k = 0#32) →
    treeBuild u = .ok { u with heap := [], nnext := 256#9, root := Config.noneId }

/-- R126: two units with equal frequency tables end with equal `ROOT`, equal `NNEXT` and equal records at every id reachable from
`ROOT`, whatever else they held before. -/
def Obligations.TreeBuildIsAFunctionOfTheTable : Prop :=
  ∀ u v a b : TreeUnit, (∀ k < 256, freqAt u k = freqAt v k) → treeBuild u = .ok a → treeBuild v = .ok b →
    a.root = b.root ∧ a.nnext = b.nnext ∧
      ∀ path n, follow a.node a.root path = some n → a.root ≠ Config.noneId → nodeAt a.node n = nodeAt b.node n

/-- R125: `TBUILD` in phase COUNT, with any table, runs `TREE_BUILD(E)` and goes to phase TREE; nothing but the tree part and the phase
changes, and the table stays. -/
def Obligations.TbuildBuildsAndGoesToTree : Prop :=
  ∀ s : State, s.enc.phase = .count →
    ∃ u : TreeUnit, treeBuild s.enc.tree = .ok u ∧ u.freq = s.enc.tree.freq ∧
      exec .tbuild s = .next { s with enc := { s.enc with tree := u, phase := .tree } }

/-! ### Code table deriver (spec/43_code_table_deriver.md) -/

/-- R133: `CDERIVE` in phase TREE runs `CODE_DERIVE(E)` and goes to phase CODES; only the code table and the phase change. The premise
is the invariant's clause about the tree part (StepKeepsInvariant). -/
def Obligations.CderiveDerivesAndGoesToCodes : Prop :=
  ∀ s : State, s.enc.phase = .tree → treeOk s.enc.tree →
    ∃ e : Encoder, codeDerive s.enc = .ok e ∧
      exec .cderive s = .next { s with enc := { s.enc with clen := e.clen, cbits := e.cbits, phase := .codes } }

/-- R131, R132, R135: after `CODE_DERIVE` a symbol's code is `"0"` when the root is its leaf, and otherwise the sequence of child
choices on the path from the root to its leaf. -/
def Obligations.CodeIsThePathToTheLeaf : Prop :=
  ∀ e e' : Encoder, treeOk e.tree → codeDerive e = .ok e' → ∀ c : Byte, clenAt e' c.toNat ≠ 0#9 →
    ∃ bits root, codeOf e' c.toNat = .ok bits ∧ bits.length = (clenAt e' c.toNat).toNat ∧
      nodeAt e.tree.node e.tree.root = .ok root ∧
      (root.leaf = true → root.sym = c ∧ bits = [false]) ∧
      (root.leaf = false → ∃ n r, follow e.tree.node e.tree.root bits = some n ∧ nodeAt e.tree.node n = .ok r ∧
        r.leaf = true ∧ r.sym = c)

/-- R134: no code of a derived table is a prefix of another symbol's. -/
def Obligations.CodesArePrefixFree : Prop :=
  ∀ e e' : Encoder, treeOk e.tree → codeDerive e = .ok e' →
    ∀ (a b : Byte) (x y : List Bool), a ≠ b → clenAt e' a.toNat ≠ 0#9 → clenAt e' b.toNat ≠ 0#9 →
      codeOf e' a.toNat = .ok x → codeOf e' b.toNat = .ok y → ¬ x <+: y

/-- R135: deriving from the tree of a table gives codes to exactly the symbols of nonzero frequency; with one used symbol the length is
1, with d ≥ 2 it is at most d − 1. -/
def Obligations.CodesForExactlyTheUsedSymbols : Prop :=
  ∀ (e e' : Encoder) (u : TreeUnit), treeBuild e.tree = .ok u → codeDerive { e with tree := u } = .ok e' →
    ∀ c : Byte,
      (clenAt e' c.toNat ≠ 0#9 ↔ freqAt e.tree c.toNat ≠ 0#32) ∧
      ((usedSymbols e.tree).length = 1 → freqAt e.tree c.toNat ≠ 0#32 → clenAt e' c.toNat = 1#9) ∧
      (2 ≤ (usedSymbols e.tree).length → (clenAt e' c.toNat).toNat ≤ (usedSymbols e.tree).length - 1)

/-- R136: with no tree `CODE_DERIVE` sets every length to 0 and writes no code bit. -/
def Obligations.NoTreeGivesNoCodes : Prop :=
  ∀ e : Encoder, e.tree.root = Config.noneId →
    ∃ e' : Encoder, codeDerive e = .ok e' ∧ (∀ k, clenAt e' k = 0#9) ∧ e' = { e with clen := e'.clen }

/-! ### Bit writer (spec/44_bit_writer.md) -/

/-- R145, R141: `WBIT b` in phase BODY puts b below the pending bits; the eighth bit emits the byte and empties the accumulator; nothing
else changes. An operand of 2 or more is an illegal word's: it sets `ILL` only. -/
def Obligations.WbitWritesOneBit : Prop :=
  ∀ (b : Byte) (s : State),
    (1 < b.toNat → exec (.wbit b) s = .next { s with ill := true }) ∧
    (b.toNat ≤ 1 → s.enc.phase = .body →
      ∃ acc : Byte, (∀ k < 8, acc.getLsbD k = (s.enc.wbAcc.getLsbD k || (decide (k = 7 - s.enc.wbCnt.toNat) && b.getLsbD 0))) ∧
        (s.enc.wbCnt = 7#3 →
          exec (.wbit b) s = .next { s with eout := s.eout ++ [acc], enc := { s.enc with wbAcc := 0#8, wbCnt := 0#3 } }) ∧
        (s.enc.wbCnt ≠ 7#3 →
          exec (.wbit b) s = .next { s with enc := { s.enc with wbAcc := acc, wbCnt := s.enc.wbCnt + 1#3 } }))

/-- R146, R142: `FLUSH` in phase BODY emits the accumulator if a bit is pending, empties it and goes to DONE; nothing else changes. -/
def Obligations.FlushEmitsThePartialByte : Prop :=
  ∀ s : State, s.enc.phase = .body →
    exec .flush s = .next { s with
      eout := if s.enc.wbCnt = 0#3 then s.eout else s.eout ++ [s.enc.wbAcc]
      enc := { s.enc with wbAcc := 0#8, wbCnt := 0#3, phase := .done } }

/-- R143: with an empty accumulator, writing the bits b[0..B−1] has emitted floor(B / 8) bytes and left B mod 8 bits pending; flushing
then makes exactly ceil(B / 8) bytes, byte q holding b[8q + r] at bit 7 − r and 0 where there is no such bit. -/
def Obligations.WriterPacksMostSignificantFirst : Prop :=
  ∀ (bits : List Bool) (s : State), s.enc.wbCnt = 0#3 → s.enc.wbAcc = 0#8 →
    (wbWriteAll bits s).eout.length = s.eout.length + bits.length / 8 ∧
    (wbWriteAll bits s).enc.wbCnt.toNat = bits.length % 8 ∧
    ∃ out : List Byte, (wbFlush (wbWriteAll bits s)).eout = s.eout ++ out ∧ out.length = (bits.length + 7) / 8 ∧
      ∀ q r, q < out.length → r < 8 → (out.getD q 0#8).getLsbD (7 - r) = bits.getD (8 * q + r) false

/-! ### Bit reader (spec/45_bit_reader.md) -/

/-- R151, R152: loading a byte and taking eight bits gives them most significant first and leaves the count 0; a further call is a
model-internal fault. -/
def Obligations.ReaderTakesMostSignificantFirst : Prop :=
  ∀ (v : Byte) (d : Decoder),
    takeBits 8 (brLoad v d) = .ok (bitsOf v, { d with brByte := v, brCnt := 0#4 }) ∧
    (d.brCnt = 0#4 → brNext d = .error .readerCount)

/-! ### Container, encode half (spec/46_container_encode.md) -/

/-- R161, spec/20_memory.md R61, R62: `WHDR` in phase CODES emits exactly 1028 bytes, the total at offset 0 and entry s at offset
4 + 4s, each least significant byte first, and goes to BODY; nothing else changes. -/
def Obligations.WhdrEmitsTheHeader : Prop :=
  ∀ s : State, s.enc.phase = .codes →
    ∃ bs : List Byte, bs.length = 1028 ∧
      exec .whdr s = .next { s with eout := s.eout ++ bs, enc := { s.enc with phase := .body } } ∧
      (∀ k < 4, bs[k]? = some (s.enc.total.extractLsb' (8 * k) 8)) ∧
      (∀ c < 256, ∀ k < 4, bs[4 + 4 * c + k]? = some ((freqAt s.enc.tree c).extractLsb' (8 * k) 8))

/-- R167: in any header `WHDR` emits the 256 table fields sum to the total field. -/
def Obligations.HeaderFieldsSumToTotal : Prop :=
  ∀ s : State, EncInv s.enc →
    ((List.range 256).map (fun c => fieldAt (headerBytes s.enc) (4 + 4 * c))).sum = fieldAt (headerBytes s.enc) 0

/-- R163: `ESYM s` in phase BODY raises `NoCode` for a symbol without code, with nothing written; else it writes the code's bits: with c
bits pending and L code bits it emits floor((c + L) / 8) bytes and leaves (c + L) mod 8 bits pending, and changes nothing but the
stream and the bit writer. The premise that the code's bits hold values is the invariant's (R48). -/
def Obligations.EsymWritesTheCode : Prop :=
  ∀ (c : Byte) (s : State), s.enc.phase = .body →
    (clenAt s.enc c.toNat = 0#9 →
      exec (.esym c) s = .next { s with enc := { s.enc with err := .noCode, phase := .fault } }) ∧
    (clenAt s.enc c.toNat ≠ 0#9 → (clenAt s.enc c.toNat).toNat ≤ (cbitsAt s.enc c.toNat).length →
      ∃ t : State, exec (.esym c) s = .next t ∧
        t = wbWriteAll ((cbitsAt s.enc c.toNat).take (clenAt s.enc c.toNat).toNat) s ∧
        t.eout.length = s.eout.length + (s.enc.wbCnt.toNat + (clenAt s.enc c.toNat).toNat) / 8 ∧
        t.enc.wbCnt.toNat = (s.enc.wbCnt.toNat + (clenAt s.enc c.toNat).toNat) % 8 ∧
        t = { s with eout := t.eout, enc := { s.enc with wbAcc := t.enc.wbAcc, wbCnt := t.enc.wbCnt } })

/-! ### Container, decode half (spec/47_container_decode.md) -/

/-- R171: `DBYTE v` in `AwaitHeader` changes only the eight named bits of the total or of one table entry, counts the byte, and goes to
`AwaitTree` with the 1028th; nothing else changes. -/
def Obligations.DbyteAssemblesTheHeader : Prop :=
  ∀ (v : Byte) (s : State), s.dec.state = .awaitHeader → s.dec.hcnt.toNat < 1028 →
    ∃ (total : Word32) (u : TreeUnit),
      exec (.dbyte v) s = .next { s with dec := { s.dec with
        total := total
        tree := u
        hcnt := s.dec.hcnt + 1#11
        state := if s.dec.hcnt.toNat = 1027 then .awaitTree else .awaitHeader } } ∧
      u = { s.dec.tree with freq := u.freq } ∧
      (∀ k < 4, total.extractLsb' (8 * k) 8 =
        if s.dec.hcnt.toNat = k then v else s.dec.total.extractLsb' (8 * k) 8) ∧
      (∀ c < 256, ∀ k < 4, (freqAt u c).extractLsb' (8 * k) 8 =
        if s.dec.hcnt.toNat = 4 + 4 * c + k then v else (freqAt s.dec.tree c).extractLsb' (8 * k) 8)

/-- R161, R171: the header bytes of an encoder, given to a decoder just reset, give it the encoder's total and table and bring it to
`AwaitTree`. -/
def Obligations.HeaderReadsBack : Prop :=
  ∀ (e : Encoder) (s : State), s.dec = State.reset.dec →
    ∃ t : State, headerBytesIn (headerBytes e) s = .ok t ∧ t.dec.state = .awaitTree ∧ t.dec.total = e.total ∧
      ∀ c < 256, freqAt t.dec.tree c = freqAt e.tree c

/-- R172: `DTREE` by state and case. -/
def Obligations.DtreeStartsDecoding : Prop :=
  ∀ s : State,
    (s.dec.state = .fault → exec .dtree s = .next s) ∧
    (s.dec.state ≠ .awaitTree → s.dec.state ≠ .fault →
      exec .dtree s = .next { s with dec := { s.dec with err := .seqError, state := .fault } }) ∧
    (s.dec.state = .awaitTree → s.dec.total = 0#32 → exec .dtree s = .next { s with dec := { s.dec with state := .done } }) ∧
    (s.dec.state = .awaitTree → s.dec.total ≠ 0#32 → (∀ k < 256, freqAt s.dec.tree k = 0#32) →
      exec .dtree s = .next { s with dec := { s.dec with err := .emptyAlphabet, state := .fault } }) ∧
    (s.dec.state = .awaitTree → s.dec.total ≠ 0#32 → (∃ k < 256, freqAt s.dec.tree k ≠ 0#32) →
      ∃ u : TreeUnit, treeBuild s.dec.tree = .ok u ∧
        exec .dtree s = .next { s with dec := { s.dec with tree := u, cur := u.root, dcnt := 0#32, state := .decoding } })

/-- R176: `DSTEP` in `Decoding`. The node reached is the root when the root is a leaf (the bit's value ignored), else the left child on 0
and the right child on 1; a leaf is emitted and counted, the cursor goes back to the root and the state to `Done` when the count is the
total; an internal node becomes the cursor. The premise is the invariant (StepKeepsInvariant). -/
def Obligations.DstepWalksTheTree : Prop :=
  ∀ (bit : Bool) (s : State), DecInv s.dec → s.dec.state = .decoding →
    ∃ root cur r n, nodeAt s.dec.tree.node s.dec.tree.root = .ok root ∧ nodeAt s.dec.tree.node s.dec.cur = .ok cur ∧
      n = (if root.leaf then s.dec.tree.root else if bit then cur.right else cur.left) ∧
      nodeAt s.dec.tree.node n = .ok r ∧
      (r.leaf = true →
        dstep bit s = .ok { s with
          dout := s.dout ++ [r.sym]
          dec := { s.dec with
            dcnt := s.dec.dcnt + 1#32
            cur := s.dec.tree.root
            state := if s.dec.dcnt.toNat + 1 = s.dec.total.toNat then .done else .decoding } }) ∧
      (r.leaf = false → dstep bit s = .ok { s with dec := { s.dec with cur := n } })

/-- R174, R177: `DBYTE v` in `Decoding` is `DSTEP` of the byte's bits, most significant first, until the state is no longer `Decoding`;
the reader then holds v and no bit. -/
def Obligations.DbyteDecodesItsBits : Prop :=
  ∀ (v : Byte) (s : State), s.dec.state = .decoding →
    exec (.dbyte v) s =
      match dstepWhile (bitsOf v) s with
      | .ok t => .next { t with dec := { t.dec with brByte := v, brCnt := 0#4 } }
      | .error f => .fault f

/-- R174, R177: `DBYTE v` in `Decoding` completes: it emits at most 8 symbols, counts each, never goes past the total, is in `Done`
exactly when the total is reached, and changes nothing but the stream, the cursor, the count, the state and the reader. -/
def Obligations.DbyteNeverPassesTheTotal : Prop :=
  ∀ (v : Byte) (s : State), DecInv s.dec → s.dec.state = .decoding →
    ∃ (t : State) (out : List Byte), exec (.dbyte v) s = .next t ∧ t.dout = s.dout ++ out ∧ out.length ≤ 8 ∧
      t.dec.dcnt.toNat = s.dec.dcnt.toNat + out.length ∧ t.dec.dcnt.toNat ≤ t.dec.total.toNat ∧
      t.dec.state = (if t.dec.dcnt = t.dec.total then .done else .decoding) ∧
      t = { s with dout := t.dout, dec := { s.dec with
              cur := t.dec.cur, dcnt := t.dec.dcnt, state := t.dec.state, brByte := v, brCnt := 0#4 } }

/-- R175: `DBYTE v` in `Done` changes nothing. -/
def Obligations.DbyteInDoneIsDiscarded : Prop :=
  ∀ (v : Byte) (s : State), s.dec.state = .done → exec (.dbyte v) s = .next s

/-- R178: `DEND` by state. -/
def Obligations.DendByState : Prop :=
  ∀ s : State,
    (s.dec.state = .awaitHeader ∨ s.dec.state = .decoding →
      exec .dend s = .next { s with dec := { s.dec with err := .truncatedInput, state := .fault } }) ∧
    (s.dec.state = .awaitTree → exec .dend s = .next { s with dec := { s.dec with err := .seqError, state := .fault } }) ∧
    (s.dec.state = .done ∨ s.dec.state = .fault → exec .dend s = .next s)

/-- R131, R176, R180: the codes of a message, derived from a tree, decode on a decoder with the same tree to the message: every symbol
comes out once, in order, and the cursor is back at the root. -/
def Obligations.MessageDecodesBack : Prop :=
  ∀ (e e' : Encoder) (s : State) (msg : List Byte) (bits : List Bool),
    codeDerive e = .ok e' → e.tree = s.dec.tree → DecInv s.dec → s.dec.state = .decoding → s.dec.cur = s.dec.tree.root →
    (∀ c ∈ msg, clenAt e' c.toNat ≠ 0#9) → codesOf e' msg = .ok bits →
    s.dec.dcnt.toNat + msg.length ≤ s.dec.total.toNat →
      ∃ t : State, dstepAll bits s = .ok t ∧ t.dout = s.dout ++ msg ∧ t.dec.cur = t.dec.tree.root ∧
        t.dec.dcnt.toNat = s.dec.dcnt.toNat + msg.length ∧
        t.dec.state = (if t.dec.dcnt = t.dec.total then .done else .decoding)

/-! ### The invariant (spec/10_state.md R26 to R42, R48) -/

/-- The state after reset meets the invariant. -/
def Obligations.ResetMeetsInvariant : Prop := State.reset.Inv

/-- From every state that meets the invariant, every step keeps it: the frequencies sum to the total (R28), `ERR` and FAULT agree (R26,
R37), the heap is empty (R29), the arena holds, where there is a root, exactly one tree: every listed node reachable and owned once
(R32 (a)), sums and two children at every internal node (R32 (b), (c)), exactly the used symbols as leaves (R32 (d)), the table's sum at
the root (R32 (e)); the code bits in use hold values (R48), the bits below the pending ones are 0 (R35), the header count fits the state
(R38), the decoded count stays within the total (R41), the reader is empty (R42), the cursor is on a node reachable from the root (R40),
and the tables keep their canonical form (log entry 6). -/
def Obligations.StepKeepsInvariant : Prop :=
  ∀ s t : State, s.Inv → step s = .next t → t.Inv

/-- R92, R221, R48, R247: from every state that meets the invariant, every step answers a next state: no model-internal fault is met,
nothing is refused. -/
def Obligations.SafeStepAlwaysCompletes : Prop :=
  ∀ s : State, s.Inv → ∃ t, step s = .next t
end

