-- ==== Sys2Proof/Laws/State.lean ====
section
/-! SUPPORT. One lemma per field per update of the state, true by rfl, for the simp set: no later proof unfolds a record update. -/

namespace Sys2Proof.Machine

/-! ### withEnc -/

@[simp] theorem State_withEnc_ill (s : State) (e : Encoder) : (s.withEnc e).ill = s.ill := rfl
@[simp] theorem State_withEnc_eout (s : State) (e : Encoder) : (s.withEnc e).eout = s.eout := rfl
@[simp] theorem State_withEnc_dout (s : State) (e : Encoder) : (s.withEnc e).dout = s.dout := rfl
@[simp] theorem State_withEnc_rsp (s : State) (e : Encoder) : (s.withEnc e).rsp = s.rsp := rfl
@[simp] theorem State_withEnc_eoutTaken (s : State) (e : Encoder) : (s.withEnc e).eoutTaken = s.eoutTaken := rfl
@[simp] theorem State_withEnc_doutTaken (s : State) (e : Encoder) : (s.withEnc e).doutTaken = s.doutTaken := rfl
@[simp] theorem State_withEnc_rspTaken (s : State) (e : Encoder) : (s.withEnc e).rspTaken = s.rspTaken := rfl
@[simp] theorem State_withEnc_enc (s : State) (e : Encoder) : (s.withEnc e).enc = e := rfl
@[simp] theorem State_withEnc_dec (s : State) (e : Encoder) : (s.withEnc e).dec = s.dec := rfl
@[simp] theorem State_withEnc_pc (s : State) (e : Encoder) : (s.withEnc e).pc = s.pc := rfl
@[simp] theorem State_withEnc_hostIn (s : State) (e : Encoder) : (s.withEnc e).hostIn = s.hostIn := rfl

/-! ### withDec -/

@[simp] theorem State_withDec_ill (s : State) (d : Decoder) : (s.withDec d).ill = s.ill := rfl
@[simp] theorem State_withDec_eout (s : State) (d : Decoder) : (s.withDec d).eout = s.eout := rfl
@[simp] theorem State_withDec_dout (s : State) (d : Decoder) : (s.withDec d).dout = s.dout := rfl
@[simp] theorem State_withDec_rsp (s : State) (d : Decoder) : (s.withDec d).rsp = s.rsp := rfl
@[simp] theorem State_withDec_eoutTaken (s : State) (d : Decoder) : (s.withDec d).eoutTaken = s.eoutTaken := rfl
@[simp] theorem State_withDec_doutTaken (s : State) (d : Decoder) : (s.withDec d).doutTaken = s.doutTaken := rfl
@[simp] theorem State_withDec_rspTaken (s : State) (d : Decoder) : (s.withDec d).rspTaken = s.rspTaken := rfl
@[simp] theorem State_withDec_enc (s : State) (d : Decoder) : (s.withDec d).enc = s.enc := rfl
@[simp] theorem State_withDec_dec (s : State) (d : Decoder) : (s.withDec d).dec = d := rfl
@[simp] theorem State_withDec_pc (s : State) (d : Decoder) : (s.withDec d).pc = s.pc := rfl
@[simp] theorem State_withDec_hostIn (s : State) (d : Decoder) : (s.withDec d).hostIn = s.hostIn := rfl

/-! ### emitE -/

@[simp] theorem emitE_ill (bs : List Byte) (s : State) : (emitE bs s).ill = s.ill := rfl
@[simp] theorem emitE_eout (bs : List Byte) (s : State) : (emitE bs s).eout = s.eout ++ bs := rfl
@[simp] theorem emitE_dout (bs : List Byte) (s : State) : (emitE bs s).dout = s.dout := rfl
@[simp] theorem emitE_rsp (bs : List Byte) (s : State) : (emitE bs s).rsp = s.rsp := rfl
@[simp] theorem emitE_eoutTaken (bs : List Byte) (s : State) : (emitE bs s).eoutTaken = s.eoutTaken := rfl
@[simp] theorem emitE_doutTaken (bs : List Byte) (s : State) : (emitE bs s).doutTaken = s.doutTaken := rfl
@[simp] theorem emitE_rspTaken (bs : List Byte) (s : State) : (emitE bs s).rspTaken = s.rspTaken := rfl
@[simp] theorem emitE_enc (bs : List Byte) (s : State) : (emitE bs s).enc = s.enc := rfl
@[simp] theorem emitE_dec (bs : List Byte) (s : State) : (emitE bs s).dec = s.dec := rfl
@[simp] theorem emitE_pc (bs : List Byte) (s : State) : (emitE bs s).pc = s.pc := rfl
@[simp] theorem emitE_hostIn (bs : List Byte) (s : State) : (emitE bs s).hostIn = s.hostIn := rfl

/-! ### emitD -/

@[simp] theorem emitD_ill (b : Byte) (s : State) : (emitD b s).ill = s.ill := rfl
@[simp] theorem emitD_eout (b : Byte) (s : State) : (emitD b s).eout = s.eout := rfl
@[simp] theorem emitD_dout (b : Byte) (s : State) : (emitD b s).dout = s.dout ++ [b] := rfl
@[simp] theorem emitD_rsp (b : Byte) (s : State) : (emitD b s).rsp = s.rsp := rfl
@[simp] theorem emitD_eoutTaken (b : Byte) (s : State) : (emitD b s).eoutTaken = s.eoutTaken := rfl
@[simp] theorem emitD_doutTaken (b : Byte) (s : State) : (emitD b s).doutTaken = s.doutTaken := rfl
@[simp] theorem emitD_rspTaken (b : Byte) (s : State) : (emitD b s).rspTaken = s.rspTaken := rfl
@[simp] theorem emitD_enc (b : Byte) (s : State) : (emitD b s).enc = s.enc := rfl
@[simp] theorem emitD_dec (b : Byte) (s : State) : (emitD b s).dec = s.dec := rfl
@[simp] theorem emitD_pc (b : Byte) (s : State) : (emitD b s).pc = s.pc := rfl
@[simp] theorem emitD_hostIn (b : Byte) (s : State) : (emitD b s).hostIn = s.hostIn := rfl

/-! ### respond -/

@[simp] theorem respond_ill (v : Word32) (s : State) : (respond v s).ill = s.ill := rfl
@[simp] theorem respond_eout (v : Word32) (s : State) : (respond v s).eout = s.eout := rfl
@[simp] theorem respond_dout (v : Word32) (s : State) : (respond v s).dout = s.dout := rfl
@[simp] theorem respond_rsp (v : Word32) (s : State) : (respond v s).rsp = s.rsp ++ [v] := rfl
@[simp] theorem respond_eoutTaken (v : Word32) (s : State) : (respond v s).eoutTaken = s.eoutTaken := rfl
@[simp] theorem respond_doutTaken (v : Word32) (s : State) : (respond v s).doutTaken = s.doutTaken := rfl
@[simp] theorem respond_rspTaken (v : Word32) (s : State) : (respond v s).rspTaken = s.rspTaken := rfl
@[simp] theorem respond_enc (v : Word32) (s : State) : (respond v s).enc = s.enc := rfl
@[simp] theorem respond_dec (v : Word32) (s : State) : (respond v s).dec = s.dec := rfl
@[simp] theorem respond_pc (v : Word32) (s : State) : (respond v s).pc = s.pc := rfl
@[simp] theorem respond_hostIn (v : Word32) (s : State) : (respond v s).hostIn = s.hostIn := rfl

/-! ### illegal -/

@[simp] theorem illegal_ill (s : State) : (illegal s).ill = true := rfl
@[simp] theorem illegal_eout (s : State) : (illegal s).eout = s.eout := rfl
@[simp] theorem illegal_dout (s : State) : (illegal s).dout = s.dout := rfl
@[simp] theorem illegal_rsp (s : State) : (illegal s).rsp = s.rsp := rfl
@[simp] theorem illegal_eoutTaken (s : State) : (illegal s).eoutTaken = s.eoutTaken := rfl
@[simp] theorem illegal_doutTaken (s : State) : (illegal s).doutTaken = s.doutTaken := rfl
@[simp] theorem illegal_rspTaken (s : State) : (illegal s).rspTaken = s.rspTaken := rfl
@[simp] theorem illegal_enc (s : State) : (illegal s).enc = s.enc := rfl
@[simp] theorem illegal_dec (s : State) : (illegal s).dec = s.dec := rfl
@[simp] theorem illegal_pc (s : State) : (illegal s).pc = s.pc := rfl
@[simp] theorem illegal_hostIn (s : State) : (illegal s).hostIn = s.hostIn := rfl

/-! ### raiseE -/

@[simp] theorem raiseE_ill (c : ErrCode) (s : State) : (raiseE c s).ill = s.ill := rfl
@[simp] theorem raiseE_eout (c : ErrCode) (s : State) : (raiseE c s).eout = s.eout := rfl
@[simp] theorem raiseE_dout (c : ErrCode) (s : State) : (raiseE c s).dout = s.dout := rfl
@[simp] theorem raiseE_rsp (c : ErrCode) (s : State) : (raiseE c s).rsp = s.rsp := rfl
@[simp] theorem raiseE_eoutTaken (c : ErrCode) (s : State) : (raiseE c s).eoutTaken = s.eoutTaken := rfl
@[simp] theorem raiseE_doutTaken (c : ErrCode) (s : State) : (raiseE c s).doutTaken = s.doutTaken := rfl
@[simp] theorem raiseE_rspTaken (c : ErrCode) (s : State) : (raiseE c s).rspTaken = s.rspTaken := rfl
@[simp] theorem raiseE_enc (c : ErrCode) (s : State) : (raiseE c s).enc = { s.enc with err := c, phase := .fault } := rfl
@[simp] theorem raiseE_dec (c : ErrCode) (s : State) : (raiseE c s).dec = s.dec := rfl
@[simp] theorem raiseE_pc (c : ErrCode) (s : State) : (raiseE c s).pc = s.pc := rfl
@[simp] theorem raiseE_hostIn (c : ErrCode) (s : State) : (raiseE c s).hostIn = s.hostIn := rfl

/-! ### raiseD -/

@[simp] theorem raiseD_ill (c : ErrCode) (s : State) : (raiseD c s).ill = s.ill := rfl
@[simp] theorem raiseD_eout (c : ErrCode) (s : State) : (raiseD c s).eout = s.eout := rfl
@[simp] theorem raiseD_dout (c : ErrCode) (s : State) : (raiseD c s).dout = s.dout := rfl
@[simp] theorem raiseD_rsp (c : ErrCode) (s : State) : (raiseD c s).rsp = s.rsp := rfl
@[simp] theorem raiseD_eoutTaken (c : ErrCode) (s : State) : (raiseD c s).eoutTaken = s.eoutTaken := rfl
@[simp] theorem raiseD_doutTaken (c : ErrCode) (s : State) : (raiseD c s).doutTaken = s.doutTaken := rfl
@[simp] theorem raiseD_rspTaken (c : ErrCode) (s : State) : (raiseD c s).rspTaken = s.rspTaken := rfl
@[simp] theorem raiseD_enc (c : ErrCode) (s : State) : (raiseD c s).enc = s.enc := rfl
@[simp] theorem raiseD_dec (c : ErrCode) (s : State) : (raiseD c s).dec = { s.dec with err := c, state := .fault } := rfl
@[simp] theorem raiseD_pc (c : ErrCode) (s : State) : (raiseD c s).pc = s.pc := rfl
@[simp] theorem raiseD_hostIn (c : ErrCode) (s : State) : (raiseD c s).hostIn = s.hostIn := rfl

/-! ### resetE -/

@[simp] theorem resetE_ill (s : State) : (resetE s).ill = s.ill := rfl
@[simp] theorem resetE_eout (s : State) : (resetE s).eout = s.eout := rfl
@[simp] theorem resetE_dout (s : State) : (resetE s).dout = s.dout := rfl
@[simp] theorem resetE_rsp (s : State) : (resetE s).rsp = s.rsp := rfl
@[simp] theorem resetE_eoutTaken (s : State) : (resetE s).eoutTaken = s.eoutTaken := rfl
@[simp] theorem resetE_doutTaken (s : State) : (resetE s).doutTaken = s.doutTaken := rfl
@[simp] theorem resetE_rspTaken (s : State) : (resetE s).rspTaken = s.rspTaken := rfl
@[simp] theorem resetE_enc (s : State) : (resetE s).enc = Encoder.reset := rfl
@[simp] theorem resetE_dec (s : State) : (resetE s).dec = s.dec := rfl
@[simp] theorem resetE_pc (s : State) : (resetE s).pc = s.pc := rfl
@[simp] theorem resetE_hostIn (s : State) : (resetE s).hostIn = s.hostIn := rfl

/-! ### resetD -/

@[simp] theorem resetD_ill (s : State) : (resetD s).ill = s.ill := rfl
@[simp] theorem resetD_eout (s : State) : (resetD s).eout = s.eout := rfl
@[simp] theorem resetD_dout (s : State) : (resetD s).dout = s.dout := rfl
@[simp] theorem resetD_rsp (s : State) : (resetD s).rsp = s.rsp := rfl
@[simp] theorem resetD_eoutTaken (s : State) : (resetD s).eoutTaken = s.eoutTaken := rfl
@[simp] theorem resetD_doutTaken (s : State) : (resetD s).doutTaken = s.doutTaken := rfl
@[simp] theorem resetD_rspTaken (s : State) : (resetD s).rspTaken = s.rspTaken := rfl
@[simp] theorem resetD_enc (s : State) : (resetD s).enc = s.enc := rfl
@[simp] theorem resetD_dec (s : State) : (resetD s).dec = Decoder.reset := rfl
@[simp] theorem resetD_pc (s : State) : (resetD s).pc = s.pc := rfl
@[simp] theorem resetD_hostIn (s : State) : (resetD s).hostIn = s.hostIn := rfl

/-! ### acceptWord -/

@[simp] theorem acceptWord_ill (s : State) (rest : List HostInput) : (acceptWord s rest).ill = s.ill := rfl
@[simp] theorem acceptWord_eout (s : State) (rest : List HostInput) : (acceptWord s rest).eout = s.eout := rfl
@[simp] theorem acceptWord_dout (s : State) (rest : List HostInput) : (acceptWord s rest).dout = s.dout := rfl
@[simp] theorem acceptWord_rsp (s : State) (rest : List HostInput) : (acceptWord s rest).rsp = s.rsp := rfl
@[simp] theorem acceptWord_eoutTaken (s : State) (rest : List HostInput) : (acceptWord s rest).eoutTaken = s.eoutTaken := rfl
@[simp] theorem acceptWord_doutTaken (s : State) (rest : List HostInput) : (acceptWord s rest).doutTaken = s.doutTaken := rfl
@[simp] theorem acceptWord_rspTaken (s : State) (rest : List HostInput) : (acceptWord s rest).rspTaken = s.rspTaken := rfl
@[simp] theorem acceptWord_enc (s : State) (rest : List HostInput) : (acceptWord s rest).enc = s.enc := rfl
@[simp] theorem acceptWord_dec (s : State) (rest : List HostInput) : (acceptWord s rest).dec = s.dec := rfl
@[simp] theorem acceptWord_pc (s : State) (rest : List HostInput) : (acceptWord s rest).pc = s.pc + 1 := rfl
@[simp] theorem acceptWord_hostIn (s : State) (rest : List HostInput) : (acceptWord s rest).hostIn = rest := rfl

/-! ### acceptInput -/

@[simp] theorem acceptInput_ill (s : State) (rest : List HostInput) : (acceptInput s rest).ill = s.ill := rfl
@[simp] theorem acceptInput_eout (s : State) (rest : List HostInput) : (acceptInput s rest).eout = s.eout := rfl
@[simp] theorem acceptInput_dout (s : State) (rest : List HostInput) : (acceptInput s rest).dout = s.dout := rfl
@[simp] theorem acceptInput_rsp (s : State) (rest : List HostInput) : (acceptInput s rest).rsp = s.rsp := rfl
@[simp] theorem acceptInput_eoutTaken (s : State) (rest : List HostInput) : (acceptInput s rest).eoutTaken = s.eoutTaken := rfl
@[simp] theorem acceptInput_doutTaken (s : State) (rest : List HostInput) : (acceptInput s rest).doutTaken = s.doutTaken := rfl
@[simp] theorem acceptInput_rspTaken (s : State) (rest : List HostInput) : (acceptInput s rest).rspTaken = s.rspTaken := rfl
@[simp] theorem acceptInput_enc (s : State) (rest : List HostInput) : (acceptInput s rest).enc = s.enc := rfl
@[simp] theorem acceptInput_dec (s : State) (rest : List HostInput) : (acceptInput s rest).dec = s.dec := rfl
@[simp] theorem acceptInput_pc (s : State) (rest : List HostInput) : (acceptInput s rest).pc = s.pc := rfl
@[simp] theorem acceptInput_hostIn (s : State) (rest : List HostInput) : (acceptInput s rest).hostIn = rest := rfl

/-! ### Encoder.withPhase -/

@[simp] theorem Encoder_withPhase_phase (e : Encoder) (p : Phase) : (e.withPhase p).phase = p := rfl
@[simp] theorem Encoder_withPhase_err (e : Encoder) (p : Phase) : (e.withPhase p).err = e.err := rfl
@[simp] theorem Encoder_withPhase_total (e : Encoder) (p : Phase) : (e.withPhase p).total = e.total := rfl
@[simp] theorem Encoder_withPhase_tree (e : Encoder) (p : Phase) : (e.withPhase p).tree = e.tree := rfl
@[simp] theorem Encoder_withPhase_clen (e : Encoder) (p : Phase) : (e.withPhase p).clen = e.clen := rfl
@[simp] theorem Encoder_withPhase_cbits (e : Encoder) (p : Phase) : (e.withPhase p).cbits = e.cbits := rfl
@[simp] theorem Encoder_withPhase_wbAcc (e : Encoder) (p : Phase) : (e.withPhase p).wbAcc = e.wbAcc := rfl
@[simp] theorem Encoder_withPhase_wbCnt (e : Encoder) (p : Phase) : (e.withPhase p).wbCnt = e.wbCnt := rfl

/-! ### Encoder.withTree -/

@[simp] theorem Encoder_withTree_phase (e : Encoder) (u : TreeUnit) : (e.withTree u).phase = e.phase := rfl
@[simp] theorem Encoder_withTree_err (e : Encoder) (u : TreeUnit) : (e.withTree u).err = e.err := rfl
@[simp] theorem Encoder_withTree_total (e : Encoder) (u : TreeUnit) : (e.withTree u).total = e.total := rfl
@[simp] theorem Encoder_withTree_tree (e : Encoder) (u : TreeUnit) : (e.withTree u).tree = u := rfl
@[simp] theorem Encoder_withTree_clen (e : Encoder) (u : TreeUnit) : (e.withTree u).clen = e.clen := rfl
@[simp] theorem Encoder_withTree_cbits (e : Encoder) (u : TreeUnit) : (e.withTree u).cbits = e.cbits := rfl
@[simp] theorem Encoder_withTree_wbAcc (e : Encoder) (u : TreeUnit) : (e.withTree u).wbAcc = e.wbAcc := rfl
@[simp] theorem Encoder_withTree_wbCnt (e : Encoder) (u : TreeUnit) : (e.withTree u).wbCnt = e.wbCnt := rfl

/-! ### Encoder.withWriter -/

@[simp] theorem Encoder_withWriter_phase (e : Encoder) (acc : Byte) (cnt : BitVec 3) : (e.withWriter acc cnt).phase = e.phase := rfl
@[simp] theorem Encoder_withWriter_err (e : Encoder) (acc : Byte) (cnt : BitVec 3) : (e.withWriter acc cnt).err = e.err := rfl
@[simp] theorem Encoder_withWriter_total (e : Encoder) (acc : Byte) (cnt : BitVec 3) : (e.withWriter acc cnt).total = e.total := rfl
@[simp] theorem Encoder_withWriter_tree (e : Encoder) (acc : Byte) (cnt : BitVec 3) : (e.withWriter acc cnt).tree = e.tree := rfl
@[simp] theorem Encoder_withWriter_clen (e : Encoder) (acc : Byte) (cnt : BitVec 3) : (e.withWriter acc cnt).clen = e.clen := rfl
@[simp] theorem Encoder_withWriter_cbits (e : Encoder) (acc : Byte) (cnt : BitVec 3) : (e.withWriter acc cnt).cbits = e.cbits := rfl
@[simp] theorem Encoder_withWriter_wbAcc (e : Encoder) (acc : Byte) (cnt : BitVec 3) : (e.withWriter acc cnt).wbAcc = acc := rfl
@[simp] theorem Encoder_withWriter_wbCnt (e : Encoder) (acc : Byte) (cnt : BitVec 3) : (e.withWriter acc cnt).wbCnt = cnt := rfl

/-! ### Decoder.withState -/

@[simp] theorem Decoder_withState_state (d : Decoder) (st : DState) : (d.withState st).state = st := rfl
@[simp] theorem Decoder_withState_err (d : Decoder) (st : DState) : (d.withState st).err = d.err := rfl
@[simp] theorem Decoder_withState_hcnt (d : Decoder) (st : DState) : (d.withState st).hcnt = d.hcnt := rfl
@[simp] theorem Decoder_withState_total (d : Decoder) (st : DState) : (d.withState st).total = d.total := rfl
@[simp] theorem Decoder_withState_tree (d : Decoder) (st : DState) : (d.withState st).tree = d.tree := rfl
@[simp] theorem Decoder_withState_cur (d : Decoder) (st : DState) : (d.withState st).cur = d.cur := rfl
@[simp] theorem Decoder_withState_dcnt (d : Decoder) (st : DState) : (d.withState st).dcnt = d.dcnt := rfl
@[simp] theorem Decoder_withState_brByte (d : Decoder) (st : DState) : (d.withState st).brByte = d.brByte := rfl
@[simp] theorem Decoder_withState_brCnt (d : Decoder) (st : DState) : (d.withState st).brCnt = d.brCnt := rfl

/-! ### Decoder.withReader -/

@[simp] theorem Decoder_withReader_state (d : Decoder) (v : Byte) (cnt : BitVec 4) : (d.withReader v cnt).state = d.state := rfl
@[simp] theorem Decoder_withReader_err (d : Decoder) (v : Byte) (cnt : BitVec 4) : (d.withReader v cnt).err = d.err := rfl
@[simp] theorem Decoder_withReader_hcnt (d : Decoder) (v : Byte) (cnt : BitVec 4) : (d.withReader v cnt).hcnt = d.hcnt := rfl
@[simp] theorem Decoder_withReader_total (d : Decoder) (v : Byte) (cnt : BitVec 4) : (d.withReader v cnt).total = d.total := rfl
@[simp] theorem Decoder_withReader_tree (d : Decoder) (v : Byte) (cnt : BitVec 4) : (d.withReader v cnt).tree = d.tree := rfl
@[simp] theorem Decoder_withReader_cur (d : Decoder) (v : Byte) (cnt : BitVec 4) : (d.withReader v cnt).cur = d.cur := rfl
@[simp] theorem Decoder_withReader_dcnt (d : Decoder) (v : Byte) (cnt : BitVec 4) : (d.withReader v cnt).dcnt = d.dcnt := rfl
@[simp] theorem Decoder_withReader_brByte (d : Decoder) (v : Byte) (cnt : BitVec 4) : (d.withReader v cnt).brByte = v := rfl
@[simp] theorem Decoder_withReader_brCnt (d : Decoder) (v : Byte) (cnt : BitVec 4) : (d.withReader v cnt).brCnt = cnt := rfl

/-! ### setFreq -/

@[simp] theorem setFreq_freq (u : TreeUnit) (k : Nat) (v : Word32) : (setFreq u k v).freq = tablePut 0#32 u.freq k v := rfl
@[simp] theorem setFreq_heap (u : TreeUnit) (k : Nat) (v : Word32) : (setFreq u k v).heap = u.heap := rfl
@[simp] theorem setFreq_node (u : TreeUnit) (k : Nat) (v : Word32) : (setFreq u k v).node = u.node := rfl
@[simp] theorem setFreq_nnext (u : TreeUnit) (k : Nat) (v : Word32) : (setFreq u k v).nnext = u.nnext := rfl
@[simp] theorem setFreq_root (u : TreeUnit) (k : Nat) (v : Word32) : (setFreq u k v).root = u.root := rfl

/-! ### setNode -/

@[simp] theorem setNode_freq (u : TreeUnit) (n : NodeId) (r : NodeRec) : (setNode u n r).freq = u.freq := rfl
@[simp] theorem setNode_heap (u : TreeUnit) (n : NodeId) (r : NodeRec) : (setNode u n r).heap = u.heap := rfl
@[simp] theorem setNode_node (u : TreeUnit) (n : NodeId) (r : NodeRec) : (setNode u n r).node = tableInsert u.node n.toNat r := rfl
@[simp] theorem setNode_nnext (u : TreeUnit) (n : NodeId) (r : NodeRec) : (setNode u n r).nnext = u.nnext := rfl
@[simp] theorem setNode_root (u : TreeUnit) (n : NodeId) (r : NodeRec) : (setNode u n r).root = u.root := rfl

/-! ### brLoad -/

@[simp] theorem brLoad_state (v : Byte) (d : Decoder) : (brLoad v d).state = d.state := rfl
@[simp] theorem brLoad_err (v : Byte) (d : Decoder) : (brLoad v d).err = d.err := rfl
@[simp] theorem brLoad_hcnt (v : Byte) (d : Decoder) : (brLoad v d).hcnt = d.hcnt := rfl
@[simp] theorem brLoad_total (v : Byte) (d : Decoder) : (brLoad v d).total = d.total := rfl
@[simp] theorem brLoad_tree (v : Byte) (d : Decoder) : (brLoad v d).tree = d.tree := rfl
@[simp] theorem brLoad_cur (v : Byte) (d : Decoder) : (brLoad v d).cur = d.cur := rfl
@[simp] theorem brLoad_dcnt (v : Byte) (d : Decoder) : (brLoad v d).dcnt = d.dcnt := rfl
@[simp] theorem brLoad_brByte (v : Byte) (d : Decoder) : (brLoad v d).brByte = v := rfl
@[simp] theorem brLoad_brCnt (v : Byte) (d : Decoder) : (brLoad v d).brCnt = 8#4 := rfl

/-! ### countSymbol -/

@[simp] theorem countSymbol_phase (e : Encoder) (c : Byte) : (countSymbol e c).phase = e.phase := rfl
@[simp] theorem countSymbol_err (e : Encoder) (c : Byte) : (countSymbol e c).err = e.err := rfl
@[simp] theorem countSymbol_total (e : Encoder) (c : Byte) : (countSymbol e c).total = e.total + 1#32 := rfl
@[simp] theorem countSymbol_tree (e : Encoder) (c : Byte) : (countSymbol e c).tree = setFreq e.tree c.toNat (freqAt e.tree c.toNat + 1#32) := rfl
@[simp] theorem countSymbol_clen (e : Encoder) (c : Byte) : (countSymbol e c).clen = e.clen := rfl
@[simp] theorem countSymbol_cbits (e : Encoder) (c : Byte) : (countSymbol e c).cbits = e.cbits := rfl
@[simp] theorem countSymbol_wbAcc (e : Encoder) (c : Byte) : (countSymbol e c).wbAcc = e.wbAcc := rfl
@[simp] theorem countSymbol_wbCnt (e : Encoder) (c : Byte) : (countSymbol e c).wbCnt = e.wbCnt := rfl

end Sys2Proof.Machine
end

