-- ==== Sys2Proof/Laws/Table.lean ====
section
/-! SUPPORT. The internal arrays: a read after a write, other elements unchanged, and the canonical form kept by every operation. -/

namespace Sys2Proof.Machine

variable {α : Type}

/-! ### Read after write -/

theorem tableFind_insert (t : List (Nat × α)) (k j : Nat) (v : α) :
    tableFind (tableInsert t k v) j = if k = j then some v else tableFind t j := by
  induction t with
  | nil => simp [tableInsert, tableFind]
  | cons e t ih =>
    obtain ⟨k', v'⟩ := e
    simp only [tableInsert]
    split
    · rename_i h
      simp only [tableFind]
    · split
      · rename_i h h'
        subst h'
        simp only [tableFind]
        split <;> rfl
      · rename_i h h'
        simp only [tableFind, ih]
        by_cases hk : k' = j
        · have : k ≠ j := by omega
          simp [hk, this]
        · simp [hk]

theorem tableFind_erase (t : List (Nat × α)) (k j : Nat) :
    tableFind (tableErase t k) j = if k = j then none else tableFind t j := by
  induction t with
  | nil => simp [tableErase, tableFind]
  | cons e t ih =>
    obtain ⟨k', v'⟩ := e
    simp only [tableErase]
    split
    · rename_i h
      subst h
      simp only [ih, tableFind]
      split <;> simp_all
    · rename_i h
      simp only [tableFind, ih]
      by_cases hk : k' = j
      · have : k ≠ j := by omega
        simp [hk, this]
      · simp [hk]

/-- A read of an array after a write: the written element reads as written, the others as before. -/
theorem tableGet_put [DecidableEq α] (d : α) (t : List (Nat × α)) (k j : Nat) (v : α) :
    tableGet d (tablePut d t k v) j = if k = j then v else tableGet d t j := by
  unfold tableGet tablePut
  split
  · rename_i h
    rw [tableFind_erase]
    split <;> simp [h]
  · rw [tableFind_insert]
    split <;> simp

@[simp] theorem tableFind_nil (k : Nat) : tableFind ([] : List (Nat × α)) k = none := rfl

@[simp] theorem tableGet_nil (d : α) (k : Nat) : tableGet d [] k = d := rfl

/-! ### The canonical form -/

theorem tableRises_mono {hi lo lo' : Nat} {t : List (Nat × α)} (h : lo' ≤ lo) (ht : tableRises hi lo t = true) :
    tableRises hi lo' t = true := by
  cases t with
  | nil => rfl
  | cons e t =>
    obtain ⟨k, v⟩ := e
    simp only [tableRises, Bool.and_eq_true, decide_eq_true_eq] at ht ⊢
    exact ⟨⟨by omega, ht.1.2⟩, ht.2⟩

theorem tableRises_insert {hi lo k : Nat} (v : α) {t : List (Nat × α)} (hlo : lo ≤ k) (hk : k < hi)
    (ht : tableRises hi lo t = true) : tableRises hi lo (tableInsert t k v) = true := by
  induction t generalizing lo with
  | nil => simp [tableInsert, tableRises, hlo, hk]
  | cons e t ih =>
    obtain ⟨k', v'⟩ := e
    simp only [tableRises, Bool.and_eq_true, decide_eq_true_eq] at ht
    simp only [tableInsert]
    split
    · simp only [tableRises, Bool.and_eq_true, decide_eq_true_eq]
      exact ⟨⟨hlo, hk⟩, ⟨by omega, ht.1.2⟩, ht.2⟩
    · split
      · rename_i h
        subst h
        simp only [tableRises, Bool.and_eq_true, decide_eq_true_eq]
        exact ⟨⟨hlo, hk⟩, ht.2⟩
      · simp only [tableRises, Bool.and_eq_true, decide_eq_true_eq]
        exact ⟨ht.1, ih (by omega) ht.2⟩

theorem tableRises_erase {hi lo k : Nat} {t : List (Nat × α)} (ht : tableRises hi lo t = true) :
    tableRises hi lo (tableErase t k) = true := by
  induction t generalizing lo with
  | nil => rfl
  | cons e t ih =>
    obtain ⟨k', v'⟩ := e
    simp only [tableRises, Bool.and_eq_true, decide_eq_true_eq] at ht
    simp only [tableErase]
    split
    · exact ih (tableRises_mono (by omega) ht.2)
    · simp only [tableRises, Bool.and_eq_true, decide_eq_true_eq]
      exact ⟨ht.1, ih ht.2⟩

theorem tableWf_insert {n k : Nat} (v : α) {t : List (Nat × α)} (hk : k < n) (ht : tableWf n t = true) :
    tableWf n (tableInsert t k v) = true := tableRises_insert v (Nat.zero_le _) hk ht

theorem tableWf_erase {n k : Nat} {t : List (Nat × α)} (ht : tableWf n t = true) : tableWf n (tableErase t k) = true :=
  tableRises_erase ht

theorem mem_tableInsert {t : List (Nat × α)} {k : Nat} {v : α} {e : Nat × α} (h : e ∈ tableInsert t k v) :
    e = (k, v) ∨ e ∈ t := by
  induction t with
  | nil => simpa [tableInsert] using h
  | cons e' t ih =>
    obtain ⟨k', v'⟩ := e'
    simp only [tableInsert] at h
    split at h
    · simpa using h
    · split at h
      · rcases List.mem_cons.1 h with h | h
        · exact .inl h
        · exact .inr (List.mem_cons_of_mem _ h)
      · rcases List.mem_cons.1 h with h | h
        · exact .inr (h ▸ List.mem_cons_self)
        · exact (ih h).imp id (List.mem_cons_of_mem _)

theorem mem_tableErase {t : List (Nat × α)} {k : Nat} {e : Nat × α} (h : e ∈ tableErase t k) : e ∈ t ∧ e.1 ≠ k := by
  induction t with
  | nil => simp [tableErase] at h
  | cons e' t ih =>
    obtain ⟨k', v'⟩ := e'
    simp only [tableErase] at h
    split at h
    · exact ⟨List.mem_cons_of_mem _ (ih h).1, (ih h).2⟩
    · rename_i hk
      rcases List.mem_cons.1 h with h | h
      · subst h
        exact ⟨List.mem_cons_self, hk⟩
      · exact ⟨List.mem_cons_of_mem _ (ih h).1, (ih h).2⟩

/-- A write keeps the canonical form. -/
theorem tableWfD_put [DecidableEq α] {d : α} {n k : Nat} (v : α) {t : List (Nat × α)} (hk : k < n)
    (ht : tableWfD d n t = true) : tableWfD d n (tablePut d t k v) = true := by
  simp only [tableWfD, Bool.and_eq_true, List.all_eq_true, decide_eq_true_eq] at ht ⊢
  unfold tablePut
  split
  · exact ⟨tableWf_erase ht.1, fun e he => ht.2 e (mem_tableErase he).1⟩
  · rename_i hv
    refine ⟨tableWf_insert v hk ht.1, fun e he => ?_⟩
    rcases mem_tableInsert he with rfl | h
    · exact hv
    · exact ht.2 e h

@[simp] theorem tableWf_nil (n : Nat) : tableWf n ([] : List (Nat × α)) = true := rfl

@[simp] theorem tableWfD_nil [DecidableEq α] (d : α) (n : Nat) : tableWfD d n [] = true := rfl

/-! ### Listed elements -/

theorem tableFind_mem {t : List (Nat × α)} {k : Nat} {v : α} (h : tableFind t k = some v) : (k, v) ∈ t := by
  induction t with
  | nil => simp at h
  | cons e t ih =>
    obtain ⟨k', v'⟩ := e
    simp only [tableFind] at h
    split at h
    · rename_i hk
      subst hk
      cases h
      exact List.mem_cons_self
    · exact List.mem_cons_of_mem _ (ih h)

theorem tableRises_bounds {hi lo : Nat} {t : List (Nat × α)} (ht : tableRises hi lo t = true) {e : Nat × α} (he : e ∈ t) :
    lo ≤ e.1 ∧ e.1 < hi := by
  induction t generalizing lo with
  | nil => simp at he
  | cons e' t ih =>
    obtain ⟨k', v'⟩ := e'
    simp only [tableRises, Bool.and_eq_true, decide_eq_true_eq] at ht
    rcases List.mem_cons.1 he with rfl | h
    · exact ht.1
    · have := ih ht.2 h
      omega

/-- In a canonical table a listed pair is what its index reads as. -/
theorem tableFind_of_mem {hi lo : Nat} {t : List (Nat × α)} (ht : tableRises hi lo t = true) {k : Nat} {v : α}
    (h : (k, v) ∈ t) : tableFind t k = some v := by
  induction t generalizing lo with
  | nil => simp at h
  | cons e' t ih =>
    obtain ⟨k', v'⟩ := e'
    simp only [tableRises, Bool.and_eq_true, decide_eq_true_eq] at ht
    simp only [tableFind]
    rcases List.mem_cons.1 h with h | h
    · cases h
      simp
    · have hb := tableRises_bounds ht.2 h
      have : k' ≠ k := by have := hb.1; simp at this; omega
      rw [if_neg this]
      exact ih ht.2 h

theorem tableFind_lt {n : Nat} {t : List (Nat × α)} (ht : tableWf n t = true) {k : Nat} {v : α}
    (h : tableFind t k = some v) : k < n := (tableRises_bounds ht (tableFind_mem h)).2

/-- Two canonical tables that read alike at every index are the same data. -/
theorem tableWf_ext {hi lo : Nat} {t t' : List (Nat × α)} (ht : tableRises hi lo t = true) (ht' : tableRises hi lo t' = true)
    (h : ∀ k, tableFind t k = tableFind t' k) : t = t' := by
  induction t generalizing lo t' with
  | nil =>
    cases t' with
    | nil => rfl
    | cons e t' =>
      have := h e.1
      simp [tableFind] at this
  | cons e t ih =>
    obtain ⟨k, v⟩ := e
    cases t' with
    | nil =>
      have := h k
      simp [tableFind] at this
    | cons e' t' =>
      obtain ⟨k', v'⟩ := e'
      have hr := ht
      have hr' := ht'
      simp only [tableRises, Bool.and_eq_true, decide_eq_true_eq] at hr hr'
      have hk : k = k' := by
        have h1 := tableFind_mem (h k ▸ (by simp [tableFind] : tableFind ((k, v) :: t) k = some v))
        have h2 := tableFind_mem ((h k').symm ▸ (by simp [tableFind] : tableFind ((k', v') :: t') k' = some v'))
        have b1 : k' ≤ k := by
          rcases List.mem_cons.1 h1 with h1 | h1
          · cases h1; omega
          · have := (tableRises_bounds hr'.2 h1).1
            simp at this; omega
        have b2 : k ≤ k' := by
          rcases List.mem_cons.1 h2 with h2 | h2
          · cases h2; omega
          · have := (tableRises_bounds hr.2 h2).1
            simp at this; omega
        omega
      subst hk
      have hv : v = v' := by simpa [tableFind] using h k
      subst hv
      congr 1
      refine ih hr.2 hr'.2 fun j => ?_
      by_cases hj : k = j
      · subst hj
        have n1 : tableFind t k = none := by
          cases hc : tableFind t k with
          | none => rfl
          | some w => have := (tableRises_bounds hr.2 (tableFind_mem hc)).1; simp at this
        have n2 : tableFind t' k = none := by
          cases hc : tableFind t' k with
          | none => rfl
          | some w => have := (tableRises_bounds hr'.2 (tableFind_mem hc)).1; simp at this
        rw [n1, n2]
      · simpa [tableFind, hj] using h j

end Sys2Proof.Machine
end

