-- ==== Sys2Proof/Laws/Ops.lean ====
section
/-! SUPPORT. What each shared operation of Machine/Ops.lean can do, said once. -/

namespace Sys2Proof.Machine

@[simp] theorem outcomeOf_ok (s : State) : outcomeOf (.ok s) = .next s := rfl

@[simp] theorem outcomeOf_error (f : Fault) : outcomeOf (.error f) = .fault f := rfl

theorem outcomeOf_next {r : Except Fault State} {t : State} (h : outcomeOf r = .next t) : r = .ok t := by
  cases r with
  | ok s => simp only [outcomeOf_ok, Host.Outcome.next.injEq] at h; rw [h]
  | error f => simp at h

/-! ### The gate of an encoder command (spec/30_encoding.md R89) -/

theorem gateE_fault {p : Phase} {s : State} (rule : State → Except Fault State) (h : s.enc.phase = .fault) :
    gateE p s rule = .next s := by simp [gateE, h]

theorem gateE_legal {p : Phase} {s : State} (rule : State → Except Fault State) (hp : p ≠ .fault) (h : s.enc.phase = p) :
    gateE p s rule = outcomeOf (rule s) := by
  subst h
  simp [gateE, hp]

theorem gateE_seqError {p : Phase} {s : State} (rule : State → Except Fault State) (hf : s.enc.phase ≠ .fault)
    (h : s.enc.phase ≠ p) : gateE p s rule = .next (raiseE .seqError s) := by simp [gateE, hf, h]

/-- Everything a gated command can answer as a next state. -/
theorem gateE_next {p : Phase} {s t : State} {rule : State → Except Fault State} (h : gateE p s rule = .next t) :
    (s.enc.phase = .fault ∧ t = s) ∨ (s.enc.phase ≠ .fault ∧ s.enc.phase = p ∧ rule s = .ok t) ∨
    (s.enc.phase ≠ .fault ∧ s.enc.phase ≠ p ∧ t = raiseE .seqError s) := by
  unfold gateE at h
  split at h
  · rename_i hf
    exact .inl ⟨hf, by cases h; rfl⟩
  · rename_i hf
    split at h
    · rename_i hp
      exact .inr (.inl ⟨hf, hp, outcomeOf_next h⟩)
    · rename_i hp
      exact .inr (.inr ⟨hf, hp, by cases h; rfl⟩)

/-! ### Array elements -/

theorem freqAt_setFreq (u : TreeUnit) (k j : Nat) (v : Word32) :
    freqAt (setFreq u k v) j = if k = j then v else freqAt u j := by
  simp [freqAt, tableGet_put]

theorem freqAt_congr {u v : TreeUnit} (h : u.freq = v.freq) (k : Nat) : freqAt u k = freqAt v k := by
  simp [freqAt, h]

theorem nodeAt_ok {node : List (Nat × NodeRec)} {n : NodeId} {r : NodeRec} :
    nodeAt node n = .ok r ↔ n ≠ Config.noneId ∧ tableFind node n.toNat = some r := by
  unfold nodeAt
  split
  · simp_all
  · split <;> simp_all

/-- A record just written reads as written, the others as before. -/
theorem nodeAt_setNode (u : TreeUnit) (n m : NodeId) (r : NodeRec) (hn : n ≠ Config.noneId) :
    nodeAt (setNode u n r).node m = if n = m then .ok r else nodeAt u.node m := by
  unfold nodeAt
  simp only [setNode_node, tableFind_insert]
  by_cases h : n = m
  · subst h
    simp [hn]
  · have : n.toNat ≠ m.toNat := fun hc => h (BitVec.eq_of_toNat_eq hc)
    simp [h, this]

theorem isLeaf_ok {node : List (Nat × NodeRec)} {n : NodeId} {b : Bool} :
    isLeaf node n = .ok b ↔ ∃ r, nodeAt node n = .ok r ∧ r.leaf = b := by
  unfold isLeaf
  cases nodeAt node n <;> simp

theorem allZero_iff (u : TreeUnit) : allZero u = true ↔ ∀ k < 256, freqAt u k = 0#32 := by
  simp [allZero, Config.symbols, Config.nsym, List.all_eq_true]

end Sys2Proof.Machine
end

