-- ==== Sys2Proof/Laws/BitWriter.lean ====
section
/-! SUPPORT. The bit writer: what `WB_WRITE` changes, and how many bytes a sequence of writes emits (spec/44_bit_writer.md R141 to
R143). -/

namespace Sys2Proof.Machine

/-- `WB_WRITE` changes `EOUT` and the accumulator only. -/
theorem wbWrite_frame (b : Bool) (s : State) :
    wbWrite b s = { s with
      eout := (wbWrite b s).eout
      enc := { s.enc with wbAcc := (wbWrite b s).enc.wbAcc, wbCnt := (wbWrite b s).enc.wbCnt } } := by
  unfold wbWrite
  split <;> rfl

/-- `WB_WRITE` of bits changes `EOUT` and the accumulator only. -/
theorem wbWriteAll_frame (bits : List Bool) (s : State) :
    wbWriteAll bits s = { s with
      eout := (wbWriteAll bits s).eout
      enc := { s.enc with wbAcc := (wbWriteAll bits s).enc.wbAcc, wbCnt := (wbWriteAll bits s).enc.wbCnt } } := by
  induction bits generalizing s with
  | nil => rfl
  | cons b bits ih =>
    simp only [wbWriteAll]
    rw [ih (wbWrite b s), wbWrite_frame b s]

/-- One more bit: eight of them make a byte. -/
theorem wbWrite_count (b : Bool) (s : State) :
    8 * (wbWrite b s).eout.length + (wbWrite b s).enc.wbCnt.toNat = 8 * s.eout.length + s.enc.wbCnt.toNat + 1 := by
  unfold wbWrite
  split
  · rename_i h
    simp [h]
    omega
  · rename_i h
    have : s.enc.wbCnt.toNat ≠ 7 := fun hc => h (BitVec.eq_of_toNat_eq hc)
    have h8 := s.enc.wbCnt.isLt
    simp only [State_withEnc_eout, State_withEnc_enc, Encoder_withWriter_wbCnt, BitVec.toNat_add, BitVec.toNat_ofNat]
    omega

/-- The bytes emitted and the bits pending count every bit written. -/
theorem wbWriteAll_count (bits : List Bool) (s : State) :
    8 * (wbWriteAll bits s).eout.length + (wbWriteAll bits s).enc.wbCnt.toNat =
      8 * s.eout.length + s.enc.wbCnt.toNat + bits.length := by
  induction bits generalizing s with
  | nil => simp [wbWriteAll]
  | cons b bits ih =>
    simp only [wbWriteAll, List.length_cons]
    rw [ih, wbWrite_count]
    omega

theorem wbWriteAll_append (xs ys : List Bool) (s : State) : wbWriteAll (xs ++ ys) s = wbWriteAll ys (wbWriteAll xs s) := by
  induction xs generalizing s with
  | nil => rfl
  | cons b xs ih => simp [wbWriteAll, ih]

/-- `WB_FLUSH` changes `EOUT` and the accumulator only (R142). -/
theorem wbFlush_eq (s : State) :
    wbFlush s = { s with
      eout := if s.enc.wbCnt = 0#3 then s.eout else s.eout ++ [s.enc.wbAcc]
      enc := { s.enc with wbAcc := 0#8, wbCnt := 0#3 } } := by
  unfold wbFlush
  split <;> rfl

end Sys2Proof.Machine
end

