-- ==== Sys2Proof/Laws/CodeDeriver.lean ====
section
/-! SUPPORT. The code table deriver: on a sound tree part `CODE_DERIVE` never stops, it writes only the code table, and every code it
records is the path to a leaf (spec/43_code_table_deriver.md R131, R135). -/

namespace Sys2Proof.Machine

/-- A code within the capacity is recorded; only the code table changes. -/
theorem setCode_ok (e : Encoder) (s : Byte) {path : List Bool} (h : path.length ≤ 256) :
    setCode e s path = .ok { e with
      clen := tablePut 0#9 e.clen s.toNat (BitVec.ofNat 9 path.length)
      cbits := tablePut [] e.cbits s.toNat (path ++ (cbitsAt e s.toNat).drop path.length) } := by
  simp [setCode, Config.pathCap, h]

/-- The encoder after `set_code`. -/
theorem setCode_inv {e e' : Encoder} {s : Byte} {path : List Bool} (h : setCode e s path = .ok e') :
    path.length ≤ 256 ∧ e' = { e with clen := e'.clen, cbits := e'.cbits } ∧
      (∀ k, clenAt e' k = if s.toNat = k then BitVec.ofNat 9 path.length else clenAt e k) ∧
      (∀ k, cbitsAt e' k = if s.toNat = k then path ++ (cbitsAt e s.toNat).drop path.length else cbitsAt e k) := by
  unfold setCode at h
  split at h
  · rename_i hp
    cases h
    refine ⟨hp, rfl, fun k => ?_, fun k => ?_⟩
    · simp only [clenAt, tableGet_put]
    · simp only [cbitsAt, tableGet_put]
  · cases h

theorem follow_nil (node : List (Nat × NodeRec)) (n : NodeId) : follow node n [] = some n := by simp [follow]

/-- One more choice on a path through an internal node. -/
theorem follow_cons {node : List (Nat × NodeRec)} {n : NodeId} {r : NodeRec} (h : nodeAt node n = .ok r) (hl : r.leaf = false)
    (b : Bool) (bs : List Bool) : follow node n (b :: bs) = follow node (if b then r.right else r.left) bs := by
  simp [follow, (nodeAt_ok.1 h).2, hl]

/-- Paths compose. -/
theorem follow_append {node : List (Nat × NodeRec)} {n m : NodeId} {p : List Bool} (h : follow node n p = some m) (q : List Bool) :
    follow node n (p ++ q) = follow node m q := by
  induction p generalizing n with
  | nil => simp only [follow_nil, Option.some.injEq] at h; simp [h]
  | cons b p ih =>
    simp only [follow, List.cons_append] at h ⊢
    cases hf : tableFind node n.toNat with
    | none => simp [hf] at h
    | some r =>
      simp only [hf] at h ⊢
      split at h
      · cases h
      · rename_i hl
        rw [if_neg hl]
        exact ih h

/-- From a leaf no path goes on. -/
theorem follow_leaf {node : List (Nat × NodeRec)} {n m : NodeId} {r : NodeRec} {q : List Bool} (h : nodeAt node n = .ok r)
    (hl : r.leaf = true) (hq : follow node n q = some m) : q = [] := by
  cases q with
  | nil => rfl
  | cons b q => simp [follow, (nodeAt_ok.1 h).2, hl] at hq

/-- A listed child of a listed internal node: recorded, and older than its parent. -/
theorem children_ok {u : TreeUnit} (ha : arenaOk u) {n : NodeId} {r : NodeRec} (h : nodeAt u.node n = .ok r) (hl : r.leaf = false) :
    256 ≤ n.toNat ∧ n.toNat ≤ 510 ∧
    (r.left.toNat < n.toNat ∧ ∃ a, nodeAt u.node r.left = .ok a) ∧
    (r.right.toNat < n.toNat ∧ ∃ b, nodeAt u.node r.right = .ok b) := by
  have hf := (nodeAt_ok.1 h).2
  have hi := (ha.2 _ (tableFind_mem hf)).2 hl
  have hlt := tableFind_lt ha.1 hf
  have hsum := hi.2.2.2
  have child : ∀ c : NodeId, (∃ a, childFreq u.node n.toNat c = some a) → c.toNat < n.toNat ∧ ∃ a, nodeAt u.node c = .ok a := by
    rintro c ⟨a, hc⟩
    unfold childFreq at hc
    split at hc
    · rename_i hcn
      rw [Option.map_eq_some_iff] at hc
      obtain ⟨x, hx, -⟩ := hc
      exact ⟨hcn, x, nodeAt_ok.2 ⟨by rintro rfl; simp [Config.noneId] at hcn; omega, hx⟩⟩
    · cases hc
  simp only [childrenSum] at hsum
  cases hcl : childFreq u.node n.toNat r.left with
  | none => simp [hcl] at hsum
  | some a =>
    cases hcr : childFreq u.node n.toNat r.right with
    | none => simp [hcl, hcr] at hsum
    | some b => exact ⟨hi.1, by omega, child _ ⟨a, hcl⟩, child _ ⟨b, hcr⟩⟩

/-- The walk from a recorded node of a sound arena ends, writes only the code table, and keeps any property that recording the path to a
leaf keeps. The bound: from an internal node of id n a path takes at most n − 255 more choices. -/
theorem walk_ok (P : Encoder → Prop) {u : TreeUnit} (ha : arenaOk u) (room : Nat) {e : Encoder} {n : NodeId} {path : List Bool}
    (he : e.tree = u) (hn : ∃ r, nodeAt u.node n = .ok r) (hlen : path.length + (n.toNat - 255) ≤ 255)
    (hroom : 257 ≤ room + path.length) (hP : P e)
    (hset : ∀ v v' q m r, v.tree = u → P v → follow u.node n q = some m → nodeAt u.node m = .ok r → r.leaf = true →
      setCode v r.sym (path ++ q) = .ok v' → P v') :
    ∃ e', walk room e n path = .ok e' ∧ P e' ∧ e' = { e with clen := e'.clen, cbits := e'.cbits } := by
  induction room generalizing e n path with
  | zero => omega
  | succ room ih =>
    obtain ⟨r, hr⟩ := hn
    have hr' : nodeAt e.tree.node n = .ok r := he ▸ hr
    unfold walk
    simp only [hr']
    cases hl : r.leaf with
    | true =>
      have hset' := setCode_ok e r.sym (path := path) (by omega)
      simp only [if_true]
      refine ⟨_, hset', ?_, rfl⟩
      exact hset e _ [] n r he hP (follow_nil _ _) hr hl (by rw [List.append_nil]; exact hset')
    | false =>
      obtain ⟨h1, h2, ⟨hlt, hla⟩, ⟨hrt, hrb⟩⟩ := children_ok ha hr hl
      simp only [Bool.false_eq_true, if_false]
      obtain ⟨e1, hw1, hP1, hf1⟩ := ih (path := path ++ [false]) he hla (by simp; omega) (by simp; omega) hP
        (fun v v' q m rr hv hPv hq hm hlf hs =>
          hset v v' (false :: q) m rr hv hPv (by rw [follow_cons hr hl]; exact hq) hm hlf (by simpa using hs))
      simp only [hw1]
      have he1 : e1.tree = u := by rw [hf1]; exact he
      obtain ⟨e2, hw2, hP2, hf2⟩ := ih (path := path ++ [true]) he1 hrb (by simp; omega) (by simp; omega) hP1
        (fun v v' q m rr hv hPv hq hm hlf hs =>
          hset v v' (true :: q) m rr hv hPv (by rw [follow_cons hr hl]; exact hq) hm hlf (by simpa using hs))
      exact ⟨e2, hw2, hP2, hf2.trans (by rw [hf1])⟩

/-- What a recorded code of a tree part can be (R131, R132): the one-bit code of a leaf root, or the path from the root to a leaf. -/
def IsCode (u : TreeUnit) (s : Byte) (path : List Bool) : Prop :=
  ∃ root, nodeAt u.node u.root = .ok root ∧
    (root.leaf = true ∧ s = root.sym ∧ path = [false] ∨
      root.leaf = false ∧ ∃ m r, follow u.node u.root path = some m ∧ nodeAt u.node m = .ok r ∧ r.leaf = true ∧ s = r.sym)

/-- `CODE_DERIVE` on a sound tree part succeeds, writes only the code table, and keeps any property that holds of the emptied table and
that recording a code keeps. -/
theorem codeDerive_ok (P : Encoder → Prop) {e : Encoder} (ht : treeOk e.tree) (hP : P { e with clen := [] })
    (hset : ∀ v v' s path, v.tree = e.tree → P v → IsCode e.tree s path → setCode v s path = .ok v' → P v') :
    ∃ e', codeDerive e = .ok e' ∧ P e' ∧ e' = { e with clen := e'.clen, cbits := e'.cbits } := by
  obtain ⟨-, -, -, ha, hroot⟩ := ht
  unfold codeDerive
  split
  · exact ⟨_, rfl, hP, rfl⟩
  · rename_i hne
    have hsome := hroot.resolve_left hne
    obtain ⟨r, hr⟩ := Option.isSome_iff_exists.1 hsome
    have hr' : nodeAt e.tree.node e.tree.root = .ok r := nodeAt_ok.2 ⟨hne, hr⟩
    simp only [hr']
    cases hl : r.leaf with
    | true =>
      simp only [if_true]
      have hs := setCode_ok { e with clen := [] } r.sym (path := Config.singleCode) (by simp [Config.singleCode])
      exact ⟨_, hs, hset { e with clen := [] } _ _ _ rfl hP ⟨r, hr', .inl ⟨hl, rfl, rfl⟩⟩ hs, rfl⟩
    | false =>
      simp only [Bool.false_eq_true, if_false]
      obtain ⟨h1, h2, -, -⟩ := children_ok ha hr' hl
      obtain ⟨e', hw, hPe, hf⟩ := walk_ok P ha (Config.pathCap + 1) (e := { e with clen := [] }) (n := e.tree.root) (path := []) rfl
        ⟨r, hr'⟩ (by simp; omega) (by simp [Config.pathCap]) hP
        (fun v v' q m rr hv hPv hq hm hlf hs =>
          hset v v' rr.sym q hv hPv ⟨r, hr', .inr ⟨hl, m, rr, hq, hm, hlf, rfl⟩⟩ (by simpa using hs))
      exact ⟨e', hw, hPe, hf⟩

end Sys2Proof.Machine
end

