-- ==== Sys2Proof/Laws/Priority.lean ====
section
/-! SUPPORT. The priority structure: the sifts never stop on a heap of recorded ids and only permute it, so that an insertion adds its id
and an extraction removes the one it returns (spec/41_priority_structure.md R112 to R115). -/

namespace Sys2Proof.Machine

/-- Every id of the heap has a record. -/
def Recorded (node : List (Nat × NodeRec)) (heap : List NodeId) : Prop := ∀ n ∈ heap, ∃ r, nodeAt node n = .ok r

theorem Recorded.perm {node : List (Nat × NodeRec)} {h h' : List NodeId} (hr : Recorded node h) (hp : h'.Perm h) :
    Recorded node h' := fun n hn => hr n (hp.mem_iff.1 hn)

theorem slotAt_lt {heap : List NodeId} {i : Nat} (h : i < heap.length) : slotAt heap i = .ok heap[i] := by
  simp [slotAt, h]

/-- `less` on recorded ids compares their keys. -/
theorem less_ok {node : List (Nat × NodeRec)} {a b : NodeId} {ra rb : NodeRec} (ha : nodeAt node a = .ok ra)
    (hb : nodeAt node b = .ok rb) : less node a b = .ok (keyLess ra.freq a rb.freq b) := by
  simp [less, ha, hb]

/-- `less` answers on recorded ids. -/
theorem less_recorded {node : List (Nat × NodeRec)} {a b : NodeId} (ha : ∃ r, nodeAt node a = .ok r)
    (hb : ∃ r, nodeAt node b = .ok r) : ∃ c, less node a b = .ok c := by
  obtain ⟨ra, ha⟩ := ha
  obtain ⟨rb, hb⟩ := hb
  exact ⟨_, less_ok ha hb⟩

/-- A swap of two slots permutes the heap. -/
theorem swapSlots_perm {heap : List NodeId} {i j : Nat} (hi : i < heap.length) (hj : j < heap.length) :
    (swapSlots heap i heap[i] j heap[j]).Perm heap := by
  unfold swapSlots
  exact List.set_set_perm hi hj

theorem swapSlots_length (heap : List NodeId) (i j : Nat) (x y : NodeId) : (swapSlots heap i x j y).length = heap.length := by
  simp [swapSlots]

/-- The sift of `PQ_INSERT` on recorded ids ends, and permutes the heap. -/
theorem siftUp_perm {node : List (Nat × NodeRec)} (bound : Nat) {heap : List NodeId} {i : Nat} (hr : Recorded node heap)
    (hi : i < heap.length) (hb : i ≤ bound) : ∃ h, siftUp node bound heap i = .ok h ∧ h.Perm heap := by
  induction bound generalizing heap i with
  | zero =>
    have : i = 0 := by omega
    exact ⟨heap, by simp [siftUp, this], .refl _⟩
  | succ bound ih =>
    unfold siftUp
    split
    · exact ⟨heap, rfl, .refl _⟩
    · rename_i h0
      have hp : (i - 1) / 2 < heap.length := by omega
      rw [slotAt_lt hi, slotAt_lt hp]
      obtain ⟨c, hc⟩ := less_recorded (hr _ (List.getElem_mem hi)) (hr _ (List.getElem_mem hp))
      simp only [hc]
      cases c with
      | false => exact ⟨heap, rfl, .refl _⟩
      | true =>
        have hperm := swapSlots_perm hi hp
        obtain ⟨h, hh, hh'⟩ := ih (hr.perm hperm) (i := (i - 1) / 2) (by rw [swapSlots_length]; omega) (by omega)
        exact ⟨h, hh, hh'.trans hperm⟩

/-- `PQ_INSERT` with at most 255 entries, all recorded, answers a heap with the old ids and the new one. -/
theorem pqInsert_perm {node : List (Nat × NodeRec)} {heap : List NodeId} {n : NodeId} (hr : Recorded node heap)
    (hn : ∃ r, nodeAt node n = .ok r) (hl : heap.length < 256) :
    ∃ h, pqInsert node heap n = .ok h ∧ h.Perm (n :: heap) := by
  have hr' : Recorded node (heap ++ [n]) := by
    intro m hm
    rcases List.mem_append.1 hm with hm | hm
    · exact hr m hm
    · rw [List.mem_singleton.1 hm]; exact hn
  obtain ⟨h, hh, hp⟩ := siftUp_perm heap.length hr' (i := heap.length) (by simp) (Nat.le_refl _)
  refine ⟨h, ?_, hp.trans (List.perm_append_singleton n heap)⟩
  simp [pqInsert, Config.pqCap, hl, hh]

/-- One comparison of the sift of `PQ_EXTRACT_MIN` answers one of the two slots, and one that is live. -/
theorem smallerChild_ok {node : List (Nat × NodeRec)} {heap : List NodeId} {c m : Nat} (hr : Recorded node heap)
    (hm : m < heap.length) : ∃ k, smallerChild node heap c m = .ok k ∧ (k = m ∨ (k = c ∧ c < heap.length)) := by
  unfold smallerChild
  split
  · rename_i hc
    rw [slotAt_lt hc, slotAt_lt hm]
    obtain ⟨b, hb⟩ := less_recorded (hr _ (List.getElem_mem hc)) (hr _ (List.getElem_mem hm))
    simp only [hb]
    cases b
    · exact ⟨m, rfl, .inl rfl⟩
    · exact ⟨c, rfl, .inr ⟨rfl, hc⟩⟩
  · exact ⟨m, rfl, .inl rfl⟩

/-- The slot the sift goes on with is the slot itself or a live child. -/
theorem siftTarget_ok {node : List (Nat × NodeRec)} {heap : List NodeId} {i : Nat} (hr : Recorded node heap)
    (hi : i < heap.length) : ∃ m, siftTarget node heap i = .ok m ∧ m < heap.length ∧ (m = i ∨ i < m) := by
  unfold siftTarget
  obtain ⟨k, hk, hk'⟩ := smallerChild_ok (c := 2 * i + 1) hr hi
  simp only [hk]
  obtain ⟨m, hm, hm'⟩ := smallerChild_ok (c := 2 * i + 2) (m := k) hr (by omega)
  exact ⟨m, hm, by omega, by omega⟩

/-- The sift of `PQ_EXTRACT_MIN` on recorded ids ends, and permutes the heap. -/
theorem siftDown_perm {node : List (Nat × NodeRec)} (bound : Nat) {heap : List NodeId} {i : Nat} (hr : Recorded node heap)
    (hi : i < heap.length) (hb : heap.length ≤ i + bound) : ∃ h, siftDown node bound heap i = .ok h ∧ h.Perm heap := by
  induction bound generalizing heap i with
  | zero => omega
  | succ bound ih =>
    unfold siftDown
    obtain ⟨m, hm, hml, hmi⟩ := siftTarget_ok hr hi
    simp only [hm]
    split
    · exact ⟨heap, rfl, .refl _⟩
    · rename_i hne
      rw [slotAt_lt hi, slotAt_lt hml]
      have hperm := swapSlots_perm hi hml
      obtain ⟨h, hh, hh'⟩ := ih (hr.perm hperm) (i := m) (by rw [swapSlots_length]; exact hml)
        (by rw [swapSlots_length]; omega)
      exact ⟨h, hh, hh'.trans hperm⟩

/-- `PQ_EXTRACT_MIN` on a heap that is not empty, all recorded, answers the id of slot 0 and a heap with the other ids. -/
theorem pqExtractMin_perm {node : List (Nat × NodeRec)} {heap : List NodeId} (hr : Recorded node heap) (hne : heap ≠ []) :
    ∃ m h, pqExtractMin node heap = .ok (m, h) ∧ heap.Perm (m :: h) ∧ heap.head? = some m := by
  obtain ⟨r, t, rfl⟩ := List.exists_cons_of_ne_nil hne
  unfold pqExtractMin
  rcases List.eq_nil_or_concat t with rfl | ⟨t, last, rfl⟩
  · exact ⟨r, [], by simp, .refl _, rfl⟩
  · simp only [List.concat_eq_append] at *
    have hl : (r :: (t ++ [last])).getLast? = some last := by simp [List.getLast?_cons]
    have hd : (r :: (t ++ [last])).dropLast.set 0 last = last :: t := by
      rw [show r :: (t ++ [last]) = (r :: t) ++ [last] from rfl, List.dropLast_concat]
      rfl
    have hp : (last :: t).Perm (t ++ [last]) := (List.perm_append_singleton last t).symm
    have hr' : Recorded node (last :: t) := fun n hn => hr n (List.mem_cons_of_mem _ (hp.mem_iff.1 hn))
    obtain ⟨h, hh, hh'⟩ := siftDown_perm (r :: (t ++ [last])).length hr' (i := 0) (by simp) (by simp)
    refine ⟨r, h, ?_, ((hh'.trans hp).symm.cons r), rfl⟩
    simp only [hl, hd, hh]
    simp

end Sys2Proof.Machine
end

