-- ==== Sys2Proof/Laws/TreeBuilder.lean ====
section
/-! SUPPORT. The tree builder: `TREE_BUILD` never stops, whatever the unit held (spec/42_tree_builder.md R121, R124), and on a unit that
has no tree yet it leaves a sound one. -/

namespace Sys2Proof.Machine

/-- The frequency of a recorded id. -/
def nodeFreq (node : List (Nat × NodeRec)) (n : NodeId) : Nat :=
  match nodeAt node n with
  | .ok r => r.freq.toNat
  | .error _ => 0

/-- The sum of the frequencies of the ids in the heap: the merges keep it. -/
def heapSum (node : List (Nat × NodeRec)) (heap : List NodeId) : Nat := (heap.map (nodeFreq node)).sum

theorem heapSum_perm {node : List (Nat × NodeRec)} {h h' : List NodeId} (hp : h.Perm h') : heapSum node h = heapSum node h' :=
  (hp.map _).sum_eq

theorem heapSum_congr {node node' : List (Nat × NodeRec)} {h : List NodeId}
    (hn : ∀ n ∈ h, nodeAt node' n = nodeAt node n) : heapSum node' h = heapSum node h := by
  unfold heapSum
  congr 1
  refine List.map_congr_left fun n hm => ?_
  simp only [nodeFreq, hn n hm]

/-- What holds of the unit while `TREE_BUILD` runs. -/
structure Building (freq : List (Nat × Word32)) (u : TreeUnit) : Prop where
  table : u.freq = freq
  heapRec : Recorded u.node u.heap
  below : ∀ n ∈ u.heap, n.toNat < u.nnext.toNat
  first : 256 ≤ u.nnext.toNat
  room  : u.nnext.toNat + u.heap.length ≤ 512
  sum   : heapSum u.node u.heap < 2 ^ 40

theorem ne_noneId_of_lt {n : NodeId} (h : n.toNat < 511) : n ≠ Config.noneId := by
  rintro rfl
  simp [Config.noneId] at h

theorem noneId_toNat : Config.noneId.toNat = 511 := rfl

theorem leafId_toNat {s : Nat} (h : s < 256) : (BitVec.ofNat 9 s).toNat = s := by
  simp only [BitVec.toNat_ofNat]
  omega

/-! ### The leaf loop -/

/-- What the leaf loop adds to the heap's sum is at most 2^32 − 1 a leaf. -/
theorem leafRec_freq_le (u : TreeUnit) (s : Nat) : (leafRec u s).freq.toNat ≤ 2 ^ 32 - 1 := by
  simp only [leafRec, BitVec.toNat_setWidth]
  have := (freqAt u s).isLt
  omega

/-- One turn of the leaf loop of `TREE_BUILD` (R121). -/
theorem insertLeaf_ok {freq : List (Nat × Word32)} {u : TreeUnit} {s k : Nat} (hb : Building freq u)
    (hn : u.nnext = Config.firstInternal) (hs : s < 256) (hfresh : ∀ n ∈ u.heap, n.toNat ≠ s) (hk : u.heap.length ≤ k)
    (hk' : k < 256) (hsum : heapSum u.node u.heap ≤ k * (2 ^ 32 - 1)) :
    ∃ u', insertLeaf u s = .ok u' ∧ Building freq u' ∧ u'.nnext = Config.firstInternal ∧ u'.root = u.root ∧
      (∀ n ∈ u'.heap, n ∈ u.heap ∨ n.toNat = s) ∧ u'.heap.length ≤ k + 1 ∧
      heapSum u'.node u'.heap ≤ (k + 1) * (2 ^ 32 - 1) ∧
      (freqAt u s = 0#32 ∧ u' = u ∨
        freqAt u s ≠ 0#32 ∧ u'.node = (setNode u (BitVec.ofNat 9 s) (leafRec u s)).node ∧
          u'.heap.Perm (BitVec.ofNat 9 s :: u.heap)) := by
  unfold insertLeaf
  split
  · rename_i h0
    exact ⟨u, rfl, hb, hn, rfl, fun n h => .inl h, by omega, by nlinarith, .inl ⟨h0, rfl⟩⟩
  · rename_i h0
    have hid : (BitVec.ofNat 9 s).toNat = s := leafId_toNat hs
    have hne : BitVec.ofNat 9 s ≠ Config.noneId := ne_noneId_of_lt (by omega)
    have hold : ∀ n ∈ u.heap, nodeAt (setNode u (BitVec.ofNat 9 s) (leafRec u s)).node n = nodeAt u.node n := by
      intro n hm
      rw [nodeAt_setNode _ _ _ _ hne, if_neg]
      rintro rfl
      exact hfresh _ hm hid
    have hnew : nodeAt (setNode u (BitVec.ofNat 9 s) (leafRec u s)).node (BitVec.ofNat 9 s) = .ok (leafRec u s) := by
      rw [nodeAt_setNode _ _ _ _ hne, if_pos rfl]
    have hrec : Recorded (setNode u (BitVec.ofNat 9 s) (leafRec u s)).node u.heap :=
      fun n hm => by rw [hold n hm]; exact hb.heapRec n hm
    obtain ⟨h, hh, hp⟩ := pqInsert_perm hrec ⟨_, hnew⟩ (by omega)
    simp only [hh]
    have hlen : h.length = u.heap.length + 1 := by simpa using hp.length_eq
    have hsum' : heapSum (setNode u (BitVec.ofNat 9 s) (leafRec u s)).node h ≤ (k + 1) * (2 ^ 32 - 1) := by
      rw [heapSum_perm hp]
      have h1 : nodeFreq (setNode u (BitVec.ofNat 9 s) (leafRec u s)).node (BitVec.ofNat 9 s) ≤ 2 ^ 32 - 1 := by
        simp only [nodeFreq, hnew]
        exact leafRec_freq_le u s
      have h2 : heapSum (setNode u (BitVec.ofNat 9 s) (leafRec u s)).node u.heap = heapSum u.node u.heap :=
        heapSum_congr hold
      have h3 : heapSum (setNode u (BitVec.ofNat 9 s) (leafRec u s)).node (BitVec.ofNat 9 s :: u.heap) =
          nodeFreq (setNode u (BitVec.ofNat 9 s) (leafRec u s)).node (BitVec.ofNat 9 s) +
            heapSum (setNode u (BitVec.ofNat 9 s) (leafRec u s)).node u.heap := by simp [heapSum]
      rw [h3, h2]
      nlinarith
    have hfst : u.nnext.toNat = 256 := by rw [hn]; rfl
    refine ⟨_, rfl, ⟨hb.table, ?_, ?_, hb.first, ?_, ?_⟩, hn, rfl, ?_, by simp only [hlen]; omega, hsum', .inr ⟨h0, rfl, hp⟩⟩
    · intro n hm
      rcases List.mem_cons.1 (hp.mem_iff.1 hm) with rfl | hm
      · exact ⟨_, hnew⟩
      · exact hrec n hm
    · intro n hm
      rcases List.mem_cons.1 (hp.mem_iff.1 hm) with rfl | hm
      · simp only [setNode_nnext]; omega
      · exact hb.below n hm
    · simp only [setNode_nnext, hlen]; omega
    · refine lt_of_le_of_lt hsum' ?_
      have : (k + 1) * (2 ^ 32 - 1) ≤ 256 * (2 ^ 32 - 1) := Nat.mul_le_mul_right _ (by omega)
      omega
    · intro n hm
      rcases List.mem_cons.1 (hp.mem_iff.1 hm) with rfl | hm
      · exact .inr hid
      · exact .inl hm

/-- The leaf loop of `TREE_BUILD` (R121) ends, and keeps any property of the symbols still to come and the unit that one turn keeps. -/
theorem insertLeaves_ok (P : List Nat → TreeUnit → Prop) {freq : List (Nat × Word32)} (l : List Nat) {u : TreeUnit} {k : Nat}
    (hb : Building freq u) (hP : P l u)
    (hstep : ∀ v s rest v', s < 256 → Building freq v → v.nnext = Config.firstInternal → P (s :: rest) v →
      insertLeaf v s = .ok v' → P rest v')
    (hn : u.nnext = Config.firstInternal) (hl : ∀ s ∈ l, s < 256) (hnd : l.Nodup) (hfresh : ∀ n ∈ u.heap, n.toNat ∉ l)
    (hk : u.heap.length ≤ k) (hk' : k + l.length ≤ 256) (hsum : heapSum u.node u.heap ≤ k * (2 ^ 32 - 1)) :
    ∃ u', insertLeaves l u = .ok u' ∧ Building freq u' ∧ u'.nnext = Config.firstInternal ∧ P [] u' := by
  induction l generalizing u k with
  | nil => exact ⟨u, rfl, hb, hn, hP⟩
  | cons s l ih =>
    simp only [List.length_cons] at hk'
    obtain ⟨u1, h1, hb1, hn1, _, hm1, hl1, hs1, _⟩ :=
      insertLeaf_ok hb hn (hl s List.mem_cons_self) (fun n hm hc => hfresh n hm (hc ▸ List.mem_cons_self)) hk (by omega) hsum
    obtain ⟨u', hu', hb', hn', hP'⟩ := ih hb1 (hstep u s l u1 (hl s List.mem_cons_self) hb hn hP h1) hn1
      (fun s' hs' => hl s' (List.mem_cons_of_mem _ hs')) (List.nodup_cons.1 hnd).2
      (fun n hm hc => by
        rcases hm1 n hm with hm | hm
        · exact hfresh n hm (List.mem_cons_of_mem _ hc)
        · exact (List.nodup_cons.1 hnd).1 (hm ▸ hc)) hl1 (by omega) hs1
    exact ⟨u', by simp [insertLeaves, h1, hu'], hb', hn', hP'⟩

/-! ### The merge loop -/

/-- One turn of the merge loop (R121): what it answers, with the two ids and the record it wrote. -/
theorem mergeOnce_ok {freq : List (Nat × Word32)} {u : TreeUnit} (hb : Building freq u) (h2 : 2 ≤ u.heap.length) :
    ∃ u' a b ra rb rest, mergeOnce u = .ok u' ∧ Building freq u' ∧ u'.heap.length + 1 = u.heap.length ∧
      u.heap.Perm (a :: b :: rest) ∧ u'.heap.Perm (u.nnext :: rest) ∧
      nodeAt u.node a = .ok ra ∧ nodeAt u.node b = .ok rb ∧ ra.freq.toNat + rb.freq.toNat < 2 ^ 40 ∧
      u.nnext.toNat ≤ 510 ∧ u'.nnext.toNat = u.nnext.toNat + 1 ∧ u'.root = u.root ∧
      u'.node = (setNode u u.nnext { freq := ra.freq + rb.freq, left := a, right := b, leaf := false, sym := 0#8 }).node ∧
      heapSum u'.node u'.heap = heapSum u.node u.heap := by
  have hne : u.heap ≠ [] := by intro h; simp [h] at h2
  obtain ⟨a, h1, he1, hp1, -⟩ := pqExtractMin_perm hb.heapRec hne
  have hl1 : u.heap.length = h1.length + 1 := by simpa using hp1.length_eq
  have hr1 : Recorded u.node h1 := fun n hm => hb.heapRec n (hp1.mem_iff.2 (List.mem_cons_of_mem _ hm))
  have hne1 : h1 ≠ [] := by intro h; simp [h] at hl1; omega
  obtain ⟨b, rest, he2, hp2, -⟩ := pqExtractMin_perm hr1 hne1
  have hl2 : h1.length = rest.length + 1 := by simpa using hp2.length_eq
  have hp : u.heap.Perm (a :: b :: rest) := hp1.trans (hp2.cons a)
  obtain ⟨ra, hra⟩ := hb.heapRec a (hp.mem_iff.2 (by simp))
  obtain ⟨rb, hrb⟩ := hb.heapRec b (hp.mem_iff.2 (by simp))
  have hsplit : heapSum u.node u.heap = ra.freq.toNat + (rb.freq.toNat + heapSum u.node rest) := by
    rw [heapSum_perm hp]
    simp [heapSum, nodeFreq, hra, hrb]
  have hlt : ra.freq.toNat + rb.freq.toNat < 2 ^ 40 := by have := hb.sum; omega
  have hnn : u.nnext.toNat ≤ 510 := by have := hb.room; omega
  have hnone : u.nnext ≠ Config.noneId := ne_noneId_of_lt (by omega)
  generalize hr : ({ freq := ra.freq + rb.freq, left := a, right := b, leaf := false, sym := 0#8 } : NodeRec) = r
  have hrest : ∀ n ∈ rest, nodeAt (setNode u u.nnext r).node n = nodeAt u.node n := by
    intro n hm
    rw [nodeAt_setNode _ _ _ _ hnone, if_neg]
    rintro rfl
    exact absurd (hb.below _ (hp.mem_iff.2 (by simp [hm]))) (Nat.lt_irrefl _)
  have hnew : nodeAt (setNode u u.nnext r).node u.nnext = .ok r := by rw [nodeAt_setNode _ _ _ _ hnone, if_pos rfl]
  have hrr : Recorded (setNode u u.nnext r).node rest := fun n hm => by
    rw [hrest n hm]
    exact hb.heapRec n (hp.mem_iff.2 (by simp [hm]))
  obtain ⟨h3, hh3, hp3⟩ := pqInsert_perm hrr ⟨_, hnew⟩ (by have := hb.room; have := hb.first; omega)
  have hl3 : h3.length = rest.length + 1 := by simpa using hp3.length_eq
  have hnext : (u.nnext + 1#9).toNat = u.nnext.toNat + 1 := by
    rw [BitVec.toNat_add]
    simp only [BitVec.toNat_ofNat]
    omega
  have hfreq : r.freq.toNat = ra.freq.toNat + rb.freq.toNat := by
    subst hr
    simp only [BitVec.toNat_add]
    exact Nat.mod_eq_of_lt hlt
  have hsum : heapSum (setNode u u.nnext r).node h3 = heapSum u.node u.heap := by
    rw [heapSum_perm hp3, hsplit]
    have : heapSum (setNode u u.nnext r).node (u.nnext :: rest) =
        nodeFreq (setNode u u.nnext r).node u.nnext + heapSum (setNode u u.nnext r).node rest := by simp [heapSum]
    rw [this, heapSum_congr hrest]
    simp only [nodeFreq, hnew, hfreq]
    omega
  refine ⟨{ setNode u u.nnext r with heap := h3, nnext := u.nnext + 1#9 }, a, b, ra, rb, rest, ?_, ⟨hb.table, ?_, ?_, ?_, ?_, ?_⟩,
    ?_, hp, hp3, hra, hrb, hlt, hnn, hnext, rfl, by rw [hr], hsum⟩
  · simp only [mergeOnce, he1, he2, addMerged, if_neg hnone, hra, hrb, mergedRec, if_pos hlt, hr, hh3]
  · intro n hm
    rcases List.mem_cons.1 (hp3.mem_iff.1 hm) with rfl | hm
    · exact ⟨_, hnew⟩
    · exact hrr n hm
  · intro n hm
    simp only [hnext]
    rcases List.mem_cons.1 (hp3.mem_iff.1 hm) with rfl | hm
    · omega
    · have := hb.below n (hp.mem_iff.2 (by simp [hm]))
      omega
  · simp only [hnext]; have := hb.first; omega
  · simp only [hnext, hl3]; have := hb.room; omega
  · rw [hsum]; exact hb.sum
  · simp only [hl3]; omega

/-- The merge loop (R121) ends with at most one id in the heap, and keeps any property of the unit that one turn keeps. -/
theorem mergeLoop_ok (P : TreeUnit → Prop) {freq : List (Nat × Word32)} (bound : Nat) {u : TreeUnit} (hb : Building freq u) (hP : P u)
    (hstep : ∀ v v', Building freq v → 2 ≤ v.heap.length → P v → mergeOnce v = .ok v' → P v') (hbd : u.heap.length ≤ bound) :
    ∃ u', mergeLoop bound u = .ok u' ∧ Building freq u' ∧ u'.heap.length ≤ 1 ∧ P u' := by
  induction bound generalizing u with
  | zero => exact ⟨u, by simp [mergeLoop]; omega, hb, by omega, hP⟩
  | succ bound ih =>
    unfold mergeLoop
    split
    · rename_i h1
      exact ⟨u, rfl, hb, h1, hP⟩
    · rename_i h1
      obtain ⟨u1, -, -, -, -, -, hm, hb1, hl1, -⟩ := mergeOnce_ok hb (by omega)
      simp only [hm]
      exact ih hb1 (hstep u u1 hb (by omega) hP hm) (by omega)

/-! ### The whole -/

/-- `TREE_BUILD` (R121) of any unit succeeds, and any property of the symbols still to come and the unit that its two loops keep holds
before the root is taken. -/
theorem treeBuild_ok (P : List Nat → TreeUnit → Prop) (u : TreeUnit)
    (hP : P Config.symbols { u with heap := [], nnext := Config.firstInternal })
    (hleaf : ∀ v s rest v', s < 256 → Building u.freq v → v.nnext = Config.firstInternal → P (s :: rest) v →
      insertLeaf v s = .ok v' → P rest v')
    (hmerge : ∀ v v', Building u.freq v → 2 ≤ v.heap.length → P [] v → mergeOnce v = .ok v' → P [] v') :
    ∃ v, treeBuild u = .ok (takeRoot v) ∧ Building u.freq v ∧ v.heap.length ≤ 1 ∧ P [] v := by
  have hb0 : Building u.freq { u with heap := [], nnext := Config.firstInternal } :=
    ⟨rfl, by simp [Recorded], by simp, by simp [Config.firstInternal], by simp [Config.firstInternal], by simp [heapSum]⟩
  obtain ⟨u1, h1, hb1, -, hP1⟩ := insertLeaves_ok P Config.symbols (k := 0) hb0 hP hleaf rfl
    (fun s hs => by simpa [Config.symbols, Config.nsym] using hs) (by simp [Config.symbols, List.nodup_range]) (by simp) (by simp)
    (by simp [Config.symbols, Config.nsym]) (by simp [heapSum])
  obtain ⟨u2, h2, hb2, hl2, hP2⟩ := mergeLoop_ok (P []) u1.heap.length hb1 hP1 hmerge (Nat.le_refl _)
  exact ⟨u2, by simp [treeBuild, h1, h2], hb2, hl2, hP2⟩

/-- `TREE_BUILD` never stops; it keeps the table and empties the heap (R121, R124 (e)). -/
theorem treeBuild_total (u : TreeUnit) :
    ∃ t, treeBuild u = .ok t ∧ t.freq = u.freq ∧ t.heap = [] ∧ 256 ≤ t.nnext.toNat := by
  obtain ⟨v, hv, hb, -, -⟩ := treeBuild_ok (fun _ _ => True) u trivial (fun _ _ _ _ _ _ _ _ _ => trivial) (fun _ _ _ _ _ _ => trivial)
  exact ⟨takeRoot v, hv, hb.table, rfl, hb.first⟩

/-! ### The arena left on a unit without a tree -/

/-- A leaf's record, written where every listed record is sound and no internal node exists, keeps the arena sound. -/
theorem arenaOk_insertLeaf {u u' : TreeUnit} {s : Nat} (hs : s < 256)
    (hn : u.nnext = Config.firstInternal) (ha : arenaOk u) (h : insertLeaf u s = .ok u') : arenaOk u' := by
  unfold insertLeaf at h
  split at h
  · cases h
    exact ha
  · rename_i h0
    split at h
    · rename_i hp _
      cases h
      have hid : (BitVec.ofNat 9 s).toNat = s := leafId_toNat hs
      refine ⟨?_, ?_⟩
      · simp only [setNode_node, hid]
        exact tableWf_insert _ (by omega) ha.1
      · intro e he
        simp only [setNode_node, hid] at he
        rcases mem_tableInsert he with rfl | he
        · refine ⟨fun _ => ⟨?_, rfl, rfl, rfl, h0⟩, fun hc => by simp [leafRec] at hc⟩
          simp only [leafRec, BitVec.toNat_ofNat]
          omega
        · refine ⟨fun hl => (ha.2 e he).1 hl, fun hl => ?_⟩
          have := (ha.2 e he).2 hl
          rw [innerOk, hn] at this
          have h1 := this.1
          have h2 := this.2.1
          simp [Config.firstInternal] at h2
          omega
    · cases h

theorem childFreq_insert {node : List (Nat × NodeRec)} {p k : Nat} (r : NodeRec) (c : NodeId) (h : p ≤ k) :
    childFreq (tableInsert node k r) p c = childFreq node p c := by
  unfold childFreq
  split
  · rw [tableFind_insert, if_neg (by omega)]
  · rfl

theorem childrenSum_insert {node : List (Nat × NodeRec)} {p k : Nat} (r : NodeRec) (a b : NodeId) (h : p ≤ k) :
    childrenSum (tableInsert node k r) p a b = childrenSum node p a b := by
  unfold childrenSum
  rw [childFreq_insert r a h, childFreq_insert r b h]

/-- A merged node, written under the next id over two recorded ids below it, keeps the arena sound. -/
theorem arenaOk_mergeOnce {freq : List (Nat × Word32)} {u u' : TreeUnit} (hb : Building freq u) (h2 : 2 ≤ u.heap.length)
    (ha : arenaOk u) (h : mergeOnce u = .ok u') : arenaOk u' := by
  obtain ⟨v, a, b, ra, rb, rest, hv, hbv, -, hp, -, hra, hrb, hlt, hnn, hnext, -, hnode, -⟩ := mergeOnce_ok hb h2
  obtain rfl : v = u' := by rw [hv] at h; cases h; rfl
  have hta : u.freq = v.freq := by rw [hb.table, hbv.table]
  have hba := hb.below a (hp.mem_iff.2 (by simp))
  have hbb := hb.below b (hp.mem_iff.2 (by simp))
  rw [setNode_node] at hnode
  refine ⟨by rw [hnode]; exact tableWf_insert _ (by omega) ha.1, ?_⟩
  intro e he
  rw [hnode] at he
  rcases mem_tableInsert he with rfl | he
  · refine ⟨fun hc => by simp at hc, fun _ => ⟨hb.first, by simp only [hnext]; omega, rfl, ?_⟩⟩
    rw [hnode, childrenSum_insert _ _ _ (Nat.le_refl _)]
    simp only [childrenSum, childFreq, if_pos hba, if_pos hbb, (nodeAt_ok.1 hra).2, (nodeAt_ok.1 hrb).2, Option.map_some,
      BitVec.toNat_add, Option.some.injEq]
    exact (Nat.mod_eq_of_lt hlt).symm
  · refine ⟨fun hl => ?_, fun hl => ?_⟩
    · have := (ha.2 e he).1 hl
      refine ⟨this.1, this.2.1, this.2.2.1, ?_, ?_⟩
      · rw [freqAt_congr hta.symm]; exact this.2.2.2.1
      · rw [freqAt_congr hta.symm]; exact this.2.2.2.2
    · have := (ha.2 e he).2 hl
      refine ⟨this.1, by have := this.2.1; omega, this.2.2.1, ?_⟩
      rw [hnode, childrenSum_insert _ _ _ (Nat.le_of_lt this.2.1)]
      exact this.2.2.2

/-- Taking the root of a heap of at most one recorded id leaves a sound tree part. -/
theorem treeOk_takeRoot {freq : List (Nat × Word32)} {v : TreeUnit} (hf : tableWfD 0#32 256 freq = true) (hb : Building freq v)
    (ha : arenaOk v) : treeOk (takeRoot v) := by
  refine ⟨by rw [← hb.table] at hf; exact hf, rfl, hb.first, ha, ?_⟩
  cases hh : v.heap with
  | nil => exact .inl (by simp [takeRoot, hh])
  | cons r t =>
    right
    obtain ⟨rr, hr⟩ := hb.heapRec r (by simp [hh])
    simp [takeRoot, hh, (nodeAt_ok.1 hr).2]

/-- `TREE_BUILD` on a unit that has no tree yet, with a canonical table, leaves a sound tree part (R32, R121). -/
theorem treeBuild_treeOk {u : TreeUnit} (hf : tableWfD 0#32 256 u.freq = true) (hn : noTree u) :
    ∃ t, treeBuild u = .ok t ∧ treeOk t ∧ t.freq = u.freq := by
  obtain ⟨v, hv, hb, -, ha⟩ := treeBuild_ok (fun _ => arenaOk) u (by simp [arenaOk, hn.1])
    (fun v s _ v' hs _ hn ha h => arenaOk_insertLeaf hs hn ha h) (fun v v' hb h2 ha h => arenaOk_mergeOnce hb h2 ha h)
  exact ⟨takeRoot v, hv, treeOk_takeRoot hf hb ha, hb.table⟩

end Sys2Proof.Machine
end

