-- ==== Sys2Proof/Laws/Decoder.lean ====
section
/-! SUPPORT. The decode half: what `BR_NEXT`, a header byte and `DSTEP` change (spec/45_bit_reader.md R152, spec/47_container_decode.md
R171, R176). -/

namespace Sys2Proof.Machine

/-- `BR_NEXT` answers exactly with a count of 1 to 8, and changes the count only. -/
theorem brNext_ok {d d' : Decoder} {b : Bool} (h : brNext d = .ok (b, d')) :
    1 ≤ d.brCnt.toNat ∧ d.brCnt.toNat ≤ 8 ∧ b = d.brByte.getLsbD (d.brCnt.toNat - 1) ∧ d' = d.withReader d.brByte (d.brCnt - 1#4) := by
  unfold brNext at h
  split at h
  · rename_i hc
    cases h
    exact ⟨hc.1, hc.2, rfl, rfl⟩
  · cases h

/-- A header byte changes the total, the table, the count and the state of the decoder only. -/
theorem headerByteRule_ok {v : Byte} {s t : State} (h : headerByteRule v s = .ok t) :
    s.dec.hcnt.toNat < 1028 ∧
    t = s.withDec { s.dec with
      total := t.dec.total
      tree := { s.dec.tree with freq := t.dec.tree.freq }
      hcnt := s.dec.hcnt + 1#11
      state := if s.dec.hcnt.toNat + 1 = 1028 then .awaitTree else .awaitHeader } := by
  unfold headerByteRule at h
  split at h
  · rename_i hc
    cases h
    refine ⟨hc, ?_⟩
    unfold storeHeaderByte
    split <;> rfl
  · cases h

/-- What `DSTEP` can do: emit a leaf's symbol and go back to the root, or move the cursor to an internal node. -/
theorem dstep_ok {bit : Bool} {s t : State} (h : dstep bit s = .ok t) :
    ∃ n r, nextNode s.dec bit = .ok n ∧ nodeAt s.dec.tree.node n = .ok r ∧
      (r.leaf = true ∧ s.dec.dcnt ≠ Config.countMax ∧ t = finishSymbol r.sym s ∨
        r.leaf = false ∧ t = s.withDec { s.dec with cur := n }) := by
  unfold dstep at h
  split at h
  · cases h
  · rename_i n hn
    split at h
    · cases h
    · rename_i r hr
      refine ⟨n, r, hn, hr, ?_⟩
      split at h
      · rename_i hl
        split at h
        · cases h
        · rename_i hc
          cases h
          exact .inl ⟨hl, hc, rfl⟩
      · rename_i hl
        cases h
        exact .inr ⟨by simpa using hl, rfl⟩

/-- `DSTEP` reads neither the bit reader's byte nor its count, and leaves them. -/
theorem dstep_withReader (bit : Bool) (s : State) (v : Byte) (c : BitVec 4) :
    dstep bit (s.withDec (s.dec.withReader v c)) =
      match dstep bit s with
      | .ok t => .ok (t.withDec (t.dec.withReader v c))
      | .error f => .error f := by
  have hn : nextNode (s.dec.withReader v c) bit = nextNode s.dec bit := rfl
  unfold dstep
  simp only [State_withDec_dec, hn, Decoder_withReader_tree, Decoder_withReader_dcnt]
  cases nextNode s.dec bit with
  | error f => rfl
  | ok n =>
    simp only
    cases nodeAt s.dec.tree.node n with
    | error f => rfl
    | ok r =>
      simp only
      split
      · by_cases hc : s.dec.dcnt = Config.countMax
        · simp [hc]
        · simp only [hc, if_false]
          rfl
      · rfl

/-- In `Decoding`, with the cursor in a sound tree, a bit leads to a recorded node. -/
theorem nextNode_recorded {d : Decoder} (ht : treeOk d.tree) (hc : cursorOk d = true) (bit : Bool) :
    ∃ root cur n r, nodeAt d.tree.node d.tree.root = .ok root ∧ nodeAt d.tree.node d.cur = .ok cur ∧
      n = (if root.leaf then d.tree.root else if bit then cur.right else cur.left) ∧ nextNode d bit = .ok n ∧
      nodeAt d.tree.node n = .ok r := by
  obtain ⟨-, -, -, ha, -⟩ := ht
  have found : ∀ {n : NodeId} {r : NodeRec}, tableFind d.tree.node n.toNat = some r → nodeAt d.tree.node n = .ok r := by
    intro n r hf
    exact nodeAt_ok.2 ⟨ne_noneId_of_lt (tableFind_lt ha.1 hf), hf⟩
  unfold cursorOk at hc
  cases hr : tableFind d.tree.node d.tree.root.toNat with
  | none => simp [hr] at hc
  | some root =>
    simp only [hr] at hc
    have hroot := found hr
    cases hl : root.leaf with
    | true =>
      simp only [hl, if_true, decide_eq_true_eq] at hc
      refine ⟨root, root, d.tree.root, root, hroot, hc ▸ hroot, by simp [hl], ?_, hroot⟩
      simp [nextNode, isLeaf, hroot, hl]
    | false =>
      simp only [hl, Bool.false_eq_true, if_false] at hc
      cases hcur : tableFind d.tree.node d.cur.toNat with
      | none => simp [hcur] at hc
      | some cur =>
        simp only [hcur, Bool.not_eq_true'] at hc
        have hcur' := found hcur
        obtain ⟨-, -, ⟨-, a, hla⟩, ⟨-, b, hrb⟩⟩ := children_ok ha hcur' hc
        have hnext : nextNode d bit = .ok (if bit then cur.right else cur.left) := by
          simp [nextNode, isLeaf, hroot, hl, hcur']
        cases bit
        · exact ⟨root, cur, cur.left, a, hroot, hcur', by simp [hl], hnext, hla⟩
        · exact ⟨root, cur, cur.right, b, hroot, hcur', by simp [hl], hnext, hrb⟩

end Sys2Proof.Machine
end

