-- ==== Sys2Proof/Laws/PerInstr.lean ====
section
/-! SUPPORT. Statements made per instruction: the word of a command holds its opcode in bits 15:8 and its operand in bits 7:0
(spec/30_encoding.md R80, R94), one lemma per constructor. -/

namespace Sys2Proof.Laws.EncodeFields

/-- `op` and `arg` of the encoded word are the command's opcode and operand. -/
def Statement (i : Instr) : Prop := opField (encode i) = opcodeOf i ∧ argField (encode i) = operandOf i

theorem fields_of_append (o a : Byte) : opField (o ++ a : CmdWord) = o ∧ argField (o ++ a : CmdWord) = a := by
  constructor
  · apply BitVec.eq_of_getLsbD_eq
    intro i hi
    rw [opField, BitVec.getLsbD_extractLsb']
    have h := BitVec.getLsbD_append (x := o) (y := a) (i := 8 + i)
    simp only [Nat.not_lt.2 (Nat.le_add_right 8 i), if_false, Nat.add_sub_cancel_left] at h
    simp only [hi, decide_true, Bool.true_and]
    exact h
  · apply BitVec.eq_of_getLsbD_eq
    intro i hi
    rw [argField, BitVec.getLsbD_extractLsb']
    have h := BitVec.getLsbD_append (x := o) (y := a) (i := i)
    simp only [hi, if_true] at h
    simp only [hi, decide_true, Bool.true_and, Nat.zero_add]
    exact h

theorem ereset : Statement .ereset := fields_of_append _ _
theorem facc (s : Byte) : Statement (.facc s) := fields_of_append _ _
theorem tbuild : Statement .tbuild := fields_of_append _ _
theorem cderive : Statement .cderive := fields_of_append _ _
theorem whdr : Statement .whdr := fields_of_append _ _
theorem esym (s : Byte) : Statement (.esym s) := fields_of_append _ _
theorem wbit (b : Byte) : Statement (.wbit b) := fields_of_append _ _
theorem flush : Statement .flush := fields_of_append _ _
theorem erdf (s : Byte) : Statement (.erdf s) := fields_of_append _ _
theorem erdr (n : Byte) : Statement (.erdr n) := fields_of_append _ _
theorem dreset : Statement .dreset := fields_of_append _ _
theorem dbyte (v : Byte) : Statement (.dbyte v) := fields_of_append _ _
theorem dtree : Statement .dtree := fields_of_append _ _
theorem dend : Statement .dend := fields_of_append _ _
theorem drdf (s : Byte) : Statement (.drdf s) := fields_of_append _ _
theorem drdr (n : Byte) : Statement (.drdr n) := fields_of_append _ _

end Sys2Proof.Laws.EncodeFields
end

