-- ==== Sys2Proof/Laws/TreeShape.lean ====
section
/-! SUPPORT. The shape of the tree `TREE_BUILD` leaves on a unit without one: every listed node owned once and reachable, exactly the
used symbols as leaves, the table's sum at the root (spec/10_state.md R32, spec/42_tree_builder.md R124). -/

namespace Sys2Proof.Machine

/-! ### The lists of ids of an arena -/

/-- Listing an element at an index that was free adds it. -/
theorem tableInsert_perm {α : Type} {t : List (Nat × α)} {k : Nat} (v : α) (h : tableFind t k = none) :
    (tableInsert t k v).Perm ((k, v) :: t) := by
  induction t with
  | nil => exact .refl _
  | cons e t ih =>
    obtain ⟨k', v'⟩ := e
    simp only [tableFind] at h
    split at h
    · cases h
    · rename_i hne
      simp only [tableInsert]
      split
      · exact .refl _
      · rw [if_neg (fun hc => hne hc.symm)]
        exact ((ih h).cons _).trans (.swap _ _ _)

theorem childIds_perm {node node' : List (Nat × NodeRec)} (h : node.Perm node') : (childIds node).Perm (childIds node') :=
  h.flatMap_right _

theorem leafIds_perm {node node' : List (Nat × NodeRec)} (h : node.Perm node') : (leafIds node).Perm (leafIds node') :=
  (h.filter _).map _

theorem leafIds_cons (e : Nat × NodeRec) (node : List (Nat × NodeRec)) :
    leafIds (e :: node) = (if e.2.leaf then [e.1] else []) ++ leafIds node := by
  unfold leafIds
  cases h : e.2.leaf <;> simp [h]

theorem childIds_cons (e : Nat × NodeRec) (node : List (Nat × NodeRec)) : childIds (e :: node) = childrenOf e ++ childIds node := by
  simp [childIds]

/-- An index whose record is listed is the id of an entry. -/
theorem tableFind_isNone {α : Type} {t : List (Nat × α)} {k : Nat} (h : ∀ e ∈ t, e.1 ≠ k) : tableFind t k = none := by
  cases hf : tableFind t k with
  | none => rfl
  | some v => exact absurd rfl (h _ (tableFind_mem hf))

/-! ### What the two loops keep -/

/-- While `TREE_BUILD` runs on the table of `u0`, with the symbols of `todo` still to come, the arena is a forest whose roots are the
heap's ids. -/
structure Forest (u0 : TreeUnit) (todo : List Nat) (v : TreeUnit) : Prop where
  arena  : arenaOk v
  owned  : (v.node.map (fun e => e.1)).Perm (v.heap.map BitVec.toNat ++ childIds v.node)
  leaves : (leafIds v.node ++ todo.filter (fun s => decide (freqAt u0 s ≠ 0#32))).Perm (usedSymbols u0)
  sum    : heapSum v.node v.heap + (todo.map (fun s => (freqAt u0 s).toNat)).sum = freqSum u0
  count  : v.nnext.toNat + v.heap.length = 256 + (leafIds v.node).length
  empty  : v.heap = [] → v.node = []

theorem usedSymbols_nodup (u : TreeUnit) : (usedSymbols u).Nodup := List.nodup_range.filter _

theorem Forest.start {u : TreeUnit} (hn : noTree u) :
    Forest u Config.symbols { u with heap := [], nnext := Config.firstInternal } where
  arena := by simp [arenaOk, hn.1]
  owned := by simp [hn.1, childIds]
  leaves := by simp [hn.1, leafIds, usedSymbols]
  sum := by simp [heapSum, freqSum]
  count := by simp [hn.1, leafIds, Config.firstInternal]
  empty := fun _ => hn.1

/-- One turn of the leaf loop keeps the forest. -/
theorem Forest.insertLeaf {u0 v v' : TreeUnit} {s : Nat} {todo : List Nat} (hs : s < 256) (hb : Building u0.freq v)
    (hn : v.nnext = Config.firstInternal) (hf : Forest u0 (s :: todo) v) (h : insertLeaf v s = .ok v') : Forest u0 todo v' := by
  have hfreq : freqAt v s = freqAt u0 s := freqAt_congr hb.table s
  have harena := arenaOk_insertLeaf hs hn hf.arena h
  unfold Machine.insertLeaf at h
  split at h
  · rename_i h0
    cases h
    rw [hfreq] at h0
    exact ⟨hf.arena, hf.owned, by simpa [h0] using hf.leaves, by simpa [h0] using hf.sum, hf.count, hf.empty⟩
  · rename_i h0
    have hid : (BitVec.ofNat 9 s).toNat = s := leafId_toNat hs
    have hne : BitVec.ofNat 9 s ≠ Config.noneId := ne_noneId_of_lt (by omega)
    have hfresh : ∀ e ∈ v.node, e.1 ≠ s := by
      rintro ⟨k, r⟩ he rfl
      cases hl : r.leaf with
      | false =>
        have := (hf.arena.2 _ he).2 hl
        have h1 := this.1
        simp only at h1
        omega
      | true =>
        have hnd := hf.leaves.nodup_iff.2 (usedSymbols_nodup u0)
        have hm : k ∈ leafIds v.node := List.mem_map.2 ⟨_, List.mem_filter.2 ⟨he, hl⟩, rfl⟩
        rw [hfreq] at h0
        exact (List.nodup_append.1 hnd).2.2 k hm k (by simp [h0]) rfl
    have hnone : tableFind v.node s = none := tableFind_isNone hfresh
    have hheap : ∀ n ∈ v.heap, n ≠ BitVec.ofNat 9 s := by
      rintro n hm rfl
      obtain ⟨r, hr⟩ := hb.heapRec _ hm
      have := (nodeAt_ok.1 hr).2
      rw [hid, hnone] at this
      cases this
    have hperm := tableInsert_perm (leafRec v s) hnone
    split at h
    · rename_i hp hh
      cases h
      have hold : ∀ n ∈ v.heap, nodeAt (setNode v (BitVec.ofNat 9 s) (leafRec v s)).node n = nodeAt v.node n := by
        intro n hm
        rw [nodeAt_setNode _ _ _ _ hne, if_neg (hheap n hm).symm]
      have hnew : nodeAt (setNode v (BitVec.ofNat 9 s) (leafRec v s)).node (BitVec.ofNat 9 s) = .ok (leafRec v s) := by
        rw [nodeAt_setNode _ _ _ _ hne, if_pos rfl]
      have hlen : v.heap.length < 256 := by
        by_contra hc
        simp [pqInsert, Config.pqCap, hc] at hh
      obtain ⟨hp', hh', hpp⟩ := pqInsert_perm (node := (setNode v (BitVec.ofNat 9 s) (leafRec v s)).node) (heap := v.heap)
        (fun n hm => by rw [hold n hm]; exact hb.heapRec n hm) ⟨_, hnew⟩ hlen
      obtain rfl : hp' = hp := by rw [hh'] at hh; cases hh; rfl
      have hlv : (leafIds (tableInsert v.node s (leafRec v s))).Perm (s :: leafIds v.node) := by
        refine (leafIds_perm hperm).trans ?_
        rw [leafIds_cons]
        exact .refl _
      refine ⟨harena, ?_, ?_, ?_, ?_, ?_⟩
      · simp only [setNode_node, hid]
        refine (hperm.map _).trans ?_
        have hc : (childIds (tableInsert v.node s (leafRec v s))).Perm (childIds v.node) := by
          refine (childIds_perm hperm).trans ?_
          rw [childIds_cons]
          exact .refl _
        have hm := hpp.map BitVec.toNat
        rw [List.map_cons, hid] at hm
        exact (hf.owned.cons s).trans (hm.append hc).symm
      · simp only [setNode_node, hid]
        rw [hfreq] at h0
        refine (hlv.append_right _).trans (List.Perm.trans ?_ hf.leaves)
        simp only [h0, List.filter_cons, ne_eq, not_false_eq_true, decide_true, if_true]
        exact List.perm_middle.symm
      · have hnf : nodeFreq (setNode v (BitVec.ofNat 9 s) (leafRec v s)).node (BitVec.ofNat 9 s) = (freqAt u0 s).toNat := by
          simp only [nodeFreq, hnew]
          simp only [leafRec, BitVec.toNat_setWidth, hfreq]
          exact Nat.mod_eq_of_lt (by have := (freqAt u0 s).isLt; omega)
        have hcons : heapSum (setNode v (BitVec.ofNat 9 s) (leafRec v s)).node (BitVec.ofNat 9 s :: v.heap) =
            (freqAt u0 s).toNat + heapSum (setNode v (BitVec.ofNat 9 s) (leafRec v s)).node v.heap := by
          simp [heapSum, ← hnf]
        have := hf.sum
        simp only [List.map_cons, List.sum_cons] at this
        simp only [heapSum_perm hpp, hcons, heapSum_congr hold]
        omega
      · have hl := hpp.length_eq
        have hlf := hlv.length_eq
        have := hf.count
        simp only [List.length_cons] at hl hlf
        simp only [setNode_node, setNode_nnext, hid]
        omega
      · intro hc
        rw [show hp' = [] from hc] at hpp
        exact absurd hpp.symm.eq_nil (by simp)
    · cases h

/-- One turn of the merge loop keeps the forest. -/
theorem Forest.mergeOnce {u0 v v' : TreeUnit} (hb : Building u0.freq v) (h2 : 2 ≤ v.heap.length) (hf : Forest u0 [] v)
    (h : mergeOnce v = .ok v') : Forest u0 [] v' := by
  obtain ⟨w, a, b, ra, rb, rest, hw, hbw, hlen, hp, hp', hra, hrb, hlt, hnn, hnext, -, hnode, hsum⟩ := mergeOnce_ok hb h2
  obtain rfl : w = v' := by rw [hw] at h; cases h; rfl
  rw [setNode_node] at hnode
  have hnone : tableFind v.node v.nnext.toNat = none := by
    refine tableFind_isNone ?_
    rintro ⟨k, r⟩ he rfl
    cases hl : r.leaf with
    | true =>
      have := ((hf.arena.2 _ he).1 hl).1
      have h8 := r.sym.isLt
      have := hb.first
      simp only at *
      omega
    | false =>
      have := ((hf.arena.2 _ he).2 hl).2.1
      simp only at this
      omega
  have hperm := tableInsert_perm { freq := ra.freq + rb.freq, left := a, right := b, leaf := false, sym := 0#8 } hnone
  rw [← hnode] at hperm
  have hlv : (leafIds w.node).Perm (leafIds v.node) := by
    refine (leafIds_perm hperm).trans ?_
    rw [leafIds_cons]
    exact .refl _
  have hcv : (childIds w.node).Perm (a.toNat :: b.toNat :: childIds v.node) := by
    refine (childIds_perm hperm).trans ?_
    rw [childIds_cons]
    exact .refl _
  refine ⟨arenaOk_mergeOnce hb h2 hf.arena hw, ?_, (hlv.append_right _).trans hf.leaves, by rw [hsum]; exact hf.sum, ?_, ?_⟩
  · refine (hperm.map _).trans ((hf.owned.cons _).trans (List.Perm.trans ?_ ((hp'.map _).append hcv).symm))
    refine ((hp.map BitVec.toNat).append_right _ |>.cons _).trans ?_
    rw [List.perm_iff_count]
    intro x
    simp only [List.map_cons, List.cons_append, List.count_cons, List.count_append]
    omega
  · have := hf.count
    have := hlv.length_eq
    omega
  · intro hc
    rw [hc] at hp'
    exact absurd hp'.symm.eq_nil (by simp)

/-! ### The tree at the end -/

/-- In an arena owned once from the root, every listed node is reachable from it, a parent being younger than its children. -/
theorem reachable_of_owned {u : TreeUnit} (ha : arenaOk u)
    (ho : (u.node.map (fun e => e.1)).Perm (u.root.toNat :: childIds u.node)) :
    ∀ e ∈ u.node, ∃ path, follow u.node u.root path = some (BitVec.ofNat 9 e.1) := by
  suffices hall : ∀ d, ∀ e ∈ u.node, 511 - e.1 = d → ∃ path, follow u.node u.root path = some (BitVec.ofNat 9 e.1) from
    fun e he => hall _ e he rfl
  intro d
  induction d using Nat.strong_induction_on with
  | _ d ih =>
    rintro ⟨k, r⟩ he rfl
    have hk : k < 511 := (tableRises_bounds ha.1 he).2
    rcases List.mem_cons.1 (ho.mem_iff.1 (List.mem_map.2 ⟨_, he, rfl⟩)) with hroot | hc
    · refine ⟨[], ?_⟩
      simp only at hroot
      simp [follow_nil, hroot]
    · simp only [childIds, List.mem_flatMap] at hc
      obtain ⟨⟨p, q⟩, hq, hc⟩ := hc
      unfold childrenOf at hc
      cases hl : q.leaf with
      | true => simp [hl] at hc
      | false =>
        simp only [hl, Bool.false_eq_true, if_false] at hc
        have hp : p < 511 := (tableRises_bounds ha.1 hq).2
        have hid : (BitVec.ofNat 9 p).toNat = p := by simp only [BitVec.toNat_ofNat]; omega
        have hat : nodeAt u.node (BitVec.ofNat 9 p) = .ok q :=
          nodeAt_ok.2 ⟨ne_noneId_of_lt (by omega), by rw [hid]; exact tableFind_of_mem ha.1 hq⟩
        obtain ⟨-, -, ⟨hlt, -⟩, ⟨hrt, -⟩⟩ := children_ok ha hat hl
        rw [hid] at hlt hrt
        simp only [List.mem_cons, List.not_mem_nil, or_false] at hc
        have hkp : k < p := by omega
        obtain ⟨path, hpath⟩ := ih (511 - p) (by simp only; omega) _ hq rfl
        rcases hc with hc | hc
        · refine ⟨path ++ [false], ?_⟩
          rw [follow_append hpath, follow_cons hat hl]
          simp [follow_nil, hc]
        · refine ⟨path ++ [true], ?_⟩
          rw [follow_append hpath, follow_cons hat hl]
          simp [follow_nil, hc]

/-- Taking the root of a finished forest leaves a tree. -/
theorem Forest.takeRoot {u0 v : TreeUnit} (hb : Building u0.freq v) (h1 : v.heap.length ≤ 1) (hf : Forest u0 [] v) :
    TreeShape (takeRoot v) := by
  have hcongr : ∀ k, freqAt (Machine.takeRoot v) k = freqAt u0 k := freqAt_congr hb.table
  have hused : usedSymbols (Machine.takeRoot v) = usedSymbols u0 := by simp only [usedSymbols, hcongr]
  have hfsum : freqSum (Machine.takeRoot v) = freqSum u0 := by simp only [freqSum, hcongr]
  have hlv : (leafIds v.node).Perm (usedSymbols u0) := by simpa using hf.leaves
  cases hh : v.heap with
  | nil =>
    have hroot : (Machine.takeRoot v).root = Config.noneId := by simp [Machine.takeRoot, hh]
    have hnode := hf.empty hh
    have hcount := hf.count
    rw [hh, hnode] at hcount
    refine ⟨fun _ => ⟨hnode, hroot, BitVec.eq_of_toNat_eq ?_⟩, fun h => absurd hroot h, fun h => absurd hroot h,
      fun h => absurd hroot h, fun h => absurd hroot h⟩
    simpa [leafIds, Config.firstInternal, Machine.takeRoot] using hcount
  | cons r t =>
    obtain rfl : t = [] := by
      rw [hh] at h1
      exact List.length_eq_zero_iff.1 (by simpa using h1)
    have hroot : (Machine.takeRoot v).root = r := by simp [Machine.takeRoot, hh]
    obtain ⟨rr, hr⟩ := hb.heapRec r (by simp [hh])
    have hfind := nodeAt_ok.1 hr
    have howned : ((Machine.takeRoot v).node.map (fun e => e.1)).Perm
        ((Machine.takeRoot v).root.toNat :: childIds (Machine.takeRoot v).node) := by
      have := hf.owned
      rw [hh] at this
      rw [hroot]
      exact this
    refine ⟨fun h => absurd (hroot ▸ h) hfind.1, fun _ => ⟨howned, reachable_of_owned hf.arena howned⟩, fun _ => ?_, fun _ => ?_, fun _ => ?_⟩
    · rw [hused]
      exact hlv
    · have hsum := hf.sum
      rw [hh] at hsum
      simp only [heapSum, nodeFreq, List.map_cons, List.map_nil, List.sum_cons, List.sum_nil, Nat.add_zero, hr] at hsum
      rw [hroot, hfsum, ← hsum]
      show (tableFind v.node r.toNat).map _ = _
      rw [hfind.2]
      rfl
    · have hcount := hf.count
      have := hlv.length_eq
      rw [hh] at hcount
      rw [hused]
      simp only [List.length_cons, List.length_nil] at hcount
      show v.nnext.toNat = _
      have := hb.first
      omega

/-- `TREE_BUILD` on a unit that has no tree yet leaves no tree or one of the shape of R32. -/
theorem treeBuild_treeShape {u : TreeUnit} (hn : noTree u) : ∃ t, treeBuild u = .ok t ∧ TreeShape t := by
  obtain ⟨v, hv, hb, h1, hf⟩ := treeBuild_ok (Forest u) u (.start hn)
    (fun v s _ v' hs hb hn hf h => hf.insertLeaf hs hb hn h) (fun v v' hb h2 hf h => hf.mergeOnce hb h2 h)
  exact ⟨takeRoot v, hv, hf.takeRoot hb h1⟩

end Sys2Proof.Machine
end

