-- ==== Sys2Proof/Tests/Slice0.lean ====
section
/-! SUPPORT. The model's own tests: the checks on ill-formed commands, words written out from spec/30_encoding.md R82, one-step cases
of spec/95_test_vectors.md (each named in its comment), and for each statement with hypotheses a witness that meets them. -/

namespace Sys2Proof.Machine.Test

/-! ### Ill-formed commands are refused (spec/30_encoding.md R82) -/

theorem test_wellFormed_wbit : ¬ (Instr.wbit 2#8).WellFormed := by decide
theorem test_wellFormed_erdr : ¬ (Instr.erdr 4#8).WellFormed := by decide
theorem test_wellFormed_drdr : ¬ (Instr.drdr 7#8).WellFormed := by decide
theorem test_wellFormed_bounds :
    (Instr.wbit 1#8).WellFormed ∧ (Instr.erdr 3#8).WellFormed ∧ (Instr.drdr 6#8).WellFormed ∧ (Instr.facc 0xFF#8).WellFormed := by
  decide

/-! ### Words written out bit by bit: op in bits 15:8, operand in bits 7:0 (R80, R82) -/

theorem test_decode_ereset : decode 0b0001000000000000#16 = .ok .ereset := by decide
theorem test_decode_facc : decode 0b0001000101100001#16 = .ok (.facc 0x61#8) := by decide
theorem test_decode_tbuild : decode 0b0001001000000000#16 = .ok .tbuild := by decide
theorem test_decode_cderive : decode 0b0001001100000000#16 = .ok .cderive := by decide
theorem test_decode_whdr : decode 0b0001010000000000#16 = .ok .whdr := by decide
theorem test_decode_esym : decode 0b0001010101100010#16 = .ok (.esym 0x62#8) := by decide
theorem test_decode_wbit : decode 0b0001011000000001#16 = .ok (.wbit 1#8) := by decide
theorem test_decode_flush : decode 0b0001011100000000#16 = .ok .flush := by decide
theorem test_decode_erdf : decode 0b0001100010000001#16 = .ok (.erdf 0x81#8) := by decide
theorem test_decode_erdr : decode 0b0001100100000010#16 = .ok (.erdr 2#8) := by decide
theorem test_decode_dreset : decode 0b0010000000000000#16 = .ok .dreset := by decide
theorem test_decode_dbyte : decode 0b0010000111100000#16 = .ok (.dbyte 0xE0#8) := by decide
theorem test_decode_dtree : decode 0b0010001000000000#16 = .ok .dtree := by decide
theorem test_decode_dend : decode 0b0010001100000000#16 = .ok .dend := by decide
theorem test_decode_drdf : decode 0b0010100001000010#16 = .ok (.drdf 0x42#8) := by decide
theorem test_decode_drdr : decode 0b0010100100000101#16 = .ok (.drdr 5#8) := by decide

/-- X3: the legal boundary words. -/
theorem test_decode_boundaries :
    decode 0x1903#16 = .ok (.erdr 3#8) ∧ decode 0x2906#16 = .ok (.drdr 6#8) ∧ decode 0x1601#16 = .ok (.wbit 1#8) ∧
    decode 0x11FF#16 = .ok (.facc 0xFF#8) ∧ decode 0x15FF#16 = .ok (.esym 0xFF#8) ∧ decode 0x18FF#16 = .ok (.erdf 0xFF#8) ∧
    decode 0x21FF#16 = .ok (.dbyte 0xFF#8) ∧ decode 0x28FF#16 = .ok (.drdf 0xFF#8) := by decide

/-- X2: every illegal word of the vector is refused. -/
theorem test_decode_illegal :
    ([0x0000#16, 0x0061#16, 0x1001#16, 0x1201#16, 0x1602#16, 0x16FF#16, 0x1904#16, 0x1A00#16, 0x1F00#16, 0x2001#16, 0x2201#16,
      0x2301#16, 0x2400#16, 0x2907#16, 0x2A00#16, 0x3000#16, 0xFFFF#16].all
        (fun w => match decode w with | .ok _ => false | .error _ => reservedWord w)) = true := by decide

theorem test_encode_operand : encode (.esym 0x62#8) = 0x1562#16 ∧ encode (.drdr 6#8) = 0x2906#16 := by decide

/-! ### Small states -/

/-- The state after reset, with the encoder in a phase. -/
def inPhase (p : Phase) : State := State.reset.withEnc (State.reset.enc.withPhase p)

/-- The state after reset, with the decoder in a state. -/
def inState (d : DState) : State := State.reset.withDec (State.reset.dec.withState d)

/-- The tree of "aab": a = 0x61 twice, b = 0x62 once; b is the left child (spec/95_test_vectors.md E6). -/
def aabTree : TreeUnit :=
  { freq := [(0x61, 2#32), (0x62, 1#32)], heap := [], nnext := 257#9, root := 256#9,
    node := [(0x61, { freq := 2#40, left := Config.noneId, right := Config.noneId, leaf := true, sym := 0x61#8 }),
             (0x62, { freq := 1#40, left := Config.noneId, right := Config.noneId, leaf := true, sym := 0x62#8 }),
             (256, { freq := 3#40, left := 0x62#9, right := 0x61#9, leaf := false, sym := 0#8 })] }

/-- The encoder of "aab" after pass 1. -/
def aabCounted : Encoder :=
  { Encoder.reset with total := 3#32, tree := { TreeUnit.reset with freq := aabTree.freq } }

/-- The encoder of "aab" after `TBUILD`. -/
def aabBuilt : Encoder := { aabCounted with tree := aabTree, phase := .tree }

/-- The encoder of "aab" after `CDERIVE`, `WHDR` and one `ESYM 'a'`: b = `0`, a = `1`. -/
def aabBody : Encoder :=
  { aabBuilt with phase := .body, clen := [(0x61, 1#9), (0x62, 1#9)], cbits := [(0x61, [true]), (0x62, [false])],
                  wbAcc := 0x80#8, wbCnt := 1#3 }

/-- The decoder of the container of "aab" after the header. -/
def aabHeader : Decoder :=
  { Decoder.reset with state := .awaitTree, hcnt := 1028#11, total := 3#32, tree := { TreeUnit.reset with freq := aabTree.freq } }

/-- The decoder of "aab" after `DTREE`. -/
def aabDecoding : Decoder := { aabHeader with state := .decoding, tree := aabTree, cur := 256#9 }

/-- An encoder in the body of "aab" beside a decoder in the body of "aab". -/
def busy : State := { State.reset with enc := aabBody, dec := aabDecoding }

/-- A tree of one leaf, the symbol 0x41 three times (T10). -/
def oneLeaf : TreeUnit :=
  { freq := [(0x41, 3#32)], heap := [], nnext := 256#9, root := 0x41#9,
    node := [(0x41, { freq := 3#40, left := Config.noneId, right := Config.noneId, leaf := true, sym := 0x41#8 })] }

/-- The decoder of "AAA" after `DTREE`. -/
def oneLeafDecoding : Decoder := { aabDecoding with tree := oneLeaf, cur := 0x41#9 }

/-- The state after an outcome, when there is one. -/
def after : Out → Option State
  | .next s => some s
  | .fault _ => none
  | .refused _ => none

/-! ### One step of each command -/

/-- P1: `ERESET` gives COUNT with nothing counted, and leaves the decoder. -/
theorem test_ereset : (after (exec .ereset busy)).map (fun t => (t.enc.phase, t.enc.total, t.enc.wbCnt, t.dec)) =
    some (.count, 0#32, 0#3, aabDecoding) := by decide

/-- F1. -/
theorem test_facc : (after (exec (.facc 0x61#8) State.reset)).map
    (fun t => (freqAt t.enc.tree 0x61, t.enc.total, t.enc.phase, t.eout)) = some (1#32, 1#32, .count, []) := by decide

/-- F4: the total is full. -/
def fullTotal : State :=
  State.reset.withEnc { Encoder.reset with
    total := 0xFFFFFFFF#32, tree := { TreeUnit.reset with freq := [(0x41, 0xFFFFFFFF#32)] } }

theorem test_facc_overflow : (after (exec (.facc 0x42#8) fullTotal)).map
    (fun t => (statusWord t.ill t.enc.err (phaseCode t.enc.phase), t.enc.total, t.enc.tree.freq)) =
      some (0x27#32, 0xFFFFFFFF#32, [(0x41, 0xFFFFFFFF#32)]) := by decide

/-- E6: (b, a) → 256:3, b on the left. -/
theorem test_tbuild : (after (exec .tbuild (State.reset.withEnc aabCounted))).map (fun t => (t.enc.tree, t.enc.phase)) =
    some (aabTree, .tree) := by decide

/-- T13: `TBUILD` twice is a `SeqError`. -/
theorem test_tbuild_twice : (after (exec .tbuild (inPhase .tree))).map (fun t => (t.enc.phase, t.enc.err)) =
    some (.fault, .seqError) := by decide

/-- E6: b = `0`, a = `1`. -/
theorem test_cderive : (after (exec .cderive (State.reset.withEnc aabBuilt))).map
    (fun t => (t.enc.phase, t.enc.clen, t.enc.cbits)) = some (.codes, aabBody.clen, aabBody.cbits) := by decide

/-- T14: `CDERIVE` before `TBUILD`; the status reads 0x17. -/
theorem test_cderive_early : (after (exec .cderive State.reset)).map (fun t => statusWord t.ill t.enc.err (phaseCode t.enc.phase)) =
    some 0x17#32 := by decide

/-- E10: the total 0x01020304 goes out as 04 03 02 01. -/
theorem test_whdr : (after (exec .whdr (State.reset.withEnc { Encoder.reset with phase := .codes, total := 0x01020304#32 }))).map
    (fun t => (t.eout.take 5, t.eout.length, t.enc.phase)) = some ([4#8, 3#8, 2#8, 1#8, 0#8], 1028, .body) := by decide +kernel

/-- E9: `WHDR` out of phase emits nothing. -/
theorem test_whdr_early : (after (exec .whdr State.reset)).map (fun t => (t.eout, t.enc.err)) = some ([], .seqError) := by
  decide

/-- E6: the second 'a' puts a second 1 below the first. -/
theorem test_esym : (after (exec (.esym 0x61#8) busy)).map (fun t => (t.enc.wbAcc, t.enc.wbCnt, t.eout)) =
    some (0xC0#8, 2#3, []) := by decide

/-- E7: a symbol without code; the status reads 0x37. -/
theorem test_esym_noCode : (after (exec (.esym 0x63#8) busy)).map
    (fun t => (statusWord t.ill t.enc.err (phaseCode t.enc.phase), t.eout)) = some (0x37#32, []) := by decide

/-- W1, first word: `E_WB` reads 0x180. -/
theorem test_wbit : (after (exec (.wbit 1#8) (inPhase .body))).map (fun t => (wbWord t.enc, t.eout)) = some (0x180#32, []) := by
  decide

/-- W2, the eighth bit: 96 goes out. -/
theorem test_wbit_eighth : (after (exec (.wbit 0#8) (State.reset.withEnc { Encoder.reset with phase := .body, wbAcc := 0x96#8, wbCnt := 7#3 }))).map
    (fun t => (t.eout, wbWord t.enc)) = some ([0x96#8], 0#32) := by decide

/-- W1, last word: A0 goes out, the phase is DONE. -/
theorem test_flush : (after (exec .flush (State.reset.withEnc { Encoder.reset with phase := .body, wbAcc := 0xA0#8, wbCnt := 3#3 }))).map
    (fun t => (t.eout, wbWord t.enc, t.enc.phase)) = some ([0xA0#8], 0#32, .done) := by decide

/-- W3: nothing pending, nothing emitted. -/
theorem test_flush_empty : (after (exec .flush (inPhase .body))).map (fun t => (t.eout, t.enc.phase)) = some ([], .done) := by
  decide

/-- F7: the word for 'a' of "aab" is 2. -/
theorem test_erdf : (after (exec (.erdf 0x61#8) (State.reset.withEnc aabCounted))).map (fun t => t.rsp) = some [2#32] := by decide

/-- X1: `E_TREE` after reset. -/
theorem test_erdr : (after (exec (.erdr 2#8) State.reset)).map (fun t => t.rsp) = some [0x010001FF#32] := by decide

/-- X4: `ILL` survives the unit resets. -/
theorem test_dreset : (after (exec .dreset { busy with ill := true })).map (fun t => (t.dec, t.ill, t.enc)) =
    some (Decoder.reset, true, aabBody) := by decide

/-- DV17: the second header byte is byte 1 of the total. -/
theorem test_dbyte_header : (after (exec (.dbyte 0x56#8) (State.reset.withDec { Decoder.reset with total := 0x78#32, hcnt := 1#11 }))).map
    (fun t => (t.dec.total, t.dec.hcnt, t.dec.state)) = some (0x5678#32, 2#11, .awaitHeader) := by decide

/-- E6 decoded: the body byte C0 gives "aab" and `Done`, and D_BR reads 0xC0 (B3). -/
theorem test_dbyte_body : (after (exec (.dbyte 0xC0#8) busy)).map (fun t => (t.dout, t.dec.state, brWord t.dec, t.dec.cur)) =
    some ([0x61#8, 0x61#8, 0x62#8], .done, 0xC0#32, 256#9) := by decide

/-- P2's `DTREE`, with "aab": root and cursor 256, state `Decoding`. -/
theorem test_dtree : (after (exec .dtree (State.reset.withDec aabHeader))).map (fun t => t.dec) = some aabDecoding := by decide

/-- DV9: total 3 with an all-zero table; the status reads 0x57. -/
theorem test_dtree_emptyAlphabet :
    (after (exec .dtree (State.reset.withDec { aabHeader with tree := TreeUnit.reset }))).map
      (fun t => (statusWord t.ill t.dec.err (dstateCode t.dec.state), t.dec.tree.root)) = some (0x57#32, Config.noneId) := by decide +kernel

/-- DV8: `DEND` in `Decoding`. -/
theorem test_dend : (after (exec .dend busy)).map (fun t => (t.dec.err, t.dec.state, t.dec.cur)) =
    some (.truncatedInput, .fault, 256#9) := by decide

/-- DV19: `DEND` in `AwaitTree`. -/
theorem test_dend_awaitTree : (after (exec .dend (inState .awaitTree))).map (fun t => statusWord t.ill t.dec.err (dstateCode t.dec.state)) =
    some 0x17#32 := by decide

/-- DV17: the table read of the decoder. -/
theorem test_drdf : (after (exec (.drdf 0#8)
    (State.reset.withDec { Decoder.reset with tree := { TreeUnit.reset with freq := [(0, 0x201#32)] } }))).map (fun t => t.rsp) =
      some [0x201#32] := by decide

/-- X1: `D_CUR` after reset. -/
theorem test_drdr : (after (exec (.drdr 6#8) State.reset)).map (fun t => t.rsp) = some [0x1FF#32] := by decide

/-- X2: a reserved word, through `step`: `ILL` only. -/
theorem test_step_illegal : after (step { State.reset with hostIn := [.word 0x2907#16] }) =
    some { State.reset with ill := true, pc := 1 } := by
  decide

/-- The word placed for the next step is the one fetched (log entry 9). -/
theorem test_withFetchWord : after (step (State.reset.withFetchWord 16 0x1161)) =
    some { State.reset with pc := 1, enc := { Encoder.reset with total := 1#32, tree := { TreeUnit.reset with freq := [(0x61, 1#32)] } } } := by
  decide

/-- After reset every table is in its canonical form. -/
theorem test_reset_tables :
    tableWfD 0#32 256 State.reset.enc.tree.freq = true ∧ tableWf 511 State.reset.enc.tree.node = true ∧
    tableWfD 0#9 256 State.reset.enc.clen = true ∧ tableWfD [] 256 State.reset.enc.cbits = true ∧
    tableWfD 0#32 256 State.reset.dec.tree.freq = true ∧ tableWf 511 State.reset.dec.tree.node = true := by decide

/-! ### Witnesses: for each statement with hypotheses, a concrete state and operands that meet them -/

/-- A state whose next input is the word. -/
def given (s : State) (w : CmdWord) : State := { s with hostIn := [.word w] }

theorem test_witness_decodeEncodeRoundTrip : (Instr.drdr 6#8).WellFormed := by decide

theorem test_witness_decodedWordIsItsEncoding : decode 0x1903#16 = .ok (.erdr 3#8) := by decide

theorem test_witness_stepRunsDecodedCommand :
    (given busy 0x1561#16).hostIn = .word 0x1561#16 :: [] ∧ decode 0x1561#16 = .ok (.esym 0x61#8) := by decide

theorem test_witness_illegalWordSetsOnlyIll :
    (given busy 0x2907#16).hostIn = .word 0x2907#16 :: [] ∧ decode 0x2907#16 = .error (.reservedRegister 7#8) := by decide

theorem test_witness_waitsWithStateKept : busy.hostIn = [] := by decide

theorem test_witness_hardwareResetStep : ({ busy with hostIn := [.rst, .takeRsp] } : State).hostIn = .rst :: [.takeRsp] := by decide

theorem test_witness_hostTakesNextOutput :
    ({ busy with hostIn := [.takeEout] } : State).hostIn = .takeEout :: [] ∧
    ({ busy with hostIn := [.takeDout] } : State).hostIn = .takeDout :: [] ∧
    ({ busy with hostIn := [.takeRsp] } : State).hostIn = .takeRsp :: [] := by decide

/-- A waiting byte is taken once (R50): one clause of HostTakesNextOutput where there is an element, one where there is none. -/
theorem test_take_eout :
    (after (step { busy with eout := [5#8], hostIn := [.takeEout] })).map (fun t => t.eoutTaken) = some 1 ∧
    (after (step { busy with hostIn := [.takeEout] })).map (fun t => t.eoutTaken) = some 0 := by decide

theorem test_witness_programIndexAdvancesByOne :
    (after (step (given busy 0x1900#16))).map (fun t => (t.pc, t.hostIn)) = some (1, []) := by decide

theorem test_witness_streamsOnlyGrow : (after (exec (.dbyte 0xC0#8) busy)).isSome = true := by decide

theorem test_witness_illSetByIllegalWordsOnly :
    (given busy 0x1602#16).hostIn.head? ≠ some .rst ∧ (after (step (given busy 0x1602#16))).isSome = true := by decide

theorem test_witness_unitsAreIndependent : forEncoder .flush = true ∧ forEncoder .dend = false := by decide

theorem test_witness_faultedUnitIgnoresCommands :
    (Instr.wbit 1#8).WellFormed ∧ isSystem (.wbit 1#8) = false ∧ forEncoder (.wbit 1#8) = true ∧ (inPhase .fault).enc.phase = .fault ∧
    (Instr.dtree).WellFormed ∧ isSystem .dtree = false ∧ forEncoder .dtree = false ∧ (inState .fault).dec.state = .fault := by decide

/-- Each clause of SeqErrorOutOfPhase, at a phase or state that is not the legal one. -/
theorem test_witness_seqErrorOutOfPhase :
    ((inPhase .done).enc.phase ≠ .fault ∧ (inPhase .done).enc.phase ≠ .count ∧ (inPhase .done).enc.phase ≠ .tree ∧
      (inPhase .done).enc.phase ≠ .codes ∧ (inPhase .done).enc.phase ≠ .body) ∧ (Instr.wbit 1#8).WellFormed ∧
    (inState .awaitTree).dec.state = .awaitTree ∧
    ((inState .awaitHeader).dec.state ≠ .awaitTree ∧ (inState .awaitHeader).dec.state ≠ .fault) := by decide

theorem test_witness_encoderPhaseTransitions :
    (after (exec .flush busy)).map (fun t => t.enc.phase) = some .done := by decide

theorem test_witness_decoderStateTransitions :
    (after (exec (.dbyte 0#8) (State.reset.withDec { Decoder.reset with hcnt := 1027#11 }))).map (fun t => t.dec.state) =
      some .awaitTree := by decide

theorem test_witness_faultedUnitKeepsItsState :
    (given (inPhase .fault) 0x1161#16).hostIn.head? ≠ some .rst ∧ (given (inPhase .fault) 0x1161#16).enc.phase = .fault ∧
    (given (inPhase .fault) 0x1161#16).hostIn.head? ≠ some (.word 0x1000#16) ∧
    (after (step (given (inPhase .fault) 0x1161#16))).isSome = true ∧
    (given (inState .fault) 0x2200#16).hostIn.head? ≠ some .rst ∧ (given (inState .fault) 0x2200#16).dec.state = .fault ∧
    (given (inState .fault) 0x2200#16).hostIn.head? ≠ some (.word 0x2000#16) ∧
    (after (step (given (inState .fault) 0x2200#16))).isSome = true := by decide

theorem test_witness_erdrAnswersRegister : 3 < (4#8 : Byte).toNat := by decide

theorem test_witness_drdrAnswersRegister : 6 < (7#8 : Byte).toNat := by decide

/-- Each clause of FaccCountsOneSymbol; the premise holds at its boundary in `fullTotal`. -/
theorem test_witness_faccCountsOneSymbol :
    ((freqAt fullTotal.enc.tree (0x41#8 : Byte).toNat).toNat ≤ fullTotal.enc.total.toNat ∧ fullTotal.enc.phase = .count ∧
      fullTotal.enc.total = 0xFFFFFFFF#32) ∧
    ((freqAt State.reset.enc.tree (0xFF#8 : Byte).toNat).toNat ≤ State.reset.enc.total.toNat ∧ State.reset.enc.phase = .count ∧
      State.reset.enc.total ≠ 0xFFFFFFFF#32) ∧
    ((freqAt busy.enc.tree (0x61#8 : Byte).toNat).toNat ≤ busy.enc.total.toNat ∧ busy.enc.phase ≠ .fault ∧ busy.enc.phase ≠ .count) ∧
    ((freqAt (inPhase .fault).enc.tree (0x61#8 : Byte).toNat).toNat ≤ (inPhase .fault).enc.total.toNat ∧
      (inPhase .fault).enc.phase = .fault) := by decide

/-- Q1, Q3, Q4: frequency first, then the id; the premises of the transitivity and totality clauses. -/
theorem test_witness_keyOrderIsStrictAndTotal :
    keyLess 1#40 0x63#9 1#40 0x64#9 = true ∧ keyLess 1#40 0x64#9 2#40 0x62#9 = true ∧ keyLess 2#40 0x61#9 2#40 256#9 = true ∧
    keyLess 4#40 256#9 4#40 257#9 = true ∧ (256#9 : NodeId) ≠ 257#9 ∧
    (∃ ra rb, nodeAt aabTree.node 0x62#9 = .ok ra ∧ nodeAt aabTree.node 0x61#9 = .ok rb) :=
  ⟨by decide, by decide, by decide, by decide, by decide, _, _, rfl, rfl⟩

/-- R111, R117: b (2 of them) is less than a (3), and not the other way round. -/
theorem test_less :
    (less [(0x61, leafRec { TreeUnit.reset with freq := [(0x61, 3#32)] } 0x61), (0x62, leafRec { TreeUnit.reset with freq := [(0x62, 2#32)] } 0x62)]
      0x62#9 0x61#9).toOption = some true ∧
    (less aabTree.node 0x61#9 0x62#9).toOption = some false := by decide

/-- The heap of the two leaves of "aab": b (1) above a (2). -/
theorem test_witness_heapOk : heapOk aabTree.node [0x62#9, 0x61#9] := by
  refine ⟨by decide, ?_, ?_⟩
  · intro n hn
    rcases List.mem_pair.1 hn with rfl | rfl
    · exact ⟨_, rfl⟩
    · exact ⟨_, rfl⟩
  · intro i x p hi hx hp
    match i, hi with
    | 1, _ =>
      cases hx
      cases hp
      decide
    | k + 2, _ => cases hx

theorem test_witness_pqInsertAddsItsId :
    heapOk aabTree.node [0x62#9, 0x61#9] ∧ [0x62#9, 0x61#9].length ≤ 255 ∧ (∃ r, nodeAt aabTree.node 256#9 = .ok r) ∧
      256#9 ∉ [0x62#9, 0x61#9] :=
  ⟨test_witness_heapOk, by decide, ⟨_, rfl⟩, by decide⟩

theorem test_witness_pqExtractMinTakesTheLeast : heapOk aabTree.node [0x62#9, 0x61#9] ∧ [0x62#9, 0x61#9] ≠ [] :=
  ⟨test_witness_heapOk, by decide⟩

/-- R113, R111: of b (1) and a (2), b comes out first. -/
theorem test_pqExtractMin : (pqExtractMin aabTree.node [0x62#9, 0x61#9]).toOption = some (0x62#9, [0x61#9]) := by decide

theorem test_witness_treeBuildMakesTheTree : usedSymbols TreeUnit.reset = [] ∧ usedSymbols aabTree ≠ [] := by decide

/-- The last and only merge of "aab" is one of the ids the statement speaks of. -/
theorem test_witness_treeBuildMergesTheTwoLeast :
    (treeBuild aabCounted.tree).toOption = some aabTree ∧ freqAt aabCounted.tree 0x61 ≠ 0#32 ∧
    256 ≤ (256#9 : NodeId).toNat ∧ (256#9 : NodeId).toNat < aabTree.nnext.toNat := by decide

/-- T3: (a, b) make node 256, then (c, 256) make node 257: the leaf goes left of the node of greater frequency. -/
theorem test_treeBuild_sides :
    (treeBuild { TreeUnit.reset with freq := [(0x61, 1#32), (0x62, 1#32), (0x63, 1#32)] }).toOption.map
      (fun t => ((tableFind t.node 256).map (fun r => (r.left, r.right)), (tableFind t.node 257).map (fun r => (r.left, r.right)))) =
        some (some (0x61#9, 0x62#9), some (0x63#9, 256#9)) := by decide

/-- R31: the bits of a packed record, written out: FREQ 3, LEFT 0x62, RIGHT 0x61, LEAF 0, SYM 0. -/
theorem test_packNode : packNode { freq := 3#40, left := 0x62#9, right := 0x61#9, leaf := false, sym := 0#8 } =
    0b0000000000000000000000000000000000000011001100010001100001000000000#67 := by decide

theorem test_witness_treeBuildOneSymbol : usedSymbols oneLeaf = [0x41] := by decide

theorem test_witness_treeBuildNoSymbol : ∀ k < 256, freqAt TreeUnit.reset k = 0#32 := fun _ _ => rfl

theorem test_witness_treeBuildIsAFunctionOfTheTable :
    (∀ k < 256, freqAt aabTree k = freqAt aabCounted.tree k) ∧
    (treeBuild aabTree).toOption = some aabTree ∧ (treeBuild aabCounted.tree).toOption = some aabTree ∧
    follow aabTree.node aabTree.root [false] = some 0x62#9 ∧ aabTree.root ≠ Config.noneId :=
  ⟨fun _ _ => rfl, by decide, by decide +kernel, by decide +kernel, by decide⟩

theorem test_witness_tbuildBuildsAndGoesToTree : (State.reset.withEnc aabCounted).enc.phase = .count := by decide

theorem test_witness_treeOk : treeOk aabTree ∧ treeOk oneLeaf :=
  ⟨⟨by decide, rfl, by decide, ⟨by decide, by decide⟩, by decide⟩, ⟨by decide, rfl, by decide, ⟨by decide, by decide⟩, by decide⟩⟩

theorem test_witness_treeShape_aab : TreeShape aabTree where
  noRoot := by decide
  owned := fun _ => ⟨by decide, by
    intro e he
    simp only [aabTree, List.mem_cons, List.not_mem_nil, or_false] at he
    rcases he with rfl | rfl | rfl
    exacts [⟨[true], rfl⟩, ⟨[false], rfl⟩, ⟨[], rfl⟩]⟩
  leaves := by decide +kernel
  rootFreq := by decide +kernel
  nextInner := by decide +kernel

theorem test_witness_treeShape_oneLeaf : TreeShape oneLeaf where
  noRoot := by decide
  owned := fun _ => ⟨by decide, by
    intro e he
    simp only [oneLeaf, List.mem_cons, List.not_mem_nil, or_false] at he
    subst he
    exact ⟨[], rfl⟩⟩
  leaves := by decide +kernel
  rootFreq := by decide +kernel
  nextInner := by decide +kernel

theorem test_witness_cderiveDerivesAndGoesToCodes : aabBuilt.phase = .tree ∧ treeOk aabBuilt.tree :=
  ⟨rfl, test_witness_treeOk.1⟩

/-- Both cases of CodeIsThePathToTheLeaf: a root that is a leaf, and one that is not. -/
theorem test_witness_codeIsThePathToTheLeaf :
    treeOk aabBuilt.tree ∧ (codeDerive aabBuilt).toOption.map (fun e => clenAt e (0x62#8 : Byte).toNat) = some 1#9 ∧
    treeOk oneLeaf ∧
    (codeDerive { aabBuilt with tree := oneLeaf }).toOption.map (fun e => (clenAt e (0x41#8 : Byte).toNat, cbitsAt e 0x41)) =
      some (1#9, [false]) :=
  ⟨test_witness_treeOk.1, by decide, test_witness_treeOk.2, by decide +kernel⟩

theorem test_witness_codesArePrefixFree :
    treeOk aabBuilt.tree ∧ (0x61#8 : Byte) ≠ 0x62#8 ∧
    (codeDerive aabBuilt).toOption.map (fun e => (clenAt e 0x61, clenAt e 0x62)) = some (1#9, 1#9) ∧
    (codeDerive aabBuilt).toOption.map (fun e => ((codeOf e 0x61).toOption, (codeOf e 0x62).toOption)) =
      some (some [true], some [false]) :=
  ⟨test_witness_treeOk.1, by decide, by decide, by decide +kernel⟩

theorem test_witness_codesForExactlyTheUsedSymbols :
    (treeBuild aabCounted.tree).toOption = some aabTree ∧ (codeDerive { aabCounted with tree := aabTree }).toOption.isSome = true ∧
    2 ≤ (usedSymbols aabCounted.tree).length ∧
    (treeBuild oneLeaf).toOption = some oneLeaf ∧ (codeDerive { aabCounted with tree := oneLeaf }).toOption.isSome = true ∧
    (usedSymbols oneLeaf).length = 1 ∧ freqAt oneLeaf (0x41#8 : Byte).toNat ≠ 0#32 := by decide

theorem test_witness_noTreeGivesNoCodes : (inPhase .tree).enc.tree.root = Config.noneId := by decide

/-- Each clause of WbitWritesOneBit: an ill-formed operand, a byte completed, a byte not completed. -/
theorem test_witness_wbitWritesOneBit :
    1 < (2#8 : Byte).toNat ∧ (1#8 : Byte).toNat ≤ 1 ∧ busy.enc.phase = .body ∧ busy.enc.wbCnt ≠ 7#3 ∧
    (State.reset.withEnc (Encoder.reset.withPhase .body |>.withWriter 0x96#8 7#3)).enc.phase = .body ∧
    (State.reset.withEnc (Encoder.reset.withPhase .body |>.withWriter 0x96#8 7#3)).enc.wbCnt = 7#3 := by decide

theorem test_witness_flushEmitsThePartialByte : busy.enc.phase = .body := by decide

theorem test_witness_writerPacksMostSignificantFirst : (inPhase .body).enc.wbCnt = 0#3 ∧ (inPhase .body).enc.wbAcc = 0#8 := by decide

theorem test_witness_readerTakesMostSignificantFirst : State.reset.dec.brCnt = 0#4 := by decide

/-- B1: A5 gives 1 0 1 0 0 1 0 1. -/
theorem test_brNext : (takeBits 8 (brLoad 0xA5#8 Decoder.reset)).toOption.map (fun r => (r.1, r.2.brCnt)) =
    some ([true, false, true, false, false, true, false, true], 0#4) := by decide

theorem test_witness_whdrEmitsTheHeader : (inPhase .codes).enc.phase = .codes := by decide

/-- Each clause of EsymWritesTheCode. -/
theorem test_witness_esymWritesTheCode :
    busy.enc.phase = .body ∧ clenAt busy.enc (0x63#8 : Byte).toNat = 0#9 ∧ clenAt busy.enc (0x61#8 : Byte).toNat ≠ 0#9 ∧
    (clenAt busy.enc (0x61#8 : Byte).toNat).toNat ≤ (cbitsAt busy.enc (0x61#8 : Byte).toNat).length := by decide

/-- Each clause of DbyteAssemblesTheHeader at the ends of its ranges: the last byte of the total, the first of the table, the last of
all. -/
theorem test_witness_dbyteAssemblesTheHeader :
    (inState .awaitHeader).dec.state = .awaitHeader ∧ (inState .awaitHeader).dec.hcnt.toNat < 1028 ∧
    (after (exec (.dbyte 1#8) (State.reset.withDec { Decoder.reset with hcnt := 3#11 }))).map (fun t => t.dec.total) =
      some 0x01000000#32 ∧
    (after (exec (.dbyte 1#8) (State.reset.withDec { Decoder.reset with hcnt := 4#11 }))).map (fun t => t.dec.tree.freq) =
      some [(0, 1#32)] ∧
    (after (exec (.dbyte 1#8) (State.reset.withDec { Decoder.reset with hcnt := 1027#11 }))).map (fun t => t.dec.tree.freq) =
      some [(255, 0x01000000#32)] := by decide

theorem test_witness_headerReadsBack : (busy.withDec Decoder.reset).dec = State.reset.dec := rfl

/-- Each clause of DtreeStartsDecoding. -/
theorem test_witness_dtreeStartsDecoding :
    (inState .fault).dec.state = .fault ∧ ((inState .done).dec.state ≠ .awaitTree ∧ (inState .done).dec.state ≠ .fault) ∧
    ((inState .awaitTree).dec.state = .awaitTree ∧ (inState .awaitTree).dec.total = 0#32) ∧
    (({ aabHeader with tree := TreeUnit.reset } : Decoder).state = .awaitTree ∧
      ({ aabHeader with tree := TreeUnit.reset } : Decoder).total ≠ 0#32 ∧
      ∀ k < 256, freqAt ({ aabHeader with tree := TreeUnit.reset } : Decoder).tree k = 0#32) ∧
    (aabHeader.state = .awaitTree ∧ aabHeader.total ≠ 0#32 ∧ ∃ k < 256, freqAt aabHeader.tree k ≠ 0#32) :=
  ⟨rfl, by decide, ⟨rfl, rfl⟩, ⟨rfl, by decide, fun _ _ => rfl⟩, rfl, by decide, 0x61, by decide, by decide⟩

theorem test_witness_encInv : EncInv aabBody where
  errPhase := by decide
  sumTotal := by decide +kernel
  tree := test_witness_treeOk.1
  shape := test_witness_treeShape_aab
  countPhase := by decide
  noCodes := by decide
  clenForm := by decide
  cbitsForm := by decide
  codeBits := by decide +kernel
  lowBits := by decide
  pending := by decide

theorem test_witness_headerFieldsSumToTotal : EncInv busy.enc := test_witness_encInv

theorem test_witness_decInv : DecInv aabDecoding where
  errState := by decide
  tree := test_witness_treeOk.1
  shape := test_witness_treeShape_aab
  noTreeYet := by decide
  hcntRange := by decide
  hcntHead := by decide
  hcntFull := by decide
  reader := by decide
  dcntRange := by decide
  dcntDone := by decide
  decoding := fun _ => ⟨by decide, by decide, [], rfl⟩

theorem test_witness_oneLeafDecInv : DecInv oneLeafDecoding where
  errState := by decide
  tree := test_witness_treeOk.2
  shape := test_witness_treeShape_oneLeaf
  noTreeYet := by decide
  hcntRange := by decide
  hcntHead := by decide
  hcntFull := by decide
  reader := by decide
  dcntRange := by decide
  dcntDone := by decide
  decoding := fun _ => ⟨by decide, by decide, [], rfl⟩

/-- A root that is an internal node, and a root that is a leaf. -/
theorem test_witness_dstepWalksTheTree :
    (DecInv busy.dec ∧ busy.dec.state = .decoding) ∧ (DecInv oneLeafDecoding ∧ oneLeafDecoding.state = .decoding) :=
  ⟨⟨test_witness_decInv, rfl⟩, test_witness_oneLeafDecInv, rfl⟩

theorem test_witness_dbyteDecodesItsBits : busy.dec.state = .decoding := rfl

theorem test_witness_dbyteNeverPassesTheTotal : DecInv busy.dec ∧ busy.dec.state = .decoding := ⟨test_witness_decInv, rfl⟩

theorem test_witness_dbyteInDoneIsDiscarded : (inState .done).dec.state = .done := rfl

/-- Each clause of DendByState. -/
theorem test_witness_dendByState :
    (inState .awaitHeader).dec.state = .awaitHeader ∧ busy.dec.state = .decoding ∧ (inState .awaitTree).dec.state = .awaitTree ∧
    (inState .done).dec.state = .done ∧ (inState .fault).dec.state = .fault := by decide

theorem test_witness_messageDecodesBack :
    (∃ e', codeDerive aabBuilt = .ok e' ∧ (∀ c ∈ [0x61#8, 0x61#8, 0x62#8], clenAt e' (c : Byte).toNat ≠ 0#9) ∧
      codesOf e' [0x61#8, 0x61#8, 0x62#8] = .ok [true, true, false]) ∧
    aabBuilt.tree = busy.dec.tree ∧ DecInv busy.dec ∧ busy.dec.state = .decoding ∧ busy.dec.cur = busy.dec.tree.root ∧
    busy.dec.dcnt.toNat + [0x61#8, 0x61#8, 0x62#8].length ≤ busy.dec.total.toNat :=
  ⟨⟨_, rfl, by decide, rfl⟩, rfl, test_witness_decInv, rfl, rfl, by decide⟩

theorem test_witness_inv : (given busy 0x21C0#16).Inv := ⟨test_witness_encInv, test_witness_decInv, by decide⟩

theorem test_witness_stepKeepsInvariant : (given busy 0x21C0#16).Inv ∧ (after (step (given busy 0x21C0#16))).isSome = true :=
  ⟨test_witness_inv, by decide⟩

theorem test_witness_safeStepAlwaysCompletes : (given busy 0x21C0#16).Inv := test_witness_inv

end Sys2Proof.Machine.Test
end

section
/-! PROOFS. A command of one unit commutes with every change of the state outside that unit's reach (spec/10_state.md R47). What a
command leaves unchanged follows: run it on the state with the rest exchanged, and put the rest back. -/

namespace Sys2Proof.Machine

/-! ### Changes outside a unit's reach -/

/-- A change of the state that an encoder command neither sees nor undoes: it keeps the encoder, and commutes with every write an
encoder command makes (`ILL` is apart, see `KeepsIll`). -/
structure OutsideE (f : State → State) : Prop where
  enc     : ∀ s, (f s).enc = s.enc
  withEnc : ∀ s e, f (s.withEnc e) = (f s).withEnc e
  emit    : ∀ bs s, f (emitE bs s) = emitE bs (f s)
  respond : ∀ v s, f (respond v s) = Machine.respond v (f s)

/-- A change of the state that a decoder command neither sees nor undoes. -/
structure OutsideD (f : State → State) : Prop where
  dec     : ∀ s, (f s).dec = s.dec
  withDec : ∀ s d, f (s.withDec d) = (f s).withDec d
  emit    : ∀ b s, f (emitD b s) = emitD b (f s)
  respond : ∀ v s, f (respond v s) = Machine.respond v (f s)

/-- A change of the state that keeps `ILL` and commutes with setting it. -/
structure KeepsIll (f : State → State) : Prop where
  ill     : ∀ s, (f s).ill = s.ill
  illegal : ∀ s, f (illegal s) = Machine.illegal (f s)

/-- The command can read `ILL`, in a status register, or set it, its operand condition being broken. -/
def touchesIll : Instr → Bool
  | .erdr _ | .drdr _ => true
  | i => !i.wellFormed

theorem outcomeOf_map (f : State → State) (r : Except Fault State) : outcomeOf (r.map f) = overNext f (outcomeOf r) := by
  cases r <;> rfl

theorem overNext_next {f : State → State} {o : Out} {t : State} (h : overNext f o = .next t) : ∃ u, o = .next u ∧ t = f u := by
  cases o with
  | next u => simp only [overNext, Host.Outcome.next.injEq] at h; exact ⟨u, rfl, h.symm⟩
  | fault r => cases h
  | refused r => cases h

/-- An answer to a register read commutes with a change that `respond` and `illegal` commute with. -/
theorem KeepsIll.readRegister {f : State → State} (hill : KeepsIll f) (hrespond : ∀ v s, f (respond v s) = respond v (f s))
    (s : State) (v : Option Word32) : readRegister v (f s) = overNext f (readRegister v s) := by
  cases v with
  | some w => exact congrArg Host.Outcome.next (hrespond w s).symm
  | none => exact congrArg Host.Outcome.next (hill.illegal s).symm

section Encoder

variable {f : State → State} (hf : OutsideE f) (s : State)
include hf

theorem OutsideE.raise (c : ErrCode) : f (raiseE c s) = raiseE c (f s) := by
  show f (s.withEnc _) = (f s).withEnc _
  rw [hf.withEnc, hf.enc]

/-- A gated command commutes when its rule does. -/
theorem OutsideE.gate {p : Phase} {rule : State → Except Fault State} (h : rule (f s) = (rule s).map f) :
    gateE p (f s) rule = overNext f (gateE p s rule) := by
  unfold gateE
  rw [hf.enc, h, outcomeOf_map, ← hf.raise]
  split
  · rfl
  · split <;> rfl

theorem OutsideE.faccRule (c : Byte) : faccRule c (f s) = (faccRule c s).map f := by
  unfold Machine.faccRule
  rw [hf.enc, ← hf.raise, ← hf.withEnc]
  split
  · rfl
  · split <;> rfl

theorem OutsideE.tbuildRule : tbuildRule (f s) = (tbuildRule s).map f := by
  unfold Machine.tbuildRule
  rw [hf.enc]
  cases treeBuild s.enc.tree with
  | ok u => exact congrArg Except.ok (hf.withEnc s _).symm
  | error r => rfl

theorem OutsideE.cderiveRule : cderiveRule (f s) = (cderiveRule s).map f := by
  unfold Machine.cderiveRule
  rw [hf.enc]
  cases codeDerive s.enc with
  | ok e => exact congrArg Except.ok (hf.withEnc s _).symm
  | error r => rfl

theorem OutsideE.whdrRule : whdrRule (f s) = (whdrRule s).map f := by
  simp only [Machine.whdrRule, Except.map, hf.withEnc, hf.emit, hf.enc]

theorem OutsideE.wbWrite (b : Bool) : wbWrite b (f s) = f (wbWrite b s) := by
  unfold Machine.wbWrite
  rw [hf.enc]
  split
  · rw [hf.emit, hf.withEnc]
  · rw [hf.withEnc]

theorem OutsideE.wbWriteAll (bits : List Bool) : wbWriteAll bits (f s) = f (wbWriteAll bits s) := by
  induction bits generalizing s with
  | nil => rfl
  | cons b bits ih => simp only [Machine.wbWriteAll, hf.wbWrite, ih]

theorem OutsideE.wbFlush : wbFlush (f s) = f (wbFlush s) := by
  unfold Machine.wbFlush
  rw [hf.enc, hf.withEnc]
  split
  · rfl
  · rw [hf.emit]

theorem OutsideE.flushRule : flushRule (f s) = (flushRule s).map f := by
  simp only [Machine.flushRule, Except.map, hf.wbFlush, hf.withEnc, hf.enc]

theorem OutsideE.esymRule (c : Byte) : esymRule c (f s) = (esymRule c s).map f := by
  unfold Machine.esymRule
  rw [hf.enc, ← hf.raise]
  split
  · rfl
  · cases codeOf s.enc c.toNat with
    | ok bits => exact congrArg Except.ok (hf.wbWriteAll s bits)
    | error r => rfl

theorem OutsideE.encRegister (hill : KeepsIll f) (n : Byte) : encRegister (f s) n = encRegister s n := by
  simp only [Machine.encRegister, hf.enc, hill.ill]

/-- R47: an encoder command commutes with every change outside its reach. -/
theorem OutsideE.exec {i : Instr} (hi : forEncoder i = true) (hill : touchesIll i = true → KeepsIll f) :
    exec i (f s) = overNext f (exec i s) := by
  cases i with
  | ereset => exact congrArg Host.Outcome.next (hf.withEnc s _).symm
  | facc c => exact hf.gate s (hf.faccRule s c)
  | tbuild => exact hf.gate s (hf.tbuildRule s)
  | cderive => exact hf.gate s (hf.cderiveRule s)
  | whdr => exact hf.gate s (hf.whdrRule s)
  | esym c => exact hf.gate s (hf.esymRule s c)
  | wbit b =>
    simp only [Machine.exec, execWbit]
    split
    · exact hf.gate s (congrArg Except.ok (hf.wbWrite s _))
    · rename_i hb
      exact congrArg Host.Outcome.next ((hill (by simp [touchesIll, Instr.wellFormed, hb])).illegal s).symm
  | flush => exact hf.gate s (hf.flushRule s)
  | erdf c =>
    simp only [Machine.exec, execErdf, hf.enc]
    exact congrArg Host.Outcome.next (hf.respond _ s).symm
  | erdr n =>
    simp only [Machine.exec, execErdr, hf.encRegister s (hill rfl)]
    exact (hill rfl).readRegister hf.respond s _
  | dreset | dbyte _ | dtree | dend | drdf _ | drdr _ => simp [forEncoder, opcodeOf] at hi

end Encoder

section Decoder

variable {f : State → State} (hf : OutsideD f) (s : State)
include hf

theorem OutsideD.raise (c : ErrCode) : f (raiseD c s) = raiseD c (f s) := by
  show f (s.withDec _) = (f s).withDec _
  rw [hf.withDec, hf.dec]

theorem OutsideD.headerByteRule (v : Byte) : headerByteRule v (f s) = (headerByteRule v s).map f := by
  unfold Machine.headerByteRule
  rw [hf.dec, ← hf.withDec]
  split <;> rfl

theorem OutsideD.finishSymbol (sym : Byte) : finishSymbol sym (f s) = f (finishSymbol sym s) := by
  simp only [Machine.finishSymbol, hf.dec, hf.emit, hf.withDec]

theorem OutsideD.dstep (bit : Bool) : dstep bit (f s) = (dstep bit s).map f := by
  unfold Machine.dstep
  rw [hf.dec]
  cases nextNode s.dec bit with
  | error r => rfl
  | ok n =>
    dsimp only
    cases nodeAt s.dec.tree.node n with
    | error r => rfl
    | ok r =>
      dsimp only
      rw [hf.finishSymbol, ← hf.withDec]
      split
      · split <;> rfl
      · rfl

theorem OutsideD.decodeBit : decodeBit (f s) = (decodeBit s).map f := by
  unfold Machine.decodeBit
  rw [hf.dec]
  cases brNext s.dec with
  | error r => rfl
  | ok p =>
    obtain ⟨bit, d⟩ := p
    dsimp only
    rw [← hf.withDec]
    exact hf.dstep _ bit

theorem OutsideD.decodeBits (bound : Nat) : decodeBits bound (f s) = (decodeBits bound s).map f := by
  induction bound generalizing s with
  | zero =>
    unfold Machine.decodeBits
    rw [hf.dec]
    split <;> rfl
  | succ bound ih =>
    unfold Machine.decodeBits
    rw [hf.dec, hf.decodeBit]
    split
    · rfl
    · cases Machine.decodeBit s with
      | ok t => exact ih t
      | error r => rfl

theorem OutsideD.bodyByteRule (v : Byte) : bodyByteRule v (f s) = (bodyByteRule v s).map f := by
  unfold Machine.bodyByteRule
  rw [hf.dec, ← hf.withDec, hf.decodeBits]
  cases Machine.decodeBits 8 (s.withDec (brLoad v s.dec)) with
  | ok t =>
    dsimp only [Except.map]
    rw [hf.withDec, hf.dec]
  | error r => rfl

theorem OutsideD.dtreeRule : dtreeRule (f s) = (dtreeRule s).map f := by
  unfold Machine.dtreeRule
  rw [hf.dec, ← hf.raise, ← hf.withDec]
  split
  · rfl
  · split
    · rfl
    · cases treeBuild s.dec.tree with
      | ok u => exact congrArg Except.ok (hf.withDec s _).symm
      | error r => rfl

theorem OutsideD.decRegister (hill : KeepsIll f) (n : Byte) : decRegister (f s) n = decRegister s n := by
  simp only [Machine.decRegister, hf.dec, hill.ill]

theorem OutsideD.execDbyte (v : Byte) : execDbyte v (f s) = overNext f (execDbyte v s) := by
  unfold Machine.execDbyte
  rw [hf.dec, hf.headerByteRule, hf.bodyByteRule, ← hf.raise, outcomeOf_map, outcomeOf_map]
  cases s.dec.state <;> rfl

theorem OutsideD.execDtree : execDtree (f s) = overNext f (execDtree s) := by
  unfold Machine.execDtree
  rw [hf.dec, hf.dtreeRule, ← hf.raise, outcomeOf_map]
  cases s.dec.state <;> rfl

theorem OutsideD.execDend : execDend (f s) = overNext f (execDend s) := by
  unfold Machine.execDend
  rw [hf.dec, ← hf.raise, ← hf.raise]
  cases s.dec.state <;> rfl

/-- R47: a decoder command commutes with every change outside its reach. -/
theorem OutsideD.exec {i : Instr} (hi : forEncoder i = false) (hill : touchesIll i = true → KeepsIll f) :
    exec i (f s) = overNext f (exec i s) := by
  cases i with
  | dreset => exact congrArg Host.Outcome.next (hf.withDec s _).symm
  | dbyte v => exact hf.execDbyte s v
  | dtree => exact hf.execDtree s
  | dend => exact hf.execDend s
  | drdf c =>
    simp only [Machine.exec, execDrdf, hf.dec]
    exact congrArg Host.Outcome.next (hf.respond _ s).symm
  | drdr n =>
    simp only [Machine.exec, execDrdr, hf.decRegister s (hill rfl)]
    exact (hill rfl).readRegister hf.respond s _
  | ereset | facc _ | tbuild | cderive | whdr | esym _ | wbit _ | flush | erdf _ | erdr _ => simp [forEncoder, opcodeOf] at hi

end Decoder

/-- Settles O15: exchanging the other unit and its stream is a change outside the addressed unit's reach. -/
theorem unitsAreIndependent : Obligations.UnitsAreIndependent := by
  constructor
  · intro i s d o hi
    have hf : OutsideE (fun t => { t with dec := d, dout := o }) :=
      ⟨fun _ => rfl, fun _ _ => rfl, fun _ _ => rfl, fun _ _ => rfl⟩
    exact hf.exec s hi fun _ => ⟨fun _ => rfl, fun _ => rfl⟩
  · intro i s e o hi
    have hf : OutsideD (fun t => { t with enc := e, eout := o }) :=
      ⟨fun _ => rfl, fun _ _ => rfl, fun _ _ => rfl, fun _ _ => rfl⟩
    exact hf.exec s hi fun _ => ⟨fun _ => rfl, fun _ => rfl⟩

/-! ### What every command leaves unchanged -/

/-- A change that a command commutes with, and that changes nothing before it, changes nothing after it. -/
theorem fixed_of_commutes {f : State → State} {i : Instr} {s t : State} (hcomm : exec i (f s) = overNext f (exec i s))
    (hs : f s = s) (h : exec i s = .next t) : t = f t := by
  rw [hs, h] at hcomm
  exact Host.Outcome.next.inj hcomm

/-- An encoder command leaves the decoder. -/
theorem exec_dec {i : Instr} {s t : State} (hi : forEncoder i = true) (h : exec i s = .next t) : t.dec = s.dec := by
  rw [fixed_of_commutes (f := fun t => { t with dec := s.dec, dout := s.dout }) (unitsAreIndependent.1 i s s.dec s.dout hi) rfl h]

/-- A decoder command leaves the encoder. -/
theorem exec_enc {i : Instr} {s t : State} (hi : forEncoder i = false) (h : exec i s = .next t) : t.enc = s.enc := by
  rw [fixed_of_commutes (f := fun t => { t with enc := s.enc, eout := s.eout }) (unitsAreIndependent.2 i s s.enc s.eout hi) rfl h]

/-- What no command touches, with what the streams held: put back from `s` into a state `t`. -/
def putBack (s t : State) : State :=
  { t with
    eout := s.eout ++ t.eout, dout := s.dout ++ t.dout, rsp := s.rsp ++ t.rsp
    eoutTaken := s.eoutTaken, doutTaken := s.doutTaken, rspTaken := s.rspTaken, pc := s.pc, hostIn := s.hostIn }

/-- The state with its streams emptied: only what a command appends will stand in them. -/
def withoutStreams (s : State) : State := { s with eout := [], dout := [], rsp := [] }

theorem putBack_withoutStreams (s : State) : putBack s (withoutStreams s) = s := by
  simp only [putBack, withoutStreams, List.append_nil]

theorem outsideE_putBack (s : State) : OutsideE (putBack s) where
  enc _ := rfl
  withEnc _ _ := rfl
  emit _ _ := by simp only [putBack, emitE, List.append_assoc]
  respond _ _ := by simp only [putBack, respond, List.append_assoc]

theorem outsideD_putBack (s : State) : OutsideD (putBack s) where
  dec _ := rfl
  withDec _ _ := rfl
  emit _ _ := by simp only [putBack, emitD, List.append_assoc]
  respond _ _ := by simp only [putBack, respond, List.append_assoc]

theorem keepsIll_putBack (s : State) : KeepsIll (putBack s) := ⟨fun _ => rfl, fun _ => rfl⟩

/-- What a command answers is `s` again in everything no command touches, and the streams of `s` with something appended. -/
theorem exec_putBack {i : Instr} {s t : State} (h : exec i s = .next t) : ∃ u, t = putBack s u := by
  have hcomm : exec i (putBack s (withoutStreams s)) = overNext (putBack s) (exec i (withoutStreams s)) := by
    cases hi : forEncoder i with
    | true => exact (outsideE_putBack s).exec _ hi fun _ => keepsIll_putBack s
    | false => exact (outsideD_putBack s).exec _ hi fun _ => keepsIll_putBack s
  rw [putBack_withoutStreams, h] at hcomm
  obtain ⟨u, -, hu⟩ := overNext_next hcomm.symm
  exact ⟨u, hu⟩

/-- Settles O12: what a command appends stands behind what the streams held. -/
theorem streamsOnlyGrow : Obligations.StreamsOnlyGrow := by
  intro i s t h
  obtain ⟨u, rfl⟩ := exec_putBack h
  exact ⟨⟨u.eout, rfl⟩, ⟨u.dout, rfl⟩, ⟨u.rsp, rfl⟩⟩

/-- A command keeps what the host has taken within what was emitted. -/
theorem exec_takenOk {i : Instr} {s t : State} (h : exec i s = .next t) (hs : takenOk s) : takenOk t := by
  obtain ⟨u, rfl⟩ := exec_putBack h
  obtain ⟨he, hd, hr⟩ := hs
  simp only [takenOk, putBack, List.length_append]
  omega

/-! ### `ILL` (spec/10_state.md R24, spec/30_encoding.md R88) -/

theorem encRegister_isSome {n : Byte} (s : State) (h : n.toNat ≤ 3) : ∃ v, encRegister s n = some v := by
  obtain h | h | h | h : n.toNat = 0 ∨ n.toNat = 1 ∨ n.toNat = 2 ∨ n.toNat = 3 := by omega
  all_goals exact ⟨_, by simp only [encRegister, h]; rfl⟩

theorem decRegister_isSome {n : Byte} (s : State) (h : n.toNat ≤ 6) : ∃ v, decRegister s n = some v := by
  obtain h | h | h | h | h | h | h : n.toNat = 0 ∨ n.toNat = 1 ∨ n.toNat = 2 ∨ n.toNat = 3 ∨ n.toNat = 4 ∨ n.toNat = 5 ∨
    n.toNat = 6 := by omega
  all_goals exact ⟨_, by simp only [decRegister, h]; rfl⟩

/-- The well-formed commands that can read `ILL` are the register reads of R44 and R45. -/
theorem touchesIll_wellFormed {i : Instr} (hw : i.WellFormed) (h : touchesIll i = true) :
    (∃ n, i = .erdr n ∧ n.toNat ≤ 3) ∨ ∃ n, i = .drdr n ∧ n.toNat ≤ 6 := by
  cases i with
  | erdr n => exact .inl ⟨n, rfl, of_decide_eq_true hw⟩
  | drdr n => exact .inr ⟨n, rfl, of_decide_eq_true hw⟩
  | _ => simp [touchesIll, hw] at h

/-- A well-formed command leaves `ILL`: a register read answers a value, and to every other command `ILL` is out of reach. -/
theorem exec_ill {i : Instr} {s t : State} (hw : i.WellFormed) (h : exec i s = .next t) : t.ill = s.ill := by
  cases hill : touchesIll i with
  | true =>
    obtain ⟨n, rfl, hn⟩ | ⟨n, rfl, hn⟩ := touchesIll_wellFormed hw hill
    · obtain ⟨v, hv⟩ := encRegister_isSome s hn
      simp only [exec, execErdr, hv, readRegister] at h
      cases h
      rfl
    · obtain ⟨v, hv⟩ := decRegister_isSome s hn
      simp only [exec, execDrdr, hv, readRegister] at h
      cases h
      rfl
  | false =>
    have hno : touchesIll i = true → KeepsIll (fun t => { t with ill := s.ill }) := fun hc => by simp [hill] at hc
    have hE : OutsideE (fun t => { t with ill := s.ill }) := ⟨fun _ => rfl, fun _ _ => rfl, fun _ _ => rfl, fun _ _ => rfl⟩
    have hD : OutsideD (fun t => { t with ill := s.ill }) := ⟨fun _ => rfl, fun _ _ => rfl, fun _ _ => rfl, fun _ _ => rfl⟩
    have hcomm : exec i s = overNext (fun t => { t with ill := s.ill }) (exec i s) := by
      cases hi : forEncoder i with
      | true => exact hE.exec s hi hno
      | false => exact hD.exec s hi hno
    rw [fixed_of_commutes (f := fun t => { t with ill := s.ill }) hcomm rfl h]

theorem decodeNoArg_ok {arg : Byte} {i j : Instr} (h : decodeNoArg arg j = .ok i) : i = j := by
  unfold decodeNoArg at h
  split at h <;> cases h
  rfl

/-- R82: a decoded command meets its row's operand condition. -/
theorem wellFormed_of_decode {w : CmdWord} {i : Instr} (h : decode w = .ok i) : i.WellFormed := by
  unfold decode at h
  split at h
  case h_7 =>
    unfold decodeWbit at h
    split at h <;> cases h
    rename_i hb
    exact decide_eq_true hb
  case h_10 =>
    unfold decodeErdr at h
    split at h <;> cases h
    rename_i hn
    exact decide_eq_true hn
  case h_16 =>
    unfold decodeDrdr at h
    split at h <;> cases h
    rename_i hn
    exact decide_eq_true hn
  case h_17 => cases h
  case h_2 | h_6 | h_9 | h_12 | h_15 => cases h; rfl
  all_goals
    obtain rfl := decodeNoArg_ok h
    rfl

/-! ### The node record (spec/10_state.md R31) -/

/-- Each field of a record stands at its place among the 67 bits: behind the fields appended after it, and last of what is left. -/
theorem packNode_fields (r : NodeRec) :
    (packNode r).extractLsb' 27 40 = r.freq ∧ (packNode r).extractLsb' 18 9 = r.left ∧ (packNode r).extractLsb' 9 9 = r.right ∧
    (packNode r).getLsbD 8 = r.leaf ∧ (packNode r).extractLsb' 0 8 = r.sym := by
  unfold packNode
  refine ⟨?_, ?_, ?_, ?_, BitVec.extractLsb'_append_eq_right⟩
  · rw [BitVec.extractLsb'_append_eq_of_le (by omega), BitVec.extractLsb'_append_eq_of_le (by omega),
      BitVec.extractLsb'_append_eq_of_le (by omega)]
    exact BitVec.extractLsb'_append_eq_left
  · rw [BitVec.extractLsb'_append_eq_of_le (by omega), BitVec.extractLsb'_append_eq_of_le (by omega),
      BitVec.extractLsb'_append_eq_of_le (by omega)]
    exact BitVec.extractLsb'_append_eq_right
  · rw [BitVec.extractLsb'_append_eq_of_le (by omega), BitVec.extractLsb'_append_eq_of_le (by omega)]
    exact BitVec.extractLsb'_append_eq_right
  · rw [BitVec.getLsbD_append, if_neg (by omega), BitVec.getLsbD_append, if_pos (by omega), BitVec.getLsbD_ofBool]
    rfl

/-- A bit is the field of width 1 that stands there. -/
theorem ofBool_getLsbD {w : Nat} (v : BitVec w) (i : Nat) : BitVec.ofBool (v.getLsbD i) = v.extractLsb' i 1 := by
  ext j hj
  obtain rfl : j = 0 := by omega
  simp

/-- The five fields read from 67 bits are neighbours, so that appending them joins them to the whole. -/
theorem packNode_unpackNode (v : BitVec 67) : packNode (unpackNode v) = v := by
  dsimp only [packNode, unpackNode]
  rw [ofBool_getLsbD, BitVec.extractLsb'_append_extractLsb'_eq_extractLsb' (show 27 = 18 + 9 from rfl),
    BitVec.extractLsb'_append_extractLsb'_eq_extractLsb' (show 18 = 9 + 9 from rfl),
    BitVec.extractLsb'_append_extractLsb'_eq_extractLsb' (show 9 = 8 + 1 from rfl),
    BitVec.extractLsb'_append_extractLsb'_eq_extractLsb' (show 8 = 0 + 8 from rfl)]
  exact BitVec.extractLsb'_eq_self

theorem unpackNode_packNode (r : NodeRec) : unpackNode (packNode r) = r := by
  obtain ⟨hfreq, hleft, hright, hleaf, hsym⟩ := packNode_fields r
  simp only [unpackNode, hfreq, hleft, hright, hleaf, hsym]

/-- Settles O5, from where each field stands and the two round trips. -/
theorem nodeRecordLayout : Obligations.NodeRecordLayout :=
  ⟨packNode_fields, fun _ => ⟨rfl, rfl, rfl, rfl, rfl⟩, unpackNode_packNode, packNode_unpackNode⟩

/-! ### One step (spec/10_state.md R22, R49, R50) -/

/-- A command word is taken and run. -/
theorem step_word {s : State} {w : CmdWord} {rest : List HostInput} (h : s.hostIn = .word w :: rest) :
    step s = runWord w (acceptWord s rest) := by simp only [step, h]

theorem takeEout_eq (s : State) :
    takeEout s = { s with eoutTaken := if s.eoutTaken < s.eout.length then s.eoutTaken + 1 else s.eoutTaken } := by
  unfold takeEout
  split <;> rfl

theorem takeDout_eq (s : State) :
    takeDout s = { s with doutTaken := if s.doutTaken < s.dout.length then s.doutTaken + 1 else s.doutTaken } := by
  unfold takeDout
  split <;> rfl

theorem takeRsp_eq (s : State) :
    takeRsp s = { s with rspTaken := if s.rspTaken < s.rsp.length then s.rspTaken + 1 else s.rspTaken } := by
  unfold takeRsp
  split <;> rfl

/-- Taking an element while there is one keeps the count within the length. -/
theorem taken_le {k n : Nat} (h : k ≤ n) : (if k < n then k + 1 else k) ≤ n := by split <;> omega

/-- What a step can be: a wait, a command word, hardware reset, or a take, which changes a count of taken elements only. -/
theorem step_next {s t : State} (h : step s = .next t) :
    (s.hostIn = [] ∧ t = s) ∨
    (∃ w rest, s.hostIn = .word w :: rest ∧ runWord w (acceptWord s rest) = .next t) ∨
    (∃ rest, s.hostIn = .rst :: rest ∧ t = hardwareReset rest) ∨
    ∃ c rest, s.hostIn = c :: rest ∧ (∀ w, c ≠ .word w) ∧ t.ill = s.ill ∧ t.enc = s.enc ∧ t.dec = s.dec ∧
      (takenOk s → takenOk t) := by
  unfold step at h
  split at h
  case h_1 hin => exact .inl ⟨hin, (Host.Outcome.next.inj h).symm⟩
  case h_2 w rest hin => exact .inr (.inl ⟨w, rest, hin, h⟩)
  case h_3 rest hin => exact .inr (.inr (.inl ⟨rest, hin, (Host.Outcome.next.inj h).symm⟩))
  case h_4 rest hin =>
    obtain rfl := Host.Outcome.next.inj h
    rw [takeEout_eq]
    exact .inr (.inr (.inr ⟨_, rest, hin, nofun, rfl, rfl, rfl, fun ⟨he, hd, hr⟩ => ⟨taken_le he, hd, hr⟩⟩))
  case h_5 rest hin =>
    obtain rfl := Host.Outcome.next.inj h
    rw [takeDout_eq]
    exact .inr (.inr (.inr ⟨_, rest, hin, nofun, rfl, rfl, rfl, fun ⟨he, hd, hr⟩ => ⟨he, taken_le hd, hr⟩⟩))
  case h_6 rest hin =>
    obtain rfl := Host.Outcome.next.inj h
    rw [takeRsp_eq]
    exact .inr (.inr (.inr ⟨_, rest, hin, nofun, rfl, rfl, rfl, fun ⟨he, hd, hr⟩ => ⟨he, hd, taken_le hr⟩⟩))

/-- What a command word can be: a well-formed command, or an illegal word, which sets `ILL`. -/
theorem runWord_next {w : CmdWord} {s t : State} (h : runWord w s = .next t) :
    (∃ i, decode w = .ok i ∧ i.WellFormed ∧ exec i s = .next t) ∨ (∃ r, decode w = .error r) ∧ t = illegal s := by
  unfold runWord at h
  split at h
  · rename_i i hd
    exact .inl ⟨i, hd, wellFormed_of_decode hd, h⟩
  · rename_i r hd
    exact .inr ⟨⟨r, hd⟩, (Host.Outcome.next.inj h).symm⟩

/-- Settles O6: `step` runs the word on the state `acceptWord` leaves, and a decoded word is its command's `exec`. -/
theorem stepRunsDecodedCommand : Obligations.StepRunsDecodedCommand := by
  intro s w rest i hin hd
  rw [step_word hin, runWord, hd]
  rfl

/-- Settles O7: `step` runs the word on the state `acceptWord` leaves, and a word that does not decode is `illegal()`. -/
theorem illegalWordSetsOnlyIll : Obligations.IllegalWordSetsOnlyIll := by
  intro s w rest r hin hd
  rw [step_word hin, runWord, hd]
  rfl

/-- Settles O10: a port shows an element exactly when fewer are taken than emitted. -/
theorem hostTakesNextOutput : Obligations.HostTakesNextOutput := by
  intro s rest
  refine ⟨fun hin => ?_, fun hin => ?_, fun hin => ?_⟩
  · simp only [step, hin, takeEout_eq, eoutPort, isSome_getElem?]
    rfl
  · simp only [step, hin, takeDout_eq, doutPort, isSome_getElem?]
    rfl
  · simp only [step, hin, takeRsp_eq, rspPort, isSome_getElem?]
    rfl

/-- Settles O11: a command leaves the index and the pending inputs as taking its word left them. -/
theorem programIndexAdvancesByOne : Obligations.ProgramIndexAdvancesByOne := by
  intro s t w rest hin h
  rw [step_word hin] at h
  obtain ⟨i, -, -, hx⟩ | ⟨-, rfl⟩ := runWord_next h
  · obtain ⟨u, rfl⟩ := exec_putBack hx
    exact ⟨rfl, rfl⟩
  · exact ⟨rfl, rfl⟩

/-- Settles O13: decoded commands are well-formed and leave `ILL`, an illegal word sets it, no other input touches it. -/
theorem illSetByIllegalWordsOnly : Obligations.IllSetByIllegalWordsOnly := by
  intro s t hrst h
  obtain ⟨hin, rfl⟩ | ⟨w, rest, hin, hw⟩ | ⟨rest, hin, -⟩ | ⟨c, rest, hin, hc, hill, -⟩ := step_next h
  · simp [hin]
  · obtain ⟨i, hd, hwf, hx⟩ | ⟨⟨r, hd⟩, rfl⟩ := runWord_next hw
    · simp [hin, exec_ill hwf hx, hd]
    · simp [hin, hd]
  · simp [hin] at hrst
  · simp [hin, hill, hc]

/-- Settles O14: the pin is written as the three causes' disjunction. -/
theorem faultPinIsItsThreeCauses : Obligations.FaultPinIsItsThreeCauses := by
  intro s
  simp only [faultPin, Bool.or_eq_true, decide_eq_true_eq, or_assoc]

/-! ### Reset (spec/10_state.md R51) -/

theorem nodeAt_nil (n : NodeId) : ∃ f, nodeAt [] n = .error f := by
  unfold nodeAt
  split
  · exact ⟨_, rfl⟩
  · exact ⟨_, rfl⟩

/-- Settles O21: every element of `State.reset` is written there as its literal; an unlisted element reads as its reset value. -/
theorem resetValues : Obligations.ResetValues := by
  have hfreq : ∀ k, freqAt TreeUnit.reset k = 0#32 := fun _ => rfl
  have hnode : ∀ n, ∃ f, nodeAt TreeUnit.reset.node n = .error f := nodeAt_nil
  exact ⟨rfl, rfl, rfl, rfl, rfl, rfl, rfl, hfreq, rfl, rfl, rfl, fun _ => rfl, rfl, rfl, hnode, fun _ => rfl, rfl, rfl, rfl, rfl,
    hfreq, rfl, rfl, rfl, hnode, rfl, rfl, rfl, rfl, rfl, rfl, rfl, rfl⟩

end Sys2Proof.Machine
end

section
/-! PROOFS. Reset meets the invariant of the machine and every step keeps it: one lemma per change of a unit, assembled over the
commands by `exec_encInv` and `exec_decInv` (spec/10_state.md R26 to R42, R48). -/

namespace Sys2Proof.Machine

/-! ### The tree part of a unit -/

theorem freqSum_congr {u v : TreeUnit} (h : u.freq = v.freq) : freqSum u = freqSum v := by
  simp only [freqSum, freqAt_congr h]

/-- A table with one entry exchanged: the sum is exchanged by as much. -/
theorem freqSum_setFreq (u : TreeUnit) {k : Nat} (hk : k < 256) (v : Word32) :
    freqSum (setFreq u k v) + (freqAt u k).toNat = freqSum u + v.toNat := by
  have hmem : k ∈ Config.symbols := by simpa [Config.symbols, Config.nsym] using hk
  have hnd : Config.symbols.Nodup := List.nodup_range
  have hsplit : ∀ w : TreeUnit, freqSum w =
      (freqAt w k).toNat + ((Config.symbols.erase k).map (fun s => (freqAt w s).toNat)).sum :=
    fun w => ((List.perm_cons_erase hmem).map _).sum_eq
  have hrest : (Config.symbols.erase k).map (fun s => (freqAt (setFreq u k v) s).toNat) =
      (Config.symbols.erase k).map (fun s => (freqAt u s).toNat) := by
    refine List.map_congr_left fun j hj => ?_
    have hne : k ≠ j := fun hc => hnd.not_mem_erase (hc ▸ hj)
    rw [freqAt_setFreq, if_neg hne]
  rw [hsplit (setFreq u k v), hsplit u, hrest, freqAt_setFreq, if_pos rfl]
  omega

/-- A count below its largest value goes up by 1. -/
theorem toNat_succ_of_ne_max {v : Word32} (h : v ≠ Config.countMax) : (v + 1#32).toNat = v.toNat + 1 := by
  have hne : v.toNat ≠ 2 ^ 32 - 1 := fun hc => h (BitVec.eq_of_toNat_eq hc)
  have hlt := v.isLt
  exact BitVec.toNat_add_of_lt (y := 1#32) (show v.toNat + 1 < 2 ^ 32 by omega)

theorem treeOk_of_noTree {u : TreeUnit} (hn : noTree u) (hf : tableWfD 0#32 256 u.freq = true) (hh : u.heap = []) : treeOk u := by
  obtain ⟨hnode, hroot, hnext⟩ := hn
  refine ⟨hf, hh, by simp [hnext, Config.firstInternal], ⟨by simp [hnode], by simp [hnode]⟩, .inl hroot⟩

theorem treeShape_of_noTree {u : TreeUnit} (hn : noTree u) : TreeShape u where
  noRoot _ := hn
  owned h := absurd hn.2.1 h
  leaves h := absurd hn.2.1 h
  rootFreq h := absurd hn.2.1 h
  nextInner h := absurd hn.2.1 h

theorem treeOk_reset : treeOk TreeUnit.reset := treeOk_of_noTree ⟨rfl, rfl, rfl⟩ rfl rfl

theorem treeShape_reset : TreeShape TreeUnit.reset := treeShape_of_noTree ⟨rfl, rfl, rfl⟩

/-- What `TREE_BUILD` leaves on a unit that has no tree yet. -/
theorem treeBuild_sound {u t : TreeUnit} (hf : tableWfD 0#32 256 u.freq = true) (hn : noTree u) (h : treeBuild u = .ok t) :
    treeOk t ∧ TreeShape t ∧ t.freq = u.freq := by
  obtain ⟨t1, h1, hok, hfreq⟩ := treeBuild_treeOk hf hn
  obtain ⟨t2, h2, hshape⟩ := treeBuild_treeShape hn
  obtain rfl : t1 = t := Except.ok.inj (h1.symm.trans h)
  obtain rfl : t2 = t1 := Except.ok.inj (h2.symm.trans h)
  exact ⟨hok, hshape, hfreq⟩

/-- `TREE_BUILD` on a table with a used symbol leaves a root (R123, R124): an empty heap would mean an arena without leaves. -/
theorem treeBuild_root_ne {u t : TreeUnit} (hn : noTree u) (hz : allZero u = false) (h : treeBuild u = .ok t) :
    t.root ≠ Config.noneId := by
  obtain ⟨v, hv, hb, -, hf⟩ := treeBuild_ok (Forest u) u (.start hn)
    (fun v s _ v' hs hb hn hf h => hf.insertLeaf hs hb hn h) (fun v v' hb h2 hf h => hf.mergeOnce hb h2 h)
  obtain rfl : takeRoot v = t := Except.ok.inj (hv.symm.trans h)
  cases hh : v.heap with
  | nil =>
    exfalso
    have hused : usedSymbols u = [] := by
      have hl := hf.leaves
      rw [hf.empty hh] at hl
      exact hl.symm.eq_nil
    have hall : allZero u = true := (allZero_iff u).2 fun k hk => by
      by_contra hne
      have hm : k ∈ usedSymbols u := List.mem_filter.2 ⟨List.mem_range.2 hk, decide_eq_true hne⟩
      simp [hused] at hm
    simp [hz] at hall
  | cons r rest =>
    obtain ⟨rr, hr⟩ := hb.heapRec r (by simp [hh])
    simpa [takeRoot, hh] using (nodeAt_ok.1 hr).1

/-! ### The encoder -/

theorem encInv_reset : EncInv Encoder.reset where
  errPhase := by decide
  sumTotal := by simp [freqSum, freqAt, Encoder.reset, TreeUnit.reset]
  tree := treeOk_reset
  shape := treeShape_reset
  countPhase _ := ⟨rfl, rfl, rfl⟩
  noCodes _ := rfl
  clenForm := rfl
  cbitsForm := rfl
  codeBits _ _ := ⟨Nat.le_refl _, Nat.zero_le _⟩
  lowBits := by decide
  pending _ := rfl

theorem EncInv.raise {e : Encoder} (h : EncInv e) {c : ErrCode} (hc : c ≠ .noFault) : EncInv { e with err := c, phase := .fault } where
  errPhase := by simp [hc]
  sumTotal := h.sumTotal
  tree := h.tree
  shape := h.shape
  countPhase := nofun
  noCodes := by simp
  clenForm := h.clenForm
  cbitsForm := h.cbitsForm
  codeBits := h.codeBits
  lowBits := h.lowBits
  pending := by simp

/-- In phase COUNT one more symbol can be counted. -/
theorem EncInv.countSymbol {e : Encoder} (h : EncInv e) (hp : e.phase = .count) {c : Byte} (ht : e.total ≠ Config.countMax)
    (hf : freqAt e.tree c.toNat ≠ Config.countMax) : EncInv (countSymbol e c) where
  errPhase := h.errPhase
  sumTotal := by
    have hsum := freqSum_setFreq e.tree c.isLt (freqAt e.tree c.toNat + 1#32)
    have := h.sumTotal
    rw [toNat_succ_of_ne_max hf] at hsum
    rw [countSymbol_tree, countSymbol_total, toNat_succ_of_ne_max ht]
    omega
  tree := treeOk_of_noTree (h.countPhase hp) (tableWfD_put _ c.isLt h.tree.1) h.tree.2.1
  shape := treeShape_of_noTree (h.countPhase hp)
  countPhase := h.countPhase
  noCodes := h.noCodes
  clenForm := h.clenForm
  cbitsForm := h.cbitsForm
  codeBits := h.codeBits
  lowBits := h.lowBits
  pending := h.pending

/-- In phase COUNT the tree can be built. -/
theorem EncInv.build {e : Encoder} (h : EncInv e) (hp : e.phase = .count) {u : TreeUnit} (hu : treeBuild e.tree = .ok u) :
    EncInv ((e.withTree u).withPhase .tree) := by
  obtain ⟨hok, hshape, hfreq⟩ := treeBuild_sound h.tree.1 (h.countPhase hp) hu
  have herr : e.err = .noFault := h.errPhase.2 (by simp [hp])
  exact {
    errPhase := by simp [herr]
    sumTotal := (freqSum_congr hfreq).trans h.sumTotal
    tree := hok
    shape := hshape
    countPhase := nofun
    noCodes := fun _ => h.noCodes (.inl hp)
    clenForm := h.clenForm
    cbitsForm := h.cbitsForm
    codeBits := h.codeBits
    lowBits := h.lowBits
    pending := fun _ => h.pending (by simp [hp]) }

/-- What the invariant says of the code table alone. -/
structure CodesOk (e : Encoder) : Prop where
  clenForm  : tableWfD 0#9 256 e.clen = true
  cbitsForm : tableWfD [] 256 e.cbits = true
  codeBits  : ∀ s < 256, (clenAt e s).toNat ≤ (cbitsAt e s).length ∧ (cbitsAt e s).length ≤ 256

theorem EncInv.codesOk {e : Encoder} (h : EncInv e) : CodesOk e := ⟨h.clenForm, h.cbitsForm, h.codeBits⟩

/-- A table without codes asks for no code bits. -/
theorem CodesOk.clear {e : Encoder} (h : CodesOk e) : CodesOk { e with clen := [] } :=
  ⟨rfl, h.cbitsForm, fun s hs => ⟨Nat.zero_le _, (h.codeBits s hs).2⟩⟩

/-- Recording a code writes the bits its length names (R131). -/
theorem CodesOk.setCode {e e' : Encoder} (h : CodesOk e) {s : Byte} {path : List Bool} (hset : setCode e s path = .ok e') :
    CodesOk e' := by
  obtain ⟨hlen, -, hclen, hcbits⟩ := setCode_inv hset
  rw [setCode_ok e s hlen] at hset
  obtain rfl := Except.ok.inj hset
  refine ⟨tableWfD_put _ s.isLt h.clenForm, tableWfD_put _ s.isLt h.cbitsForm, fun k hk => ?_⟩
  rw [hclen k, hcbits k]
  by_cases hks : s.toNat = k
  · have hold := (h.codeBits s.toNat s.isLt).2
    simp only [hks, if_true, List.length_append, List.length_drop, BitVec.toNat_ofNat]
    rw [hks] at hold
    omega
  · simp only [hks, if_false]
    exact h.codeBits k hk

/-- In phase TREE the code table can be derived. -/
theorem EncInv.derive {e e' : Encoder} (h : EncInv e) (hp : e.phase = .tree) (he : codeDerive e = .ok e') :
    EncInv (e'.withPhase .codes) := by
  obtain ⟨d, hd, hcodes, hframe⟩ := codeDerive_ok CodesOk h.tree h.codesOk.clear (fun v v' s path _ hv _ hset => hv.setCode hset)
  obtain rfl : d = e' := Except.ok.inj (hd.symm.trans he)
  have herr : e.err = .noFault := h.errPhase.2 (by simp [hp])
  have hcnt : e.wbCnt = 0#3 := h.pending (by simp [hp])
  rw [hframe]
  exact {
    errPhase := by simp [herr]
    sumTotal := h.sumTotal
    tree := h.tree
    shape := h.shape
    countPhase := nofun
    noCodes := by simp
    clenForm := hcodes.clenForm
    cbitsForm := hcodes.cbitsForm
    codeBits := hcodes.codeBits
    lowBits := h.lowBits
    pending := fun _ => hcnt }

/-- The encoder in another phase without fault, its tree built and its codes derived as far as they are. -/
theorem EncInv.toPhase {e : Encoder} (h : EncInv e) {p : Phase} (hp : e.phase ≠ .fault) (hpf : p ≠ .fault)
    (hpc : p ≠ .count) (hpt : p ≠ .tree) (hcnt : p = .body ∨ e.wbCnt = 0#3) : EncInv (e.withPhase p) where
  errPhase := by simp [h.errPhase, hp, hpf]
  sumTotal := h.sumTotal
  tree := h.tree
  shape := h.shape
  countPhase hc := absurd hc hpc
  noCodes hc := absurd hc (by simp [hpc, hpt])
  clenForm := h.clenForm
  cbitsForm := h.cbitsForm
  codeBits := h.codeBits
  lowBits := h.lowBits
  pending hne := hcnt.resolve_left hne.1

/-- In phase BODY the writer can hold any bits, those below the pending ones being 0. -/
theorem EncInv.withWriter {e : Encoder} (h : EncInv e) (hp : e.phase = .body) {acc : Byte} {cnt : BitVec 3}
    (hlow : acc <<< cnt.toNat = 0#8) : EncInv (e.withWriter acc cnt) where
  errPhase := h.errPhase
  sumTotal := h.sumTotal
  tree := h.tree
  shape := h.shape
  countPhase := h.countPhase
  noCodes := h.noCodes
  clenForm := h.clenForm
  cbitsForm := h.cbitsForm
  codeBits := h.codeBits
  lowBits := hlow
  pending hne := absurd hp hne.1

/-- A bit placed below the pending ones leaves the bits below it 0 (R35, R141). -/
theorem placeBit_lowBits {acc : Byte} {cnt : BitVec 3} (b : Bool) (hlow : acc <<< cnt.toNat = 0#8) :
    placeBit acc cnt b <<< (cnt.toNat + 1) = 0#8 := by
  have hcnt := cnt.isLt
  have hacc : acc <<< (cnt.toNat + 1) = 0#8 := by rw [BitVec.shiftLeft_add, hlow, BitVec.zero_shiftLeft]
  have hbit : ∀ x : Byte, x <<< (7 - cnt.toNat) <<< (cnt.toNat + 1) = 0#8 := fun x => by
    rw [← BitVec.shiftLeft_add, show 7 - cnt.toNat + (cnt.toNat + 1) = 8 by omega]
    exact BitVec.shiftLeft_eq_zero (Nat.le_refl _)
  rw [placeBit, BitVec.shiftLeft_or_distrib, hacc, hbit, BitVec.or_zero]

/-- `WB_WRITE` in phase BODY. -/
theorem EncInv.wbWrite {s : State} (h : EncInv s.enc) (hp : s.enc.phase = .body) (b : Bool) : EncInv (wbWrite b s).enc := by
  unfold Machine.wbWrite
  split
  · exact h.withWriter hp rfl
  · rename_i hne
    have h7 : s.enc.wbCnt.toNat ≠ 7 := fun hc => hne (BitVec.eq_of_toNat_eq hc)
    have h8 := s.enc.wbCnt.isLt
    have hnext : (s.enc.wbCnt + 1#3).toNat = s.enc.wbCnt.toNat + 1 :=
      BitVec.toNat_add_of_lt (y := 1#3) (show s.enc.wbCnt.toNat + 1 < 2 ^ 3 by omega)
    exact h.withWriter hp (by rw [hnext]; exact placeBit_lowBits b h.lowBits)

/-- `WB_WRITE` of bits in phase BODY. -/
theorem EncInv.wbWriteAll {s : State} (h : EncInv s.enc) (hp : s.enc.phase = .body) (bits : List Bool) :
    EncInv (wbWriteAll bits s).enc := by
  induction bits generalizing s with
  | nil => exact h
  | cons b bits ih =>
    have hp' : (Machine.wbWrite b s).enc.phase = .body := by rw [wbWrite_frame]; exact hp
    exact ih (h.wbWrite hp b) hp'

/-- A gated command keeps the encoder's invariant when its rule does in its phase. -/
theorem gateE_encInv {p : Phase} {rule : State → Except Fault State} {s t : State} (h : gateE p s rule = .next t)
    (hs : EncInv s.enc) (hrule : s.enc.phase = p → rule s = .ok t → EncInv t.enc) : EncInv t.enc := by
  obtain ⟨-, rfl⟩ | ⟨-, hp, hr⟩ | ⟨-, -, rfl⟩ := gateE_next h
  · exact hs
  · exact hrule hp hr
  · exact hs.raise (by simp)

theorem EncInv.faccRule {s t : State} (hs : EncInv s.enc) (hp : s.enc.phase = .count) {c : Byte} (h : faccRule c s = .ok t) :
    EncInv t.enc := by
  unfold Machine.faccRule at h
  split at h
  · obtain rfl := Except.ok.inj h
    exact hs.raise (by simp)
  · rename_i ht
    split at h
    · cases h
    · rename_i hf
      obtain rfl := Except.ok.inj h
      exact hs.countSymbol hp ht hf

theorem EncInv.tbuildRule {s t : State} (hs : EncInv s.enc) (hp : s.enc.phase = .count) (h : tbuildRule s = .ok t) :
    EncInv t.enc := by
  unfold Machine.tbuildRule at h
  split at h
  · rename_i u hu
    obtain rfl := Except.ok.inj h
    exact hs.build hp hu
  · cases h

theorem EncInv.cderiveRule {s t : State} (hs : EncInv s.enc) (hp : s.enc.phase = .tree) (h : cderiveRule s = .ok t) :
    EncInv t.enc := by
  unfold Machine.cderiveRule at h
  split at h
  · rename_i e he
    obtain rfl := Except.ok.inj h
    exact hs.derive hp he
  · cases h

theorem EncInv.whdrRule {s t : State} (hs : EncInv s.enc) (hp : s.enc.phase = .codes) (h : whdrRule s = .ok t) : EncInv t.enc := by
  obtain rfl := Except.ok.inj h
  exact hs.toPhase (by simp [hp]) (by simp) (by simp) (by simp) (.inl rfl)

theorem EncInv.esymRule {s t : State} (hs : EncInv s.enc) (hp : s.enc.phase = .body) {c : Byte} (h : esymRule c s = .ok t) :
    EncInv t.enc := by
  unfold Machine.esymRule at h
  split at h
  · obtain rfl := Except.ok.inj h
    exact hs.raise (by simp)
  · split at h
    · rename_i bits _
      obtain rfl := Except.ok.inj h
      exact hs.wbWriteAll hp bits
    · cases h

theorem EncInv.flushRule {s t : State} (hs : EncInv s.enc) (hp : s.enc.phase = .body) (h : flushRule s = .ok t) : EncInv t.enc := by
  obtain rfl := Except.ok.inj h
  have hflush : EncInv (wbFlush s).enc := by
    rw [wbFlush_eq]
    exact hs.withWriter (acc := 0#8) (cnt := 0#3) hp rfl
  refine hflush.toPhase ?_ (by simp) (by simp) (by simp) (.inr ?_)
  · simp [wbFlush_eq, hp]
  · simp [wbFlush_eq]

/-- An answer to a register read leaves both units. -/
theorem readRegister_units {v : Option Word32} {s t : State} (h : readRegister v s = .next t) : t.enc = s.enc ∧ t.dec = s.dec := by
  unfold readRegister at h
  split at h
  all_goals
    obtain rfl := Host.Outcome.next.inj h
    exact ⟨rfl, rfl⟩

/-- Every encoder command keeps the encoder's invariant. -/
theorem exec_encInv {i : Instr} {s t : State} (hi : forEncoder i = true) (hs : EncInv s.enc) (h : exec i s = .next t) :
    EncInv t.enc := by
  cases i with
  | ereset => obtain rfl := Host.Outcome.next.inj h; exact encInv_reset
  | facc c => exact gateE_encInv h hs fun hp => hs.faccRule hp
  | tbuild => exact gateE_encInv h hs fun hp => hs.tbuildRule hp
  | cderive => exact gateE_encInv h hs fun hp => hs.cderiveRule hp
  | whdr => exact gateE_encInv h hs fun hp => hs.whdrRule hp
  | esym c => exact gateE_encInv h hs fun hp => hs.esymRule hp
  | wbit b =>
    simp only [exec, execWbit] at h
    split at h
    · refine gateE_encInv h hs fun hp hr => ?_
      obtain rfl := Except.ok.inj hr
      exact hs.wbWrite hp _
    · obtain rfl := Host.Outcome.next.inj h
      exact hs
  | flush => exact gateE_encInv h hs fun hp => hs.flushRule hp
  | erdf c => obtain rfl := Host.Outcome.next.inj h; exact hs
  | erdr n => rw [(readRegister_units h).1]; exact hs
  | dreset | dbyte _ | dtree | dend | drdf _ | drdr _ => simp [forEncoder, opcodeOf] at hi

/-! ### The decoder -/

theorem decInv_reset : DecInv Decoder.reset where
  errState := by decide
  tree := treeOk_reset
  shape := treeShape_reset
  noTreeYet _ := ⟨⟨rfl, rfl, rfl⟩, rfl, rfl⟩
  hcntRange := by decide
  hcntHead _ := by decide
  hcntFull h := absurd rfl h.1
  reader := rfl
  dcntRange := Nat.le_refl _
  dcntDone := nofun
  decoding := nofun

theorem DecInv.raise {d : Decoder} (h : DecInv d) {c : ErrCode} (hc : c ≠ .noFault) : DecInv { d with err := c, state := .fault } where
  errState := by simp [hc]
  tree := h.tree
  shape := h.shape
  noTreeYet := by simp
  hcntRange := h.hcntRange
  hcntHead := nofun
  hcntFull := by simp
  reader := h.reader
  dcntRange := h.dcntRange
  dcntDone := nofun
  decoding := nofun

/-- A header byte goes to the total or to an entry of the table (R171). -/
theorem storeHeaderByte_frame (d : Decoder) {h : Nat} (v : Byte) (hh : h < 1028) (hf : tableWfD 0#32 256 d.tree.freq = true) :
    ∃ total freq, storeHeaderByte d h v = { d with total := total, tree := { d.tree with freq := freq } } ∧
      tableWfD 0#32 256 freq = true := by
  unfold storeHeaderByte
  split
  · exact ⟨_, _, rfl, hf⟩
  · exact ⟨_, _, rfl, tableWfD_put _ (by omega) hf⟩

/-- In `AwaitHeader` the total, the table and the count can take any values that fit the state reached. -/
theorem DecInv.storeHeader {d : Decoder} (h : DecInv d) (hst : d.state = .awaitHeader) (total : Word32) {freq : List (Nat × Word32)}
    (hf : tableWfD 0#32 256 freq = true) {st : DState} {hcnt : BitVec 11}
    (hcase : st = .awaitTree ∧ hcnt.toNat = 1028 ∨ st = .awaitHeader ∧ hcnt.toNat < 1028) :
    DecInv { d with state := st, hcnt := hcnt, total := total, tree := { d.tree with freq := freq } } := by
  obtain ⟨hn, hd0, hcur⟩ := h.noTreeYet (.inl hst)
  have herr : d.err = .noFault := h.errState.2 (by simp [hst])
  have htree : noTree { d.tree with freq := freq } := hn
  have hstate : st = .awaitTree ∨ st = .awaitHeader := hcase.imp And.left And.left
  exact {
    errState := by obtain rfl | rfl := hstate <;> simp [herr]
    tree := treeOk_of_noTree htree hf h.tree.2.1
    shape := treeShape_of_noTree htree
    noTreeYet := fun _ => ⟨htree, hd0, hcur⟩
    hcntRange := by dsimp only; omega
    hcntHead := by obtain ⟨rfl, -⟩ | ⟨-, hlt⟩ := hcase; exacts [nofun, fun _ => hlt]
    hcntFull := by obtain ⟨-, hfull⟩ | ⟨rfl, -⟩ := hcase; exacts [fun _ => hfull, fun hne => absurd rfl hne.1]
    reader := h.reader
    dcntRange := by simp [hd0]
    dcntDone := by obtain rfl | rfl := hstate <;> nofun
    decoding := by obtain rfl | rfl := hstate <;> nofun }

theorem DecInv.headerByteRule {s t : State} (hs : DecInv s.dec) (hst : s.dec.state = .awaitHeader) {v : Byte}
    (h : headerByteRule v s = .ok t) : DecInv t.dec := by
  have hlt := hs.hcntHead hst
  obtain ⟨total, freq, hstore, hf⟩ := storeHeaderByte_frame s.dec v hlt hs.tree.1
  have hcnt : (s.dec.hcnt + 1#11).toNat = s.dec.hcnt.toNat + 1 :=
    BitVec.toNat_add_of_lt (y := 1#11) (show s.dec.hcnt.toNat + 1 < 2 ^ 11 by omega)
  simp only [Machine.headerByteRule, Config.hdrLen, hlt, if_true, hstore] at h
  obtain rfl := Except.ok.inj h
  refine hs.storeHeader hst total hf ?_
  rw [hcnt]
  by_cases hfull : s.dec.hcnt.toNat + 1 = 1028
  · exact .inl ⟨if_pos hfull, hfull⟩
  · exact .inr ⟨if_neg hfull, by omega⟩

/-! #### The cursor (spec/10_state.md R40) -/

/-- The cursor may stand on a listed root, be it a leaf or not. -/
theorem cursorOk_root {d : Decoder} {r : NodeRec} (hr : nodeAt d.tree.node d.tree.root = .ok r) (hc : d.cur = d.tree.root) :
    cursorOk d = true := by
  cases hl : r.leaf <;> simp [cursorOk, hc, (nodeAt_ok.1 hr).2, hl]

/-- Below a root that is an internal node, the cursor stands on an internal node. -/
theorem cursorOk_inner {d : Decoder} {r c : NodeRec} (hr : nodeAt d.tree.node d.tree.root = .ok r) (hl : r.leaf = false)
    (hc : nodeAt d.tree.node d.cur = .ok c) : cursorOk d = !c.leaf := by
  simp [cursorOk, (nodeAt_ok.1 hr).2, hl, (nodeAt_ok.1 hc).2]

/-- `DTREE` with a used symbol: the tree is built and the cursor is on its root (R172). -/
theorem DecInv.startDecoding {d : Decoder} (h : DecInv d) (hst : d.state = .awaitTree) (ht : d.total ≠ 0#32)
    (hz : allZero d.tree = false) {u : TreeUnit} (hu : treeBuild d.tree = .ok u) :
    DecInv { d with tree := u, cur := u.root, dcnt := 0#32, state := .decoding } := by
  obtain ⟨hn, -, -⟩ := h.noTreeYet (.inr hst)
  obtain ⟨hok, hshape, -⟩ := treeBuild_sound h.tree.1 hn hu
  have hroot := treeBuild_root_ne hn hz hu
  obtain ⟨r, hr⟩ := Option.isSome_iff_exists.1 (hok.2.2.2.2.resolve_left hroot)
  have herr : d.err = .noFault := h.errState.2 (by simp [hst])
  have hpos : 0 < d.total.toNat := Nat.pos_of_ne_zero fun hc => ht (BitVec.eq_of_toNat_eq hc)
  exact {
    errState := by simp [herr]
    tree := hok
    shape := hshape
    noTreeYet := by simp
    hcntRange := h.hcntRange
    hcntHead := nofun
    hcntFull := fun _ => h.hcntFull (by simp [hst])
    reader := h.reader
    dcntRange := Nat.zero_le _
    dcntDone := nofun
    decoding := fun _ => ⟨hpos, cursorOk_root (nodeAt_ok.2 ⟨hroot, hr⟩) rfl, [], follow_nil _ _⟩ }

/-! #### One bit (spec/47_container_decode.md R176) -/

/-- A symbol completed while fewer than the total are decoded (R176, R177). -/
theorem DecInv.finishSymbol {s : State} (h : DecInv s.dec) (hst : s.dec.state = .decoding) (sym : Byte) {r : NodeRec}
    (hr : nodeAt s.dec.tree.node s.dec.tree.root = .ok r) : DecInv (finishSymbol sym s).dec := by
  obtain ⟨hlt, -, -⟩ := h.decoding hst
  have herr : s.dec.err = .noFault := h.errState.2 (by simp [hst])
  have hfull : s.dec.hcnt.toNat = 1028 := h.hcntFull (by simp [hst])
  have htot := s.dec.total.isLt
  have hnext : (s.dec.dcnt + 1#32).toNat = s.dec.dcnt.toNat + 1 :=
    BitVec.toNat_add_of_lt (y := 1#32) (show s.dec.dcnt.toNat + 1 < 2 ^ 32 by omega)
  by_cases hdone : s.dec.dcnt + 1#32 = s.dec.total
  · simp only [Machine.finishSymbol, emitD_dec, State_withDec_dec, hdone, if_true]
    exact {
      errState := by simp [herr]
      tree := h.tree
      shape := h.shape
      noTreeYet := by simp
      hcntRange := h.hcntRange
      hcntHead := nofun
      hcntFull := fun _ => hfull
      reader := h.reader
      dcntRange := Nat.le_refl _
      dcntDone := fun _ => rfl
      decoding := nofun }
  · have hne : s.dec.dcnt.toNat + 1 ≠ s.dec.total.toNat := fun hc => hdone (BitVec.eq_of_toNat_eq (hnext.trans hc))
    simp only [Machine.finishSymbol, emitD_dec, State_withDec_dec, hdone, if_false, hst]
    exact {
      errState := by simp [herr]
      tree := h.tree
      shape := h.shape
      noTreeYet := by simp
      hcntRange := h.hcntRange
      hcntHead := nofun
      hcntFull := fun _ => hfull
      reader := h.reader
      dcntRange := by simp only [hnext]; omega
      dcntDone := nofun
      decoding := fun _ => ⟨by simp only [hnext]; omega, cursorOk_root hr rfl, [], follow_nil _ _⟩ }

/-- The cursor moved in state `Decoding` to where it may stand. -/
theorem DecInv.moveCursor {d : Decoder} (h : DecInv d) (hst : d.state = .decoding) {n : NodeId}
    (hc : cursorOk { d with cur := n } = true) (hpath : ∃ path, follow d.tree.node d.tree.root path = some n) :
    DecInv { d with cur := n } where
  errState := h.errState
  tree := h.tree
  shape := h.shape
  noTreeYet := by simp [hst]
  hcntRange := h.hcntRange
  hcntHead := h.hcntHead
  hcntFull := h.hcntFull
  reader := h.reader
  dcntRange := h.dcntRange
  dcntDone := h.dcntDone
  decoding _ := ⟨(h.decoding hst).1, hc, hpath⟩

/-- `DSTEP` in state `Decoding`: at a leaf a symbol is completed; else the root is an internal node, so the cursor was on one, and goes to
the child the bit names. -/
theorem DecInv.dstep {s t : State} (hs : DecInv s.dec) (hst : s.dec.state = .decoding) {bit : Bool} (h : dstep bit s = .ok t) :
    DecInv t.dec := by
  obtain ⟨-, hcur, path, hpath⟩ := hs.decoding hst
  obtain ⟨root, cur, n, r, hroot, hcurAt, hn, hnext, hr⟩ := nextNode_recorded hs.tree hcur bit
  obtain ⟨m, q, hm, hq, hcase⟩ := dstep_ok h
  obtain rfl : n = m := Except.ok.inj (hnext.symm.trans hm)
  obtain rfl : r = q := Except.ok.inj (hr.symm.trans hq)
  obtain ⟨-, -, rfl⟩ | ⟨hl, rfl⟩ := hcase
  · exact hs.finishSymbol hst r.sym hroot
  · have hrl : root.leaf = false := by
      by_contra hc
      rw [Bool.not_eq_false] at hc
      rw [hc, if_pos rfl] at hn
      rw [hn, hroot] at hr
      rw [← Except.ok.inj hr, hc] at hl
      cases hl
    have hcl : cur.leaf = false := by simpa [cursorOk_inner hroot hrl hcurAt] using hcur
    rw [hrl, if_neg (by simp)] at hn
    refine hs.moveCursor hst ?_ ⟨path ++ [bit], ?_⟩
    · rw [cursorOk_inner (d := { s.dec with cur := n }) hroot hrl hr, hl]
      rfl
    · rw [follow_append hpath, follow_cons hcurAt hcl, follow_nil, hn]

/-! #### One byte (spec/47_container_decode.md R174) -/

/-- The invariant says of the reader only that it is empty (R42). -/
theorem DecInv.emptyReader {d : Decoder} {v : Byte} {c : BitVec 4} (h : DecInv (d.withReader v c)) (v' : Byte) :
    DecInv (d.withReader v' 0#4) where
  errState := h.errState
  tree := h.tree
  shape := h.shape
  noTreeYet := h.noTreeYet
  hcntRange := h.hcntRange
  hcntHead := h.hcntHead
  hcntFull := h.hcntFull
  reader := rfl
  dcntRange := h.dcntRange
  dcntDone := h.dcntDone
  decoding := h.decoding

/-- One turn of the bit loop keeps what the invariant says apart from the reader, which `DSTEP` neither reads nor writes. -/
theorem decodeBit_decInv {s t : State} (hs : DecInv (s.dec.withReader 0#8 0#4)) (hst : s.dec.state = .decoding)
    (h : decodeBit s = .ok t) : DecInv (t.dec.withReader 0#8 0#4) := by
  unfold decodeBit at h
  split at h
  · rename_i bit d hb
    obtain ⟨-, -, -, rfl⟩ := brNext_ok hb
    have hempty := dstep_withReader bit (s.withDec (s.dec.withReader s.dec.brByte (s.dec.brCnt - 1#4))) 0#8 0#4
    rw [h] at hempty
    exact DecInv.dstep (s := s.withDec (s.dec.withReader 0#8 0#4)) hs hst hempty
  · cases h

theorem decodeBits_decInv (bound : Nat) {s t : State} (hs : DecInv (s.dec.withReader 0#8 0#4)) (h : decodeBits bound s = .ok t) :
    DecInv (t.dec.withReader 0#8 0#4) := by
  induction bound generalizing s with
  | zero =>
    unfold decodeBits at h
    split at h
    · obtain rfl := Except.ok.inj h
      exact hs
    · cases h
  | succ bound ih =>
    unfold decodeBits at h
    split at h
    · obtain rfl := Except.ok.inj h
      exact hs
    · rename_i hgo
      have hst : s.dec.state = .decoding := by
        by_contra hc
        exact hgo (.inr hc)
      split at h
      · rename_i s' hb
        exact ih (decodeBit_decInv hs hst hb) h
      · cases h

theorem DecInv.bodyByteRule {s t : State} (hs : DecInv s.dec) {v : Byte} (h : bodyByteRule v s = .ok t) : DecInv t.dec := by
  unfold Machine.bodyByteRule at h
  split at h
  · rename_i s' hbits
    obtain rfl := Except.ok.inj h
    have hload : DecInv ((brLoad v s.dec).withReader 0#8 0#4) :=
      DecInv.emptyReader (d := s.dec) (v := s.dec.brByte) (c := s.dec.brCnt) hs 0#8
    exact (decodeBits_decInv 8 (s := s.withDec (brLoad v s.dec)) hload hbits).emptyReader s'.dec.brByte
  · cases h

/-! #### The decoder's commands -/

theorem DecInv.dtreeRule {s t : State} (hs : DecInv s.dec) (hst : s.dec.state = .awaitTree) (h : dtreeRule s = .ok t) :
    DecInv t.dec := by
  unfold Machine.dtreeRule at h
  split at h
  · rename_i ht
    obtain rfl := Except.ok.inj h
    obtain ⟨-, hd0, -⟩ := hs.noTreeYet (.inr hst)
    have herr : s.dec.err = .noFault := hs.errState.2 (by simp [hst])
    exact {
      errState := by simp [herr]
      tree := hs.tree
      shape := hs.shape
      noTreeYet := by simp
      hcntRange := hs.hcntRange
      hcntHead := nofun
      hcntFull := fun _ => hs.hcntFull (by simp [hst])
      reader := hs.reader
      dcntRange := hs.dcntRange
      dcntDone := fun _ => hd0.trans ht.symm
      decoding := nofun }
  · rename_i ht
    split at h
    · obtain rfl := Except.ok.inj h
      exact hs.raise (by simp)
    · rename_i hz
      split at h
      · rename_i u hu
        obtain rfl := Except.ok.inj h
        exact hs.startDecoding hst ht (by simpa using hz) hu
      · cases h

theorem DecInv.execDbyte {s t : State} (hs : DecInv s.dec) {v : Byte} (h : execDbyte v s = .next t) : DecInv t.dec := by
  unfold Machine.execDbyte at h
  split at h
  · rename_i hst
    exact hs.headerByteRule hst (outcomeOf_next h)
  · obtain rfl := Host.Outcome.next.inj h
    exact hs.raise (by simp)
  · exact hs.bodyByteRule (outcomeOf_next h)
  · obtain rfl := Host.Outcome.next.inj h
    exact hs
  · obtain rfl := Host.Outcome.next.inj h
    exact hs

theorem DecInv.execDtree {s t : State} (hs : DecInv s.dec) (h : execDtree s = .next t) : DecInv t.dec := by
  unfold Machine.execDtree at h
  split at h
  case h_2 hst => exact hs.dtreeRule hst (outcomeOf_next h)
  case h_5 =>
    obtain rfl := Host.Outcome.next.inj h
    exact hs
  all_goals
    obtain rfl := Host.Outcome.next.inj h
    exact hs.raise (by simp)

theorem DecInv.execDend {s t : State} (hs : DecInv s.dec) (h : execDend s = .next t) : DecInv t.dec := by
  unfold Machine.execDend at h
  split at h
  case h_4 | h_5 =>
    obtain rfl := Host.Outcome.next.inj h
    exact hs
  all_goals
    obtain rfl := Host.Outcome.next.inj h
    exact hs.raise (by simp)

/-- Every decoder command keeps the decoder's invariant. -/
theorem exec_decInv {i : Instr} {s t : State} (hi : forEncoder i = false) (hs : DecInv s.dec) (h : exec i s = .next t) :
    DecInv t.dec := by
  cases i with
  | dreset => obtain rfl := Host.Outcome.next.inj h; exact decInv_reset
  | dbyte v => exact hs.execDbyte h
  | dtree => exact hs.execDtree h
  | dend => exact hs.execDend h
  | drdf c => obtain rfl := Host.Outcome.next.inj h; exact hs
  | drdr n => rw [(readRegister_units h).2]; exact hs
  | ereset | facc _ | tbuild | cderive | whdr | esym _ | wbit _ | flush | erdf _ | erdr _ => simp [forEncoder, opcodeOf] at hi

/-! ### The machine -/

/-- Settles O57, from the two units' reset values. -/
theorem resetMeetsInvariant : Obligations.ResetMeetsInvariant := ⟨encInv_reset, decInv_reset, by decide⟩

/-- Every command keeps the invariant: its own unit's by the unit's lemma, the other unit being left as it was. -/
theorem exec_inv {i : Instr} {s t : State} (hs : s.Inv) (h : exec i s = .next t) : t.Inv := by
  have htaken := exec_takenOk h hs.taken
  cases hi : forEncoder i with
  | true => exact ⟨exec_encInv hi hs.enc h, by rw [exec_dec hi h]; exact hs.dec, htaken⟩
  | false => exact ⟨by rw [exec_enc hi h]; exact hs.enc, exec_decInv hi hs.dec h, htaken⟩

/-- Settles O58: a wait, a take and an illegal word leave both units, hardware reset gives the reset values, and a decoded command keeps
the invariant by `exec_inv`. -/
theorem stepKeepsInvariant : Obligations.StepKeepsInvariant := by
  intro s t hs h
  obtain ⟨-, rfl⟩ | ⟨w, rest, -, hw⟩ | ⟨rest, -, rfl⟩ | ⟨c, rest, -, -, -, henc, hdec, htaken⟩ := step_next h
  · exact hs
  · have haccept : (acceptWord s rest).Inv := ⟨hs.enc, hs.dec, hs.taken⟩
    obtain ⟨i, -, -, hx⟩ | ⟨-, rfl⟩ := runWord_next hw
    · exact exec_inv haccept hx
    · exact ⟨hs.enc, hs.dec, hs.taken⟩
  · exact ⟨encInv_reset, decInv_reset, resetMeetsInvariant.taken⟩
  · exact ⟨henc ▸ hs.enc, hdec ▸ hs.dec, htaken hs.taken⟩

end Sys2Proof.Machine
end

section
/-! PROOFS. Decoding and encoding are inverse to each other, and the decoder refuses exactly the reserved words (spec/30_encoding.md R80
to R82, R88, R94). -/

namespace Sys2Proof

open Laws.EncodeFields (fields_of_append)

/-! ### The fields of a word (spec/30_encoding.md R80) -/

/-- A word is its two fields, `op` above `arg`. -/
theorem opField_append_argField (w : CmdWord) : opField w ++ argField w = w := by
  rw [opField, argField, BitVec.extractLsb'_append_extractLsb'_eq_extractLsb' (show 8 = 0 + 8 from rfl)]
  exact BitVec.extractLsb'_eq_self

theorem opField_toNat (w : CmdWord) : (opField w).toNat = w.toNat / 256 := by
  have hw := w.isLt
  rw [opField, BitVec.extractLsb'_toNat, Nat.shiftRight_eq_div_pow]
  omega

theorem argField_toNat (w : CmdWord) : (argField w).toNat = w.toNat % 256 := by
  rw [argField, BitVec.extractLsb'_toNat, Nat.shiftRight_zero]

theorem opField_encode (i : Instr) : opField (encode i) = opcodeOf i := (fields_of_append _ _).1

theorem argField_encode (i : Instr) : argField (encode i) = operandOf i := (fields_of_append _ _).2

/-! ### Rows with an operand condition (spec/30_encoding.md R82) -/

theorem decodeNoArg_eq_ok {arg : Byte} {i j : Instr} : decodeNoArg arg i = .ok j ↔ arg = 0#8 ∧ i = j := by
  unfold decodeNoArg
  split <;> simp [*]

theorem decodeWbit_eq_ok {arg : Byte} {i : Instr} : decodeWbit arg = .ok i ↔ arg.toNat ≤ 1 ∧ .wbit arg = i := by
  unfold decodeWbit
  split <;> simp [*]

theorem decodeErdr_eq_ok {arg : Byte} {i : Instr} : decodeErdr arg = .ok i ↔ arg.toNat ≤ 3 ∧ .erdr arg = i := by
  unfold decodeErdr
  split <;> simp [*]

theorem decodeDrdr_eq_ok {arg : Byte} {i : Instr} : decodeDrdr arg = .ok i ↔ arg.toNat ≤ 6 ∧ .drdr arg = i := by
  unfold decodeDrdr
  split <;> simp [*]

/-! ### Decoding an encoded command -/

/-- R82, R94: the row the opcode names accepts the operand. -/
theorem decode_encode {i : Instr} (hw : i.WellFormed) : decode (encode i) = .ok i := by
  unfold decode
  rw [opField_encode, argField_encode]
  cases i with
  | ereset | tbuild | cderive | whdr | flush | dreset | dtree | dend => rfl
  | facc _ | esym _ | erdf _ | dbyte _ | drdf _ => rfl
  | wbit b => exact decodeWbit_eq_ok.2 ⟨of_decide_eq_true hw, rfl⟩
  | erdr n => exact decodeErdr_eq_ok.2 ⟨of_decide_eq_true hw, rfl⟩
  | drdr n => exact decodeDrdr_eq_ok.2 ⟨of_decide_eq_true hw, rfl⟩

/-- R82: the fields of a word that decodes are the opcode and the operand of the command. -/
theorem fields_of_decode {w : CmdWord} {i : Instr} (h : decode w = .ok i) : opcodeOf i = opField w ∧ operandOf i = argField w := by
  unfold decode at h
  split at h
  case h_17 => cases h
  case h_2 hop | h_6 hop | h_9 hop | h_12 hop | h_15 hop =>
    cases h
    exact ⟨BitVec.eq_of_toNat_eq hop.symm, rfl⟩
  case h_7 hop =>
    obtain ⟨-, rfl⟩ := decodeWbit_eq_ok.1 h
    exact ⟨BitVec.eq_of_toNat_eq hop.symm, rfl⟩
  case h_10 hop =>
    obtain ⟨-, rfl⟩ := decodeErdr_eq_ok.1 h
    exact ⟨BitVec.eq_of_toNat_eq hop.symm, rfl⟩
  case h_16 hop =>
    obtain ⟨-, rfl⟩ := decodeDrdr_eq_ok.1 h
    exact ⟨BitVec.eq_of_toNat_eq hop.symm, rfl⟩
  all_goals
    rename_i hop
    obtain ⟨harg, rfl⟩ := decodeNoArg_eq_ok.1 h
    exact ⟨BitVec.eq_of_toNat_eq hop.symm, harg.symm⟩

theorem encode_of_decode {w : CmdWord} {i : Instr} (h : decode w = .ok i) : encode i = w := by
  obtain ⟨hop, harg⟩ := fields_of_decode h
  rw [encode, hop, harg, opField_append_argField]

/-- The words that decode are the words of the well-formed commands. -/
theorem decode_eq_ok {w : CmdWord} {i : Instr} : decode w = .ok i ↔ i.WellFormed ∧ encode i = w :=
  ⟨fun h => ⟨Machine.wellFormed_of_decode h, encode_of_decode h⟩, fun ⟨hw, he⟩ => he ▸ decode_encode hw⟩

/-- Settles O1: each row of the decoder, given the opcode of its own command. -/
theorem decodeEncodeRoundTrip : Obligations.DecodeEncodeRoundTrip := fun _ => decode_encode

/-- Settles O2: the fields of the word are those of the command, and a word is its two fields. -/
theorem decodedWordIsItsEncoding : Obligations.DecodedWordIsItsEncoding := fun _ _ => decode_eq_ok.1

/-! ### The reserved words (spec/30_encoding.md R88) -/

theorem decodeNoArg_error {arg : Byte} {i : Instr} : (∃ r, decodeNoArg arg i = .error r) ↔ arg.toNat ≠ 0 := by
  have harg : arg.toNat = 0 ↔ arg = 0#8 := BitVec.toNat_inj (y := 0#8)
  rw [ne_eq, harg]
  unfold decodeNoArg
  split <;> simp [*]

theorem decodeWbit_error {arg : Byte} : (∃ r, decodeWbit arg = .error r) ↔ 1 < arg.toNat := by
  unfold decodeWbit
  split <;> simp <;> omega

theorem decodeErdr_error {arg : Byte} : (∃ r, decodeErdr arg = .error r) ↔ 3 < arg.toNat := by
  unfold decodeErdr
  split <;> simp <;> omega

theorem decodeDrdr_error {arg : Byte} : (∃ r, decodeDrdr arg = .error r) ↔ 6 < arg.toNat := by
  unfold decodeDrdr
  split <;> simp <;> omega

/-- Settles O3: an opcode of R82 makes one clause of R88 its row's operand condition broken and the other clauses false, and any other
opcode makes the first clause true. -/
theorem illegalWordsAreTheReservedOnes : Obligations.IllegalWordsAreTheReservedOnes := by
  intro w
  unfold decode Machine.reservedWord
  rw [← opField_toNat, ← argField_toNat]
  split
  case h_7 hop => simp [hop, decodeWbit_error]
  case h_10 hop => simp [hop, decodeErdr_error]
  case h_16 hop => simp [hop, decodeDrdr_error]
  case h_17 =>
    simp only [imp_false] at *
    simp [*]
  all_goals
    rename_i hop
    simp [hop, decodeNoArg_error]

/-- Settles O4: each legal word is the word of its command, by computation; the reserved ones are decoded outright. -/
theorem specWordsDecode : Obligations.SpecWordsDecode :=
  ⟨decode_encode (i := .ereset) rfl, decode_encode (i := .facc 0x61#8) rfl, decode_encode (i := .esym 0xFF#8) rfl,
    decode_encode (i := .wbit 1#8) rfl, decode_encode (i := .erdr 3#8) rfl, decode_encode (i := .dbyte 0xE0#8) rfl,
    decode_encode (i := .dtree) rfl, decode_encode (i := .drdr 6#8) rfl, rfl, rfl, rfl⟩

end Sys2Proof
end

section
/-! PROOFS. What a command can do to the phase of the encoder and to the state of the decoder (spec/30_encoding.md R89 to R91), with or
without the invariant. -/

namespace Sys2Proof.Machine

/-! ### A faulted unit (spec/30_encoding.md R89 step 3) -/

/-- Settles O16: an encoder command is gated, and its gate lets nothing through in FAULT; a decoder command's arm for FAULT changes
nothing. -/
theorem faultedUnitIgnoresCommands : Obligations.FaultedUnitIgnoresCommands := by
  intro i s hw hsys
  constructor
  · intro hi hf
    cases i with
    | facc _ | tbuild | cderive | whdr | esym _ | flush => exact gateE_fault _ hf
    | wbit b =>
      have hb : b.toNat ≤ 1 := of_decide_eq_true hw
      simp only [exec, execWbit, if_pos hb]
      exact gateE_fault _ hf
    | ereset | erdf _ | erdr _ => simp [isSystem, opcodeOf] at hsys
    | dreset | dbyte _ | dtree | dend | drdf _ | drdr _ => simp [forEncoder, opcodeOf] at hi
  · intro hi hf
    cases i with
    | dbyte v => simp only [exec, execDbyte, hf]
    | dtree => simp only [exec, execDtree, hf]
    | dend => simp only [exec, execDend, hf]
    | dreset | drdf _ | drdr _ => simp [isSystem, opcodeOf] at hsys
    | ereset | facc _ | tbuild | cderive | whdr | esym _ | wbit _ | flush | erdf _ | erdr _ => simp [forEncoder, opcodeOf] at hi

/-! ### The encoder's phase (spec/30_encoding.md R90) -/

/-- A gated encoder command keeps the phase or goes to FAULT, unless it is in its phase and its rule does something else, `P`. -/
theorem gateE_transition {i : Instr} {p : Phase} {rule : State → Except Fault State} {s t : State} {P : Prop}
    (hi : forEncoder i = true) (hsys : isSystem i = false) (h : gateE p s rule = .next t)
    (hrule : s.enc.phase = p → rule s = .ok t → t.enc.phase = s.enc.phase ∨ t.enc.phase = .fault ∨ P) :
    t.enc.phase = s.enc.phase ∨ (t.enc.phase = .fault ∧ forEncoder i = true ∧ isSystem i = false) ∨ P := by
  obtain ⟨-, rfl⟩ | ⟨-, hp, hr⟩ | ⟨-, -, rfl⟩ := gateE_next h
  · exact .inl rfl
  · exact (hrule hp hr).imp_right (Or.imp_left fun hf => ⟨hf, hi, hsys⟩)
  · exact .inr (.inl ⟨rfl, hi, hsys⟩)

theorem faccRule_phase {c : Byte} {s t : State} (h : faccRule c s = .ok t) : t.enc.phase = s.enc.phase ∨ t.enc.phase = .fault := by
  unfold faccRule at h
  split at h
  · obtain rfl := Except.ok.inj h
    exact .inr rfl
  · split at h
    · cases h
    · obtain rfl := Except.ok.inj h
      exact .inl rfl

theorem tbuildRule_phase {s t : State} (h : tbuildRule s = .ok t) : t.enc.phase = .tree := by
  unfold tbuildRule at h
  split at h
  · obtain rfl := Except.ok.inj h
    rfl
  · cases h

theorem cderiveRule_phase {s t : State} (h : cderiveRule s = .ok t) : t.enc.phase = .codes := by
  unfold cderiveRule at h
  split at h
  · obtain rfl := Except.ok.inj h
    rfl
  · cases h

theorem wbWriteAll_phase (bits : List Bool) (s : State) : (wbWriteAll bits s).enc.phase = s.enc.phase := by
  rw [wbWriteAll_frame]

theorem esymRule_phase {c : Byte} {s t : State} (h : esymRule c s = .ok t) : t.enc.phase = s.enc.phase ∨ t.enc.phase = .fault := by
  unfold esymRule at h
  split at h
  · obtain rfl := Except.ok.inj h
    exact .inr rfl
  · split at h
    · obtain rfl := Except.ok.inj h
      exact .inl (wbWriteAll_phase _ s)
    · cases h

/-- Settles O18: a decoder command leaves the encoder; an encoder command is a reset, a read, or gated, and then its rule decides. -/
theorem encoderPhaseTransitions : Obligations.EncoderPhaseTransitions := by
  intro i s t h
  by_cases hi : forEncoder i = true
  · cases i with
    | ereset =>
      obtain rfl := Host.Outcome.next.inj h
      exact .inr (.inr (.inl ⟨rfl, rfl⟩))
    | facc c => exact gateE_transition hi rfl h fun _ hr => (faccRule_phase hr).imp_right .inl
    | tbuild => exact gateE_transition hi rfl h fun hp hr => .inr (.inr (.inr (.inl ⟨rfl, hp, tbuildRule_phase hr⟩)))
    | cderive => exact gateE_transition hi rfl h fun hp hr => .inr (.inr (.inr (.inr (.inl ⟨rfl, hp, cderiveRule_phase hr⟩))))
    | whdr =>
      refine gateE_transition hi rfl h fun hp hr => ?_
      obtain rfl := Except.ok.inj hr
      exact .inr (.inr (.inr (.inr (.inr (.inl ⟨rfl, hp, rfl⟩)))))
    | esym c => exact gateE_transition hi rfl h fun _ hr => (esymRule_phase hr).imp_right .inl
    | wbit b =>
      simp only [exec, execWbit] at h
      split at h
      · refine gateE_transition hi rfl h fun _ hr => ?_
        obtain rfl := Except.ok.inj hr
        exact .inl (wbWriteAll_phase [_] s)
      · obtain rfl := Host.Outcome.next.inj h
        exact .inl rfl
    | flush =>
      refine gateE_transition hi rfl h fun hp hr => ?_
      obtain rfl := Except.ok.inj hr
      exact .inr (.inr (.inr (.inr (.inr (.inr ⟨rfl, hp, rfl⟩)))))
    | erdf c =>
      obtain rfl := Host.Outcome.next.inj h
      exact .inl rfl
    | erdr n => exact .inl (congrArg Encoder.phase (readRegister_units h).1)
    | dreset | dbyte _ | dtree | dend | drdf _ | drdr _ => simp [forEncoder, opcodeOf] at hi
  · exact .inl (congrArg Encoder.phase (exec_enc (Bool.eq_false_of_not_eq_true hi) h))

/-! ### The decoder's state (spec/30_encoding.md R91) -/

/-- With the 1028th byte the header is complete (R171). -/
theorem headerByteRule_state {v : Byte} {s t : State} (h : headerByteRule v s = .ok t) :
    t.dec.state = .awaitHeader ∨ s.dec.hcnt = 1027#11 ∧ t.dec.state = .awaitTree := by
  obtain ⟨-, ht⟩ := headerByteRule_ok h
  rw [ht]
  by_cases hfull : s.dec.hcnt.toNat + 1 = 1028
  · exact .inr ⟨BitVec.eq_of_toNat_eq (Nat.succ.inj hfull), if_pos hfull⟩
  · exact .inl (if_neg hfull)

/-- While the bits of a byte are decoded the total stays, and the state is `Decoding`, or `Done` at the total (R174, R177). -/
structure WithinBody (total : Word32) (d : Decoder) : Prop where
  totalKept   : d.total = total
  doneAtTotal : d.state = .decoding ∨ d.state = .done ∧ d.dcnt = total

theorem WithinBody.dstep {total : Word32} {bit : Bool} {s t : State} (hs : WithinBody total s.dec) (hst : s.dec.state = .decoding)
    (h : dstep bit s = .ok t) : WithinBody total t.dec := by
  obtain ⟨n, r, -, -, ⟨-, -, rfl⟩ | ⟨-, rfl⟩⟩ := dstep_ok h
  · refine ⟨hs.totalKept, ?_⟩
    by_cases hdone : s.dec.dcnt + 1#32 = s.dec.total
    · exact .inr ⟨if_pos hdone, hdone.trans hs.totalKept⟩
    · exact .inl ((if_neg hdone).trans hst)
  · exact ⟨hs.totalKept, .inl hst⟩

theorem WithinBody.decodeBit {total : Word32} {s t : State} (hs : WithinBody total s.dec) (hst : s.dec.state = .decoding)
    (h : decodeBit s = .ok t) : WithinBody total t.dec := by
  unfold Machine.decodeBit at h
  split at h
  · rename_i bit d hb
    obtain ⟨-, -, -, rfl⟩ := brNext_ok hb
    exact WithinBody.dstep (s := s.withDec (s.dec.withReader s.dec.brByte (s.dec.brCnt - 1#4))) ⟨hs.totalKept, hs.doneAtTotal⟩ hst h
  · cases h

theorem WithinBody.decodeBits {total : Word32} (bound : Nat) {s t : State} (hs : WithinBody total s.dec)
    (h : decodeBits bound s = .ok t) : WithinBody total t.dec := by
  induction bound generalizing s with
  | zero =>
    unfold Machine.decodeBits at h
    split at h
    · obtain rfl := Except.ok.inj h
      exact hs
    · cases h
  | succ bound ih =>
    unfold Machine.decodeBits at h
    split at h
    · obtain rfl := Except.ok.inj h
      exact hs
    · rename_i hgo
      have hst : s.dec.state = .decoding := Decidable.not_not.1 (not_or.1 hgo).2
      split at h
      · rename_i s' hb
        exact ih (hs.decodeBit hst hb) h
      · cases h

theorem bodyByteRule_state {v : Byte} {s t : State} (hst : s.dec.state = .decoding) (h : bodyByteRule v s = .ok t) :
    t.dec.state = .decoding ∨ t.dec.dcnt = s.dec.total ∧ t.dec.state = .done := by
  unfold bodyByteRule at h
  split at h
  · rename_i s' hbits
    obtain rfl := Except.ok.inj h
    have hload : WithinBody s.dec.total (brLoad v s.dec) := ⟨rfl, .inl hst⟩
    exact (hload.decodeBits 8 (s := s.withDec (brLoad v s.dec)) hbits).doneAtTotal.imp_right And.symm
  · cases h

theorem dtreeRule_state {s t : State} (h : dtreeRule s = .ok t) :
    t.dec.state = .fault ∨ (s.dec.total ≠ 0#32 ∧ t.dec.state = .decoding) ∨ (s.dec.total = 0#32 ∧ t.dec.state = .done) := by
  unfold dtreeRule at h
  split at h
  · rename_i hz
    obtain rfl := Except.ok.inj h
    exact .inr (.inr ⟨hz, rfl⟩)
  · rename_i hne
    split at h
    · obtain rfl := Except.ok.inj h
      exact .inl rfl
    · split at h
      · obtain rfl := Except.ok.inj h
        exact .inr (.inl ⟨hne, rfl⟩)
      · cases h

/-- What `DBYTE` does to the state: its row of R91. -/
theorem execDbyte_state {v : Byte} {s t : State} (h : execDbyte v s = .next t) :
    t.dec.state = s.dec.state ∨ t.dec.state = .fault ∨
    (s.dec.state = .awaitHeader ∧ s.dec.hcnt = 1027#11 ∧ t.dec.state = .awaitTree) ∨
    (s.dec.state = .decoding ∧ t.dec.dcnt = s.dec.total ∧ t.dec.state = .done) := by
  unfold execDbyte at h
  split at h
  case h_1 hst =>
    obtain hsame | hfull := headerByteRule_state (outcomeOf_next h)
    · exact .inl (hsame.trans hst.symm)
    · exact .inr (.inr (.inl ⟨hst, hfull⟩))
  case h_3 hst =>
    obtain hsame | hdone := bodyByteRule_state hst (outcomeOf_next h)
    · exact .inl (hsame.trans hst.symm)
    · exact .inr (.inr (.inr ⟨hst, hdone⟩))
  case h_2 =>
    obtain rfl := Host.Outcome.next.inj h
    exact .inr (.inl rfl)
  all_goals
    obtain rfl := Host.Outcome.next.inj h
    exact .inl rfl

/-- What `DTREE` does to the state: its row of R91. -/
theorem execDtree_state {s t : State} (h : execDtree s = .next t) :
    t.dec.state = s.dec.state ∨ t.dec.state = .fault ∨
    (s.dec.state = .awaitTree ∧ s.dec.total ≠ 0#32 ∧ t.dec.state = .decoding) ∨
    (s.dec.state = .awaitTree ∧ s.dec.total = 0#32 ∧ t.dec.state = .done) := by
  unfold execDtree at h
  split at h
  case h_2 hst => exact .inr ((dtreeRule_state (outcomeOf_next h)).imp_right (Or.imp (.intro hst) (.intro hst)))
  case h_5 =>
    obtain rfl := Host.Outcome.next.inj h
    exact .inl rfl
  all_goals
    obtain rfl := Host.Outcome.next.inj h
    exact .inr (.inl rfl)

/-- `DEND` keeps the state or goes to FAULT (R178). -/
theorem execDend_state {s t : State} (h : execDend s = .next t) : t.dec.state = s.dec.state ∨ t.dec.state = .fault := by
  unfold execDend at h
  split at h
  case h_4 | h_5 =>
    obtain rfl := Host.Outcome.next.inj h
    exact .inl rfl
  all_goals
    obtain rfl := Host.Outcome.next.inj h
    exact .inr rfl

/-- Settles O19: an encoder command leaves the decoder; a decoder command is a reset, a read, or one of the three with a row in R91. -/
theorem decoderStateTransitions : Obligations.DecoderStateTransitions := by
  intro i s t h
  cases hi : forEncoder i with
  | true => exact .inl (congrArg Decoder.state (exec_dec hi h))
  | false =>
    cases i with
    | dreset =>
      obtain rfl := Host.Outcome.next.inj h
      exact .inr (.inr (.inl ⟨rfl, rfl⟩))
    | dbyte v =>
      obtain hsame | hfault | ⟨hst, hfull, ht⟩ | ⟨hst, hall, ht⟩ := execDbyte_state h
      · exact .inl hsame
      · exact .inr (.inl ⟨hfault, rfl, rfl⟩)
      · exact .inr (.inr (.inr (.inl ⟨v, rfl, hst, hfull, ht⟩)))
      · exact .inr (.inr (.inr (.inr (.inr (.inr ⟨v, rfl, hst, hall, ht⟩)))))
    | dtree =>
      obtain hsame | hfault | ⟨hst, hne, ht⟩ | ⟨hst, hz, ht⟩ := execDtree_state h
      · exact .inl hsame
      · exact .inr (.inl ⟨hfault, rfl, rfl⟩)
      · exact .inr (.inr (.inr (.inr (.inl ⟨rfl, hst, hne, ht⟩))))
      · exact .inr (.inr (.inr (.inr (.inr (.inl ⟨rfl, hst, hz, ht⟩)))))
    | dend => exact (execDend_state h).imp_right fun hfault => .inl ⟨hfault, rfl, rfl⟩
    | drdf c =>
      obtain rfl := Host.Outcome.next.inj h
      exact .inl rfl
    | drdr n => exact .inl (congrArg Decoder.state (readRegister_units h).2)
    | ereset | facc _ | tbuild | cderive | whdr | esym _ | wbit _ | flush | erdf _ | erdr _ => simp [forEncoder, opcodeOf] at hi

end Sys2Proof.Machine
end

section
/-! PROOFS. Every step from a state that meets the invariant answers a next state: each rule's model-internal faults need a condition that
the invariant excludes (spec/30_encoding.md R92, spec/60_exceptions.md R221, spec/10_state.md R48). -/

namespace Sys2Proof.Machine

theorem outcomeOf_completes {r : Except Fault State} (h : ∃ t, r = .ok t) : ∃ t, outcomeOf r = .next t := by
  obtain ⟨t, rfl⟩ := h
  exact ⟨t, rfl⟩

/-! ### The encoder's commands -/

/-- A gated command completes when its rule does in its phase: elsewhere it is ignored or raises `SeqError` (R89). -/
theorem gateE_completes {p : Phase} {rule : State → Except Fault State} {s : State} (h : s.enc.phase = p → ∃ t, rule s = .ok t) :
    ∃ t, gateE p s rule = .next t := by
  unfold gateE
  split
  · exact ⟨_, rfl⟩
  · split
    · rename_i hp
      exact outcomeOf_completes (h hp)
    · exact ⟨_, rfl⟩

/-- No entry exceeds the table's sum: setting it to 0 takes it off the sum. -/
theorem freqAt_le_freqSum (u : TreeUnit) {k : Nat} (hk : k < 256) : (freqAt u k).toNat ≤ freqSum u := by
  have hsum := freqSum_setFreq u hk 0#32
  rw [BitVec.toNat_zero] at hsum
  omega

/-- Below the largest total no entry is at its largest value (R28), so that no count wraps (R9). -/
theorem EncInv.entry_ne_max {e : Encoder} (h : EncInv e) (ht : e.total ≠ Config.countMax) (c : Byte) :
    freqAt e.tree c.toNat ≠ Config.countMax := by
  intro hmax
  have hle := freqAt_le_freqSum e.tree c.isLt
  rw [h.sumTotal, hmax] at hle
  have hlt := e.total.isLt
  exact ht (BitVec.eq_of_toNat_eq (Nat.le_antisymm (Nat.le_sub_one_of_lt hlt) hle))

theorem faccRule_completes {s : State} (hs : EncInv s.enc) (c : Byte) : ∃ t, faccRule c s = .ok t := by
  unfold faccRule
  split
  · exact ⟨_, rfl⟩
  · rename_i ht
    rw [if_neg (hs.entry_ne_max ht c)]
    exact ⟨_, rfl⟩

theorem tbuildRule_completes (s : State) : ∃ t, tbuildRule s = .ok t := by
  obtain ⟨u, hu, -⟩ := treeBuild_total s.enc.tree
  exact ⟨_, by rw [tbuildRule, hu]⟩

theorem codeDerive_completes {e : Encoder} (h : treeOk e.tree) : ∃ e', codeDerive e = .ok e' := by
  obtain ⟨e', he', -⟩ := codeDerive_ok (fun _ => True) h trivial (fun _ _ _ _ _ _ _ _ => trivial)
  exact ⟨e', he'⟩

theorem cderiveRule_completes {s : State} (hs : EncInv s.enc) : ∃ t, cderiveRule s = .ok t := by
  obtain ⟨e, he⟩ := codeDerive_completes hs.tree
  exact ⟨_, by rw [cderiveRule, he]⟩

/-- The bits of every code hold values (R48). -/
theorem EncInv.codeOf_ok {e : Encoder} (h : EncInv e) (c : Byte) :
    codeOf e c.toNat = .ok ((cbitsAt e c.toNat).take (clenAt e c.toNat).toNat) :=
  if_pos (h.codeBits c.toNat c.isLt).1

theorem esymRule_completes {s : State} (hs : EncInv s.enc) (c : Byte) : ∃ t, esymRule c s = .ok t := by
  unfold esymRule
  rw [hs.codeOf_ok c]
  split
  · exact ⟨_, rfl⟩
  · exact ⟨_, rfl⟩

/-! ### A register read -/

theorem readRegister_completes (v : Option Word32) (s : State) : ∃ t, readRegister v s = .next t := by
  cases v with
  | some w => exact ⟨_, rfl⟩
  | none => exact ⟨_, rfl⟩

/-- R92: every encoder command completes from a state whose encoder meets its invariant. -/
theorem exec_completes_of_encInv {i : Instr} {s : State} (hi : forEncoder i = true) (hs : EncInv s.enc) : ∃ t, exec i s = .next t := by
  cases i with
  | ereset | erdf _ => exact ⟨_, rfl⟩
  | facc c => exact gateE_completes fun _ => faccRule_completes hs c
  | tbuild => exact gateE_completes fun _ => tbuildRule_completes s
  | cderive => exact gateE_completes fun _ => cderiveRule_completes hs
  | whdr => exact gateE_completes fun _ => ⟨_, rfl⟩
  | esym c => exact gateE_completes fun _ => esymRule_completes hs c
  | wbit b =>
    simp only [exec, execWbit]
    split
    · exact gateE_completes fun _ => ⟨_, rfl⟩
    · exact ⟨_, rfl⟩
  | flush => exact gateE_completes fun _ => ⟨_, rfl⟩
  | erdr n => exact readRegister_completes _ s
  | dreset | dbyte _ | dtree | dend | drdf _ | drdr _ => simp [forEncoder, opcodeOf] at hi

/-! ### The decoder's commands -/

theorem headerByteRule_completes {s : State} (hs : DecInv s.dec) (hst : s.dec.state = .awaitHeader) (v : Byte) :
    ∃ t, headerByteRule v s = .ok t :=
  ⟨_, if_pos (hs.hcntHead hst)⟩

/-- `DSTEP` in `Decoding`: the bit leads to a recorded node, and the count, below the total, does not wrap (R176, R177). -/
theorem dstep_completes {s : State} (hs : DecInv s.dec) (hst : s.dec.state = .decoding) (bit : Bool) : ∃ t, dstep bit s = .ok t := by
  obtain ⟨hlt, hcur, -⟩ := hs.decoding hst
  obtain ⟨-, -, n, r, -, -, -, hn, hr⟩ := nextNode_recorded hs.tree hcur bit
  have hcount : s.dec.dcnt ≠ Config.countMax := by
    intro hmax
    have htot := s.dec.total.isLt
    rw [hmax] at hlt
    exact absurd hlt (Nat.not_lt.2 (Nat.le_sub_one_of_lt htot))
  unfold dstep
  simp only [hn, hr, if_neg hcount]
  split
  · exact ⟨_, rfl⟩
  · exact ⟨_, rfl⟩

/-- `DSTEP` during a byte: the reader, which the invariant wants empty, is out of its reach. -/
theorem dstep_completes_withReader {s : State} (hs : DecInv (s.dec.withReader 0#8 0#4)) (hst : s.dec.state = .decoding) (bit : Bool)
    (v : Byte) (c : BitVec 4) : ∃ t, dstep bit (s.withDec (s.dec.withReader v c)) = .ok t ∧ t.dec.brCnt = c := by
  obtain ⟨u, hu⟩ := dstep_completes (s := s.withDec (s.dec.withReader 0#8 0#4)) hs hst bit
  have hstep := dstep_withReader bit (s.withDec (s.dec.withReader 0#8 0#4)) v c
  rw [hu] at hstep
  exact ⟨_, hstep, rfl⟩

/-- One turn of the bit loop takes one of the reader's 1 to 8 bits. -/
theorem decodeBit_completes {s : State} (hs : DecInv (s.dec.withReader 0#8 0#4)) (hst : s.dec.state = .decoding)
    (h0 : s.dec.brCnt ≠ 0#4) (h8 : s.dec.brCnt.toNat ≤ 8) : ∃ t, decodeBit s = .ok t ∧ t.dec.brCnt.toNat + 1 = s.dec.brCnt.toNat := by
  have h1 : 1 ≤ s.dec.brCnt.toNat := Nat.pos_of_ne_zero fun hc => h0 (BitVec.eq_of_toNat_eq hc)
  obtain ⟨t, ht, hcnt⟩ := dstep_completes_withReader hs hst (s.dec.brByte.getLsbD (s.dec.brCnt.toNat - 1)) s.dec.brByte
    (s.dec.brCnt - 1#4)
  refine ⟨t, ?_, ?_⟩
  · rw [decodeBit, brNext, if_pos ⟨h1, h8⟩]
    exact ht
  · rw [hcnt, BitVec.toNat_sub_of_le (y := 1#4) h1]
    exact Nat.sub_add_cancel h1

/-- The bit loop (R174) ends: each turn leaves one bit less in the reader. -/
theorem decodeBits_completes (bound : Nat) {s : State} (hs : DecInv (s.dec.withReader 0#8 0#4)) (hb : s.dec.brCnt.toNat ≤ bound)
    (h8 : s.dec.brCnt.toNat ≤ 8) : ∃ t, decodeBits bound s = .ok t := by
  induction bound generalizing s with
  | zero => exact ⟨s, if_pos (.inl (BitVec.eq_of_toNat_eq (Nat.le_zero.1 hb)))⟩
  | succ bound ih =>
    unfold decodeBits
    split
    · exact ⟨s, rfl⟩
    · rename_i hgo
      obtain ⟨h0, hst⟩ := not_or.1 hgo
      rw [ne_eq, Decidable.not_not] at hst
      obtain ⟨t, ht, hcnt⟩ := decodeBit_completes hs hst h0 h8
      rw [ht]
      exact ih (decodeBit_decInv hs hst ht) (by omega) (by omega)

theorem bodyByteRule_completes {s : State} (hs : DecInv s.dec) (v : Byte) : ∃ t, bodyByteRule v s = .ok t := by
  have hload : DecInv ((brLoad v s.dec).withReader 0#8 0#4) :=
    DecInv.emptyReader (d := s.dec) (v := s.dec.brByte) (c := s.dec.brCnt) hs 0#8
  obtain ⟨t, ht⟩ := decodeBits_completes 8 (s := s.withDec (brLoad v s.dec)) hload (Nat.le_refl 8) (Nat.le_refl 8)
  exact ⟨_, by rw [bodyByteRule, ht]⟩

theorem dtreeRule_completes (s : State) : ∃ t, dtreeRule s = .ok t := by
  obtain ⟨u, hu, -⟩ := treeBuild_total s.dec.tree
  unfold dtreeRule
  rw [hu]
  split
  · exact ⟨_, rfl⟩
  · split
    · exact ⟨_, rfl⟩
    · exact ⟨_, rfl⟩

theorem execDbyte_completes {s : State} (hs : DecInv s.dec) (v : Byte) : ∃ t, execDbyte v s = .next t := by
  unfold execDbyte
  split
  case h_1 hst => exact outcomeOf_completes (headerByteRule_completes hs hst v)
  case h_3 => exact outcomeOf_completes (bodyByteRule_completes hs v)
  all_goals exact ⟨_, rfl⟩

theorem execDtree_completes (s : State) : ∃ t, execDtree s = .next t := by
  unfold execDtree
  split
  case h_2 => exact outcomeOf_completes (dtreeRule_completes s)
  all_goals exact ⟨_, rfl⟩

theorem execDend_completes (s : State) : ∃ t, execDend s = .next t := by
  unfold execDend
  split <;> exact ⟨_, rfl⟩

/-- R92: every decoder command completes from a state whose decoder meets its invariant. -/
theorem exec_completes_of_decInv {i : Instr} {s : State} (hi : forEncoder i = false) (hs : DecInv s.dec) : ∃ t, exec i s = .next t := by
  cases i with
  | dreset | drdf _ => exact ⟨_, rfl⟩
  | dbyte v => exact execDbyte_completes hs v
  | dtree => exact execDtree_completes s
  | dend => exact execDend_completes s
  | drdr n => exact readRegister_completes _ s
  | ereset | facc _ | tbuild | cderive | whdr | esym _ | wbit _ | flush | erdf _ | erdr _ => simp [forEncoder, opcodeOf] at hi

/-! ### The machine -/

theorem exec_completes {s : State} (hs : s.Inv) (i : Instr) : ∃ t, exec i s = .next t := by
  cases hi : forEncoder i with
  | true => exact exec_completes_of_encInv hi hs.enc
  | false => exact exec_completes_of_decInv hi hs.dec

/-- Settles O59: an input other than a word always completes, an illegal word sets `ILL`, and a decoded command completes by the
invariant of the unit it addresses, which taking the word leaves. -/
theorem safeStepAlwaysCompletes : Obligations.SafeStepAlwaysCompletes := by
  intro s hs
  unfold step
  split
  case h_2 w rest _ =>
    unfold runWord
    split
    · have haccept : (acceptWord s rest).Inv := ⟨hs.enc, hs.dec, hs.taken⟩
      exact exec_completes haccept _
    · exact ⟨_, rfl⟩
  all_goals exact ⟨_, rfl⟩

end Sys2Proof.Machine
end

section
/-! PROOFS. What `FACC` does in each phase (spec/40_frequency_accumulator.md R101), in every state whose entry is at most the total. -/

namespace Sys2Proof.Machine

/-! ### The rule of `FACC` -/

theorem faccRule_full {s : State} (h : s.enc.total = Config.countMax) (c : Byte) :
    faccRule c s = .ok (raiseE .countOverflow s) := if_pos h

theorem faccRule_counts {s : State} {c : Byte} (ht : s.enc.total ≠ Config.countMax)
    (hf : freqAt s.enc.tree c.toNat ≠ Config.countMax) : faccRule c s = .ok (s.withEnc (countSymbol s.enc c)) := by
  rw [faccRule, if_neg ht, if_neg hf]

/-! ### One more symbol -/

/-- A count at most one that is not full is not full, so the total's test protects the entry too (R101). -/
theorem ne_countMax_of_le {v w : Word32} (hle : v.toNat ≤ w.toNat) (hw : w ≠ Config.countMax) : v ≠ Config.countMax := by
  rintro rfl
  exact hw (BitVec.eq_of_toNat_eq (Nat.le_antisymm (Nat.le_sub_one_of_lt w.isLt) hle))

theorem freqAt_countSymbol_same {e : Encoder} {c : Byte} (h : freqAt e.tree c.toNat ≠ Config.countMax) :
    (freqAt (countSymbol e c).tree c.toNat).toNat = (freqAt e.tree c.toNat).toNat + 1 := by
  rw [countSymbol_tree, freqAt_setFreq, if_pos rfl, toNat_succ_of_ne_max h]

theorem freqAt_countSymbol_other (e : Encoder) {c : Byte} {k : Nat} (hk : k ≠ c.toNat) :
    freqAt (countSymbol e c).tree k = freqAt e.tree k := by
  rw [countSymbol_tree, freqAt_setFreq, if_neg hk.symm]

/-! ### `FACC` by phase -/

/-- Settles O27: the gate decides outside COUNT; in COUNT the rule raises on a full total, and below it the entry, at most the total,
is not full either, so neither addition wraps. -/
theorem faccCountsOneSymbol : Obligations.FaccCountsOneSymbol := by
  intro c s hle
  refine ⟨fun hp => gateE_fault _ hp, fun hf hp => gateE_seqError _ hf hp, fun hp ht => ?_, fun hp ht => ?_⟩
  · calc exec (.facc c) s
      _ = outcomeOf (faccRule c s) := gateE_legal _ (by decide) hp
      _ = .next (raiseE .countOverflow s) := by rw [faccRule_full ht, outcomeOf_ok]
  · have hentry : freqAt s.enc.tree c.toNat ≠ Config.countMax := ne_countMax_of_le hle ht
    refine ⟨(countSymbol s.enc c).tree, ?_, toNat_succ_of_ne_max ht, freqAt_countSymbol_same hentry,
      fun k hk => freqAt_countSymbol_other s.enc hk, rfl⟩
    calc exec (.facc c) s
      _ = outcomeOf (faccRule c s) := gateE_legal _ (by decide) hp
      _ = .next (s.withEnc (countSymbol s.enc c)) := by rw [faccRule_counts ht hentry, outcomeOf_ok]

end Sys2Proof.Machine
end

section
/-! PROOFS. The priority structure keeps the heap order (spec/41_priority_structure.md R111 to R114). Every recorded id has one number,
its rank, and `less` compares ranks; a heap is then a sequence of numbers, each at least its parent's, but for the one entry that a
sift is moving. -/

namespace Sys2Proof.Machine

/-! ### The order on keys (R111) -/

theorem keyLess_iff {fa fb : NodeFreq} {a b : NodeId} :
    keyLess fa a fb b = true ↔ fa.toNat < fb.toNat ∨ (fa.toNat = fb.toNat ∧ a.toNat < b.toNat) := by
  simp [keyLess, BitVec.toNat_inj]

/-- The key as one number: the frequency above the nine bits of the id. -/
def keyRank (f n : Nat) : Nat := f * 2 ^ 9 + n

theorem keyRank_lt_keyRank {f g : Nat} (a b : NodeId) :
    keyRank f a.toNat < keyRank g b.toNat ↔ f < g ∨ (f = g ∧ a.toNat < b.toNat) := by
  have ha := a.isLt
  have hb := b.isLt
  unfold keyRank
  omega

theorem keyRank_ne {f g : Nat} {a b : NodeId} (h : a ≠ b) : keyRank f a.toNat ≠ keyRank g b.toNat := by
  have ha := a.isLt
  have hb := b.isLt
  have hab : a.toNat ≠ b.toNat := fun hc => h (BitVec.eq_of_toNat_eq hc)
  unfold keyRank
  omega

theorem keyLess_iff_rank {fa fb : NodeFreq} {a b : NodeId} :
    keyLess fa a fb b = true ↔ keyRank fa.toNat a.toNat < keyRank fb.toNat b.toNat :=
  keyLess_iff.trans (keyRank_lt_keyRank a b).symm

/-- Settles O28: keys are ordered as their ranks, which are numbers that differ on distinct ids; `less` compares the keys of its two
records. -/
theorem keyOrderIsStrictAndTotal : Obligations.KeyOrderIsStrictAndTotal := by
  refine ⟨fun _ _ _ _ => keyLess_iff, fun fa a => ?_, fun fa a fb b fc c hab hbc => ?_, fun fa a fb b hne => ?_,
    fun node a b ra rb ha hb => ⟨less_ok ha hb, ?_⟩⟩
  · rw [Bool.eq_false_iff, Ne, keyLess_iff_rank]
    exact Nat.lt_irrefl _
  · exact keyLess_iff_rank.2 ((keyLess_iff_rank.1 hab).trans (keyLess_iff_rank.1 hbc))
  · rw [keyLess_iff_rank, keyLess_iff_rank]
    exact Nat.lt_or_gt_of_ne (keyRank_ne hne)
  · rw [less_ok ha hb, Except.ok.injEq]
    exact keyLess_iff

/-- The rank of an id by its record. -/
def nodeRank (node : List (Nat × NodeRec)) (n : NodeId) : Nat := keyRank (nodeFreq node n) n.toNat

/-- `less` on recorded ids compares ranks. -/
theorem less_by_rank {node : List (Nat × NodeRec)} {a b : NodeId} (ha : ∃ r, nodeAt node a = .ok r) (hb : ∃ r, nodeAt node b = .ok r) :
    less node a b = .ok (decide (nodeRank node a < nodeRank node b)) := by
  obtain ⟨ra, ha⟩ := ha
  obtain ⟨rb, hb⟩ := hb
  have hk : keyLess ra.freq a rb.freq b = decide (nodeRank node a < nodeRank node b) := by
    rw [Bool.eq_iff_iff, keyLess_iff_rank, decide_eq_true_iff]
    simp only [nodeRank, nodeFreq, ha, hb]
  rw [less_ok ha hb, hk]

/-! ### The heap as a sequence of ranks (R114) -/

/-- The rank of the id in slot i; it means something for a live slot only. -/
def slotRank (node : List (Nat × NodeRec)) (heap : List NodeId) (i : Nat) : Nat := heap[i]?.elim 0 (nodeRank node)

theorem slotRank_of_lt (node : List (Nat × NodeRec)) {heap : List NodeId} {i : Nat} (h : i < heap.length) :
    slotRank node heap i = nodeRank node heap[i] := by
  simp [slotRank, h]

/-- A swap exchanges the ranks of its two slots and leaves the others. -/
theorem slotRank_swapSlots (node : List (Nat × NodeRec)) {heap : List NodeId} {i j : Nat} (hi : i < heap.length) (hj : j < heap.length)
    (k : Nat) :
    slotRank node (swapSlots heap i heap[i] j heap[j]) k =
      if k = j then slotRank node heap i else if k = i then slotRank node heap j else slotRank node heap k := by
  by_cases hkj : k = j
  · subst hkj
    simp [slotRank, swapSlots, hi, hj]
  · by_cases hki : k = i
    · subst hki
      simp [slotRank, swapSlots, hi, hj, hkj, Ne.symm hkj]
    · simp [slotRank, swapSlots, hkj, hki, Ne.symm hkj, Ne.symm hki]

/-- `less` on two live slots compares their ranks. -/
theorem less_slots {node : List (Nat × NodeRec)} {heap : List NodeId} (hr : Recorded node heap) {i j : Nat} (hi : i < heap.length)
    (hj : j < heap.length) : less node heap[i] heap[j] = .ok (decide (slotRank node heap i < slotRank node heap j)) := by
  rw [less_by_rank (hr _ (List.getElem_mem hi)) (hr _ (List.getElem_mem hj)), slotRank_of_lt node hi, slotRank_of_lt node hj]

/-- No live slot is less than its parent. -/
def HeapOrdered (node : List (Nat × NodeRec)) (heap : List NodeId) : Prop :=
  ∀ j, 1 ≤ j → j < heap.length → slotRank node heap ((j - 1) / 2) ≤ slotRank node heap j

/-- The invariant of R114 in ranks. -/
theorem heapOk_iff {node : List (Nat × NodeRec)} {heap : List NodeId} :
    heapOk node heap ↔ heap.Nodup ∧ Recorded node heap ∧ HeapOrdered node heap := by
  refine and_congr_right fun _ => and_congr_right fun hr => ⟨fun h j h1 hj => ?_, fun h j x p h1 hx hp => ?_⟩
  · have hp : (j - 1) / 2 < heap.length := by omega
    have hless := h j heap[j] heap[(j - 1) / 2] h1 (List.getElem?_eq_getElem hj) (List.getElem?_eq_getElem hp)
    rw [less_slots hr hj hp] at hless
    simpa using hless
  · obtain ⟨hj, rfl⟩ := List.getElem?_eq_some_iff.1 hx
    obtain ⟨hpl, rfl⟩ := List.getElem?_eq_some_iff.1 hp
    rw [less_slots hr hj hpl]
    simpa using h j h1 hj

/-- Slot 0 of an ordered heap is the least. -/
theorem HeapOrdered.root_le {node : List (Nat × NodeRec)} {heap : List NodeId} (h : HeapOrdered node heap) (j : Nat)
    (hj : j < heap.length) : slotRank node heap 0 ≤ slotRank node heap j := by
  induction j using Nat.strongRecOn with
  | ind j ih =>
    rcases Nat.eq_zero_or_pos j with rfl | h1
    · exact Nat.le_refl _
    · exact (ih ((j - 1) / 2) (by omega) (by omega)).trans (h j h1 hj)

/-- The id in slot 0 of an ordered heap has the least rank. -/
theorem HeapOrdered.head_le {node : List (Nat × NodeRec)} {heap : List NodeId} {m : NodeId} (h : HeapOrdered node heap)
    (hm : heap.head? = some m) : ∀ x ∈ heap, nodeRank node m ≤ nodeRank node x := by
  intro x hx
  obtain ⟨t, rfl⟩ := List.head?_eq_some_iff.1 hm
  obtain ⟨j, hj, rfl⟩ := List.mem_iff_getElem.1 hx
  have hle := h.root_le j hj
  rwa [slotRank_of_lt node hj, slotRank_of_lt node (Nat.zero_lt_of_lt hj)] at hle

/-! ### A heap with one entry out of place -/

/-- Ordered but for the entry in slot i: every slot other than i keeps the order with its parent unless that is i, and the children of i
keep it with the parent of i. -/
structure OrderedAround (node : List (Nat × NodeRec)) (heap : List NodeId) (i : Nat) : Prop where
  edge : ∀ j, 1 ≤ j → j < heap.length → j ≠ i → (j - 1) / 2 ≠ i → slotRank node heap ((j - 1) / 2) ≤ slotRank node heap j
  skip : ∀ j, 1 ≤ j → j < heap.length → (j - 1) / 2 = i → 1 ≤ i → slotRank node heap ((i - 1) / 2) ≤ slotRank node heap j

/-- No live child of slot i is less than it. -/
def LeChildren (node : List (Nat × NodeRec)) (heap : List NodeId) (i : Nat) : Prop :=
  ∀ j, 1 ≤ j → j < heap.length → (j - 1) / 2 = i → slotRank node heap i ≤ slotRank node heap j

/-- Slot i is not less than its parent. -/
def GeParent (node : List (Nat × NodeRec)) (heap : List NodeId) (i : Nat) : Prop :=
  1 ≤ i → slotRank node heap ((i - 1) / 2) ≤ slotRank node heap i

/-- The entry out of place stands right when it is right with its children and its parent. -/
theorem OrderedAround.ordered {node : List (Nat × NodeRec)} {heap : List NodeId} {i : Nat} (h : OrderedAround node heap i)
    (hc : LeChildren node heap i) (hp : GeParent node heap i) : HeapOrdered node heap := by
  intro j h1 hj
  by_cases hji : j = i
  · subst hji
    exact hp h1
  · by_cases hpi : (j - 1) / 2 = i
    · rw [hpi]
      exact hc j h1 hj hpi
    · exact h.edge j h1 hj hji hpi

/-- One turn up: an entry less than its parent changes places with it. -/
theorem OrderedAround.swap_up {node : List (Nat × NodeRec)} {heap : List NodeId} {i p : Nat} (h : OrderedAround node heap i)
    (h1 : 1 ≤ i) (hpi : p = (i - 1) / 2) (hi : i < heap.length) (hp : p < heap.length)
    (hlt : slotRank node heap i < slotRank node heap p) :
    OrderedAround node (swapSlots heap i heap[i] p heap[p]) p ∧ LeChildren node (swapSlots heap i heap[i] p heap[p]) p := by
  refine ⟨⟨?_, ?_⟩, ?_⟩ <;> simp only [LeChildren, swapSlots_length, slotRank_swapSlots node hi hp]
  · intro j hj1 hj hjp hpp
    rw [if_neg hpp, if_neg hjp, if_neg (by omega : j ≠ i)]
    split_ifs with hji
    · exact hpi ▸ h.skip j hj1 hj hji h1
    · exact h.edge j hj1 hj (by omega) hji
  · intro j hj1 hj hjp hp1
    have hparent : slotRank node heap ((p - 1) / 2) ≤ slotRank node heap p := h.edge p hp1 hp (by omega) (by omega)
    rw [if_neg (by omega), if_neg (by omega), if_neg (by omega)]
    split_ifs with hji
    · exact hparent
    · exact hparent.trans (hjp ▸ h.edge j hj1 hj hji (by omega))
  · intro j hj1 hj hjp
    rw [if_pos trivial, if_neg (by omega)]
    split_ifs with hji
    · exact Nat.le_of_lt hlt
    · exact (Nat.le_of_lt hlt).trans (hjp ▸ h.edge j hj1 hj hji (by omega))

/-- One turn down: an entry changes places with the least of its children, which it is not less than. -/
theorem OrderedAround.swap_down {node : List (Nat × NodeRec)} {heap : List NodeId} {i m : Nat} (h : OrderedAround node heap i)
    (h1 : 1 ≤ m) (hmi : (m - 1) / 2 = i) (hi : i < heap.length) (hm : m < heap.length)
    (hle : slotRank node heap m ≤ slotRank node heap i)
    (hleast : ∀ j, 1 ≤ j → j < heap.length → (j - 1) / 2 = i → slotRank node heap m ≤ slotRank node heap j) :
    OrderedAround node (swapSlots heap i heap[i] m heap[m]) m ∧ GeParent node (swapSlots heap i heap[i] m heap[m]) m := by
  refine ⟨⟨?_, ?_⟩, ?_⟩ <;> simp only [GeParent, swapSlots_length, slotRank_swapSlots node hi hm]
  · intro j hj1 hj hjm hpm
    rw [if_neg hpm, if_neg hjm]
    by_cases hji : j = i
    · subst hji
      rw [if_neg (by omega), if_pos rfl]
      exact h.skip m h1 hm hmi hj1
    · rw [if_neg hji]
      split_ifs with hpi
      · exact hleast j hj1 hj hpi
      · exact h.edge j hj1 hj hji hpi
  · intro j hj1 hj hjm _
    rw [hmi, if_neg (by omega), if_pos rfl, if_neg (by omega), if_neg (by omega)]
    exact hjm ▸ h.edge j hj1 hj (by omega) (by omega)
  · intro _
    rw [hmi, if_neg (by omega), if_pos rfl, if_pos trivial]
    exact hle

/-! ### `PQ_INSERT` (R112) -/

/-- One turn of the sift of `PQ_INSERT`, in ranks. -/
theorem siftUp_succ {node : List (Nat × NodeRec)} {heap : List NodeId} (hr : Recorded node heap) (bound : Nat) {i : Nat} (h1 : 1 ≤ i)
    (hi : i < heap.length) (hp : (i - 1) / 2 < heap.length) :
    siftUp node (bound + 1) heap i =
      if slotRank node heap i < slotRank node heap ((i - 1) / 2) then
        siftUp node bound (swapSlots heap i heap[i] ((i - 1) / 2) heap[(i - 1) / 2]) ((i - 1) / 2)
      else .ok heap := by
  rw [siftUp, if_neg (by omega), slotAt_lt hi, slotAt_lt hp]
  simp only [less_slots hr hi hp]
  by_cases hlt : slotRank node heap i < slotRank node heap ((i - 1) / 2) <;> simp [hlt]

theorem siftUp_zero_slot (node : List (Nat × NodeRec)) (bound : Nat) (heap : List NodeId) : siftUp node bound heap 0 = .ok heap := by
  cases bound <;> simp [siftUp]

/-- The sift of `PQ_INSERT` orders a heap whose entry in slot i may be less than its parent. -/
theorem siftUp_ordered {node : List (Nat × NodeRec)} (bound : Nat) {heap h : List NodeId} {i : Nat} (hr : Recorded node heap)
    (hi : i < heap.length) (hb : i ≤ bound) (ho : OrderedAround node heap i) (hc : LeChildren node heap i)
    (hs : siftUp node bound heap i = .ok h) : HeapOrdered node h := by
  induction bound generalizing heap i with
  | zero =>
    obtain rfl : i = 0 := by omega
    obtain rfl : heap = h := by simpa [siftUp_zero_slot] using hs
    exact ho.ordered hc (by simp [GeParent])
  | succ bound ih =>
    rcases Nat.eq_zero_or_pos i with rfl | h1
    · obtain rfl : heap = h := by simpa [siftUp_zero_slot] using hs
      exact ho.ordered hc (by simp [GeParent])
    · have hp : (i - 1) / 2 < heap.length := by omega
      rw [siftUp_succ hr bound h1 hi hp] at hs
      split at hs
      · rename_i hlt
        obtain ⟨ho', hc'⟩ := ho.swap_up h1 rfl hi hp hlt
        exact ih (hr.perm (swapSlots_perm hi hp)) (by rwa [swapSlots_length]) (by omega) ho' hc' hs
      · rename_i hge
        obtain rfl : heap = h := by simpa using hs
        exact ho.ordered hc fun _ => Nat.le_of_not_lt hge

/-- Behind an ordered heap a new last entry is the only one out of place, and has no children. -/
theorem HeapOrdered.append {node : List (Nat × NodeRec)} {heap : List NodeId} (h : HeapOrdered node heap) (n : NodeId) :
    OrderedAround node (heap ++ [n]) heap.length ∧ LeChildren node (heap ++ [n]) heap.length := by
  have hold : ∀ k < heap.length, slotRank node (heap ++ [n]) k = slotRank node heap k := fun k hk => by
    simp [slotRank, List.getElem?_append_left hk]
  have hlen : (heap ++ [n]).length = heap.length + 1 := by simp
  refine ⟨⟨fun j h1 hj hne _ => ?_, fun j h1 hj hp _ => by omega⟩, fun j h1 hj hp => by omega⟩
  rw [hold j (by omega), hold _ (by omega)]
  exact h j h1 (by omega)

/-- Settles O29: the sift permutes the old heap with the new id behind it, and brings that id to where the order holds. -/
theorem pqInsertAddsItsId : Obligations.PqInsertAddsItsId := by
  intro node heap n hok hl hn hnew
  obtain ⟨hnd, hr, ho⟩ := heapOk_iff.1 hok
  obtain ⟨h, hh, hp⟩ := pqInsert_perm hr hn (Nat.lt_succ_of_le hl)
  have hr' : Recorded node (n :: heap) := List.forall_mem_cons.2 ⟨hn, hr⟩
  have hs : siftUp node heap.length (heap ++ [n]) heap.length = .ok h := by
    rwa [pqInsert, if_pos (show heap.length < Config.pqCap from Nat.lt_succ_of_le hl)] at hh
  obtain ⟨ha, hc⟩ := ho.append n
  have ho' : HeapOrdered node h := siftUp_ordered _ (hr'.perm (List.perm_append_singleton n heap)) (by simp) (Nat.le_refl _) ha hc hs
  exact ⟨h, hh, heapOk_iff.2 ⟨hp.nodup_iff.2 (List.nodup_cons.2 ⟨hnew, hnd⟩), hr'.perm hp, ho'⟩, hp⟩

/-! ### `PQ_EXTRACT_MIN` (R113) -/

/-- One comparison of the sift of `PQ_EXTRACT_MIN` answers the lesser of the two slots. -/
theorem smallerChild_least {node : List (Nat × NodeRec)} {heap : List NodeId} {c m k : Nat} (hr : Recorded node heap)
    (hm : m < heap.length) (h : smallerChild node heap c m = .ok k) :
    slotRank node heap k ≤ slotRank node heap m ∧ (c < heap.length → slotRank node heap k ≤ slotRank node heap c) := by
  by_cases hc : c < heap.length
  · rw [smallerChild, if_pos hc, slotAt_lt hc, slotAt_lt hm] at h
    simp only [less_slots hr hc hm] at h
    by_cases hlt : slotRank node heap c < slotRank node heap m
    · obtain rfl : c = k := by simpa [hlt] using h
      exact ⟨Nat.le_of_lt hlt, fun _ => Nat.le_refl _⟩
    · obtain rfl : m = k := by simpa [hlt] using h
      exact ⟨Nat.le_refl _, fun _ => Nat.le_of_not_lt hlt⟩
  · obtain rfl : m = k := by simpa [smallerChild, hc] using h
    exact ⟨Nat.le_refl _, fun h => absurd h hc⟩

/-- The slot the sift goes on with is the least of slot i and its live children. -/
theorem siftTarget_least {node : List (Nat × NodeRec)} {heap : List NodeId} {i m : Nat} (hr : Recorded node heap)
    (hi : i < heap.length) (ht : siftTarget node heap i = .ok m) :
    m < heap.length ∧ (m = i ∨ 1 ≤ m ∧ (m - 1) / 2 = i) ∧ slotRank node heap m ≤ slotRank node heap i ∧
      ∀ j, 1 ≤ j → j < heap.length → (j - 1) / 2 = i → slotRank node heap m ≤ slotRank node heap j := by
  obtain ⟨k, hk, hk'⟩ := smallerChild_ok (c := 2 * i + 1) hr hi
  have hkl : k < heap.length := by omega
  obtain ⟨m', hm, hm'⟩ := smallerChild_ok (c := 2 * i + 2) hr hkl
  obtain rfl : m' = m := by simpa [siftTarget, hk, hm] using ht
  obtain ⟨hki, hkleft⟩ := smallerChild_least hr hi hk
  obtain ⟨hmk, hmright⟩ := smallerChild_least hr hkl hm
  refine ⟨by omega, by omega, hmk.trans hki, fun j h1 hj hji => ?_⟩
  obtain rfl | rfl : j = 2 * i + 1 ∨ j = 2 * i + 2 := by omega
  · exact hmk.trans (hkleft hj)
  · exact hmright hj

/-- The sift of `PQ_EXTRACT_MIN` orders a heap whose entry in slot i may be greater than its children. -/
theorem siftDown_ordered {node : List (Nat × NodeRec)} (bound : Nat) {heap h : List NodeId} {i : Nat} (hr : Recorded node heap)
    (hi : i < heap.length) (ho : OrderedAround node heap i) (hp : GeParent node heap i)
    (hs : siftDown node bound heap i = .ok h) : HeapOrdered node h := by
  induction bound generalizing heap i with
  | zero => simp [siftDown] at hs
  | succ bound ih =>
    obtain ⟨m, ht, -, -⟩ := siftTarget_ok hr hi
    obtain ⟨hm, hmi, hle, hleast⟩ := siftTarget_least hr hi ht
    rw [siftDown, ht] at hs
    by_cases hmi' : m = i
    · subst hmi'
      obtain rfl : heap = h := by simpa using hs
      exact ho.ordered hleast hp
    · obtain ⟨h1, hpm⟩ := hmi.resolve_left hmi'
      simp only [if_neg hmi', slotAt_lt hi, slotAt_lt hm] at hs
      obtain ⟨ho', hp'⟩ := ho.swap_down h1 hpm hi hm hle hleast
      exact ih (hr.perm (swapSlots_perm hi hm)) (by rwa [swapSlots_length]) ho' hp' hs

/-- An ordered heap without its last slot, and with any id in slot 0, is ordered but for that id. -/
theorem HeapOrdered.dropLast_set {node : List (Nat × NodeRec)} {heap : List NodeId} (h : HeapOrdered node heap) (n : NodeId) :
    OrderedAround node (heap.dropLast.set 0 n) 0 := by
  refine ⟨fun j h1 hj hne hp => ?_, fun j h1 hj hp h0 => by omega⟩
  have hj' : j < heap.length - 1 := by simpa using hj
  have hold : ∀ k < heap.length - 1, k ≠ 0 → slotRank node (heap.dropLast.set 0 n) k = slotRank node heap k := fun k hk hk0 => by
    rw [slotRank, List.getElem?_set_ne (Ne.symm hk0), List.getElem?_dropLast, if_pos hk, slotRank]
  rw [hold j hj' hne, hold _ (by omega) hp]
  exact h j h1 (by omega)

/-- What `PQ_EXTRACT_MIN` leaves of an ordered heap is ordered. -/
theorem pqExtractMin_ordered {node : List (Nat × NodeRec)} {heap h : List NodeId} {m : NodeId} (hr : Recorded node heap)
    (ho : HeapOrdered node heap) (he : pqExtractMin node heap = .ok (m, h)) : HeapOrdered node h := by
  unfold pqExtractMin at he
  split at he
  · rename_i r t last hlast
    split at he
    · obtain ⟨-, rfl⟩ : r = m ∧ [] = h := by simpa using he
      exact fun j _ hj => absurd hj (Nat.not_lt_zero j)
    · rename_i hlen
      split at he
      · rename_i h' hs
        obtain ⟨-, rfl⟩ : r = m ∧ h' = h := by simpa using he
        have hr' : Recorded node ((r :: t).dropLast.set 0 last) := fun x hx => by
          rcases List.mem_or_eq_of_mem_set hx with hx | rfl
          · exact hr x (List.mem_of_mem_dropLast hx)
          · exact hr x (List.mem_of_getLast? hlast)
        exact siftDown_ordered _ hr' (by simpa [Nat.pos_iff_ne_zero] using hlen) (ho.dropLast_set last) (by simp [GeParent]) hs
      · cases he
  · cases he

/-- Settles O30: slot 0 holds the least rank, distinct ids have distinct ranks, and the sift permutes the other ids and orders them
again. -/
theorem pqExtractMinTakesTheLeast : Obligations.PqExtractMinTakesTheLeast := by
  intro node heap hok hne
  obtain ⟨hnd, hr, ho⟩ := heapOk_iff.1 hok
  obtain ⟨m, h, he, hp, hhead⟩ := pqExtractMin_perm hr hne
  obtain ⟨hm, hnd'⟩ := List.nodup_cons.1 (hp.nodup_iff.1 hnd)
  have hr' : Recorded node (m :: h) := hr.perm hp.symm
  have hrest : Recorded node h := fun x hx => hr' x (List.mem_cons_of_mem m hx)
  refine ⟨m, h, he, heapOk_iff.2 ⟨hnd', hrest, pqExtractMin_ordered hr ho he⟩, hp, fun x hx => ?_⟩
  have hne' : nodeRank node m ≠ nodeRank node x := keyRank_ne (ne_of_mem_of_not_mem hx hm).symm
  have hle : nodeRank node m ≤ nodeRank node x := ho.head_le hhead x (hp.mem_iff.2 (List.mem_cons_of_mem m hx))
  rw [less_by_rank (hr' m List.mem_cons_self) (hrest x hx), decide_eq_true (Nat.lt_of_le_of_ne hle hne')]

end Sys2Proof.Machine
end

section
/-! PROOFS. What the merges of `TREE_BUILD` take, whatever the unit held before (spec/42_tree_builder.md R121). Each loop keeps that the
heap holds exactly the nodes the next merge may take; so every merge takes the two least of them, and one node is left (`Built`). -/

namespace Sys2Proof.Machine

/-! ### `less` on recorded ids (R111) -/

/-- `less` holds between two recorded ids, the first of the lesser rank. -/
theorem less_true_iff {node : List (Nat × NodeRec)} {a b : NodeId} :
    less node a b = .ok true ↔
      (∃ r, nodeAt node a = .ok r) ∧ (∃ r, nodeAt node b = .ok r) ∧ nodeRank node a < nodeRank node b := by
  refine ⟨fun h => ?_, fun ⟨ha, hb, hlt⟩ => by rw [less_by_rank ha hb, decide_eq_true hlt]⟩
  cases ha : nodeAt node a with
  | error f => simp [less, ha] at h
  | ok ra =>
    cases hb : nodeAt node b with
    | error f => simp [less, ha, hb] at h
    | ok rb =>
      rw [less_by_rank ⟨ra, ha⟩ ⟨rb, hb⟩] at h
      exact ⟨⟨ra, rfl⟩, ⟨rb, rfl⟩, by simpa using h⟩

theorem less_irrefl (node : List (Nat × NodeRec)) (a : NodeId) : less node a a ≠ .ok true := fun h =>
  Nat.lt_irrefl _ (less_true_iff.1 h).2.2

theorem less_asymm {node : List (Nat × NodeRec)} {a b : NodeId} (h : less node a b = .ok true) : less node b a ≠ .ok true := fun hc =>
  Nat.lt_asymm (less_true_iff.1 h).2.2 (less_true_iff.1 hc).2.2

theorem less_trans {node : List (Nat × NodeRec)} {a b c : NodeId} (hab : less node a b = .ok true) (hbc : less node b c = .ok true) :
    less node a c = .ok true := by
  obtain ⟨ha, -, hlt⟩ := less_true_iff.1 hab
  obtain ⟨-, hc, hlt'⟩ := less_true_iff.1 hbc
  exact less_true_iff.2 ⟨ha, hc, hlt.trans hlt'⟩

/-- `less` reads the records of its two ids only. -/
theorem less_congr {node node' : List (Nat × NodeRec)} {a b : NodeId} (ha : nodeAt node' a = nodeAt node a)
    (hb : nodeAt node' b = nodeAt node b) : less node' a b = less node a b := by
  rw [less, less, ha, hb]

theorem nodeFreq_of_ok {node : List (Nat × NodeRec)} {n : NodeId} {r : NodeRec} (h : nodeAt node n = .ok r) :
    nodeFreq node n = r.freq.toNat := by
  rw [nodeFreq, h]

theorem nodeFreq_congr {node node' : List (Nat × NodeRec)} {n : NodeId} (h : nodeAt node' n = nodeAt node n) :
    nodeFreq node' n = nodeFreq node n := by
  rw [nodeFreq, nodeFreq, h]

/-! ### The heap under writes to the arena (R114) -/

/-- The heap invariant reads the records of the heap's ids only. -/
theorem heapOk_congr {node node' : List (Nat × NodeRec)} {heap : List NodeId} (h : heapOk node heap)
    (hn : ∀ x ∈ heap, nodeAt node' x = nodeAt node x) : heapOk node' heap := by
  obtain ⟨hnd, hrec, hord⟩ := h
  refine ⟨hnd, fun x hx => by rw [hn x hx]; exact hrec x hx, fun i x p h1 hx hp => ?_⟩
  rw [less_congr (hn x (List.mem_of_getElem? hx)) (hn p (List.mem_of_getElem? hp))]
  exact hord i x p h1 hx hp

/-- R112: an insertion that answered left the old ids and the new one, in heap order. -/
theorem pqInsert_heapOk {node : List (Nat × NodeRec)} {heap h : List NodeId} {n : NodeId} (hok : heapOk node heap)
    (hn : ∃ r, nodeAt node n = .ok r) (hnew : n ∉ heap) (hi : pqInsert node heap n = .ok h) : heapOk node h ∧ h.Perm (n :: heap) := by
  have hlen : heap.length < Config.pqCap := by
    by_contra hc
    simp [pqInsert, hc] at hi
  obtain ⟨h', hi', hok', hp⟩ := pqInsertAddsItsId node heap n hok (Nat.le_of_lt_succ hlen) hn hnew
  obtain rfl : h' = h := Except.ok.inj (hi'.symm.trans hi)
  exact ⟨hok', hp⟩

/-- R113: an extraction that answered took the least id. -/
theorem pqExtractMin_least {node : List (Nat × NodeRec)} {heap h : List NodeId} {m : NodeId} (hok : heapOk node heap)
    (he : pqExtractMin node heap = .ok (m, h)) :
    heapOk node h ∧ heap.Perm (m :: h) ∧ ∀ x ∈ h, less node m x = .ok true := by
  have hne : heap ≠ [] := by
    rintro rfl
    simp [pqExtractMin] at he
  obtain ⟨m', h', he', hok', hp, hleast⟩ := pqExtractMinTakesTheLeast node heap hok hne
  obtain ⟨rfl, rfl⟩ := Prod.mk.inj (Except.ok.inj (he'.symm.trans he))
  exact ⟨hok', hp, hleast⟩

/-! ### The nodes a merge may take -/

/-- The first clause of `mergeable`: the leaf of a used symbol, or an internal node created before p. -/
def CreatedBefore (u : TreeUnit) (p : Nat) (x : NodeId) : Prop :=
  x.toNat < 256 ∧ freqAt u x.toNat ≠ 0#32 ∨ 256 ≤ x.toNat ∧ x.toNat < p

/-- The second clause of `mergeable`: no node created before p has it as a child. -/
def UntakenBefore (u : TreeUnit) (p : Nat) (x : NodeId) : Prop :=
  ∀ q r, 256 ≤ q.toNat → q.toNat < p → nodeAt u.node q = .ok r → r.left ≠ x ∧ r.right ≠ x

theorem mergeable_iff {u : TreeUnit} {p : Nat} {x : NodeId} : mergeable u p x ↔ CreatedBefore u p x ∧ UntakenBefore u p x := .rfl

theorem mergeable.created {u : TreeUnit} {p : Nat} {x : NodeId} (h : mergeable u p x) : CreatedBefore u p x := h.1

theorem CreatedBefore.mono {u : TreeUnit} {p q : Nat} {x : NodeId} (h : CreatedBefore u p x) (hpq : p ≤ q) : CreatedBefore u q x :=
  h.imp_right fun ⟨h1, h2⟩ => ⟨h1, h2.trans_le hpq⟩

/-- A node created before p has a smaller id. -/
theorem CreatedBefore.lt {u : TreeUnit} {p : Nat} {x : NodeId} (h : CreatedBefore u p x) (hp : 256 ≤ p) : x.toNat < p := by
  rcases h with ⟨h1, -⟩ | ⟨-, h2⟩
  · exact h1.trans_le hp
  · exact h2

theorem CreatedBefore.ne {u : TreeUnit} {p x : NodeId} (h : CreatedBefore u p.toNat x) (hp : 256 ≤ p.toNat) : x ≠ p := by
  rintro rfl
  exact Nat.lt_irrefl _ (h.lt hp)

theorem createdBefore_succ {u : TreeUnit} {p x : NodeId} (hp : 256 ≤ p.toNat) :
    CreatedBefore u (p.toNat + 1) x ↔ x = p ∨ CreatedBefore u p.toNat x := by
  constructor
  · rintro (h | ⟨h1, h2⟩)
    · exact .inr (.inl h)
    · rcases Nat.lt_succ_iff_lt_or_eq.1 h2 with h2 | h2
      · exact .inr (.inr ⟨h1, h2⟩)
      · exact .inl (BitVec.eq_of_toNat_eq h2)
  · rintro (rfl | h)
    · exact .inr ⟨hp, Nat.lt_succ_self _⟩
    · exact h.mono (Nat.le_succ _)

theorem untakenBefore_succ {u : TreeUnit} {p x : NodeId} {r : NodeRec} (hp : 256 ≤ p.toNat) (hr : nodeAt u.node p = .ok r) :
    UntakenBefore u (p.toNat + 1) x ↔ UntakenBefore u p.toNat x ∧ r.left ≠ x ∧ r.right ≠ x := by
  refine ⟨fun h => ⟨fun q s h1 h2 hs => h q s h1 (by omega) hs, h p r hp (Nat.lt_succ_self _) hr⟩,
    fun ⟨h, hnew⟩ q s h1 h2 hs => ?_⟩
  by_cases hq : q = p
  · subst hq
    obtain rfl : s = r := Except.ok.inj (hs.symm.trans hr)
    exact hnew
  · have hne : q.toNat ≠ p.toNat := fun hc => hq (BitVec.eq_of_toNat_eq hc)
    exact h q s h1 (by omega) hs

/-- Before the first merge the leaves of the used symbols are all there is. -/
theorem mergeable_first {u : TreeUnit} {x : NodeId} : mergeable u 256 x ↔ x.toNat < 256 ∧ freqAt u x.toNat ≠ 0#32 := by
  refine mergeable_iff.trans ⟨fun ⟨h, _⟩ => h.resolve_right (by omega), fun h => ⟨.inl h, fun q r h1 h2 _ => by omega⟩⟩

/-- Two units with the same table and the same records of the nodes created before p. -/
structure AgreeBefore (u v : TreeUnit) (p : Nat) : Prop where
  table : ∀ k < 256, freqAt v k = freqAt u k
  nodes : ∀ x, CreatedBefore u p x → nodeAt v.node x = nodeAt u.node x

theorem AgreeBefore.mono {u v : TreeUnit} {p q : Nat} (h : AgreeBefore u v p) (hqp : q ≤ p) : AgreeBefore u v q :=
  ⟨h.table, fun x hx => h.nodes x (hx.mono hqp)⟩

theorem AgreeBefore.created_iff {u v : TreeUnit} {p : Nat} (h : AgreeBefore u v p) (q : Nat) (x : NodeId) :
    CreatedBefore v q x ↔ CreatedBefore u q x :=
  or_congr_left (and_congr_right fun hx => by rw [h.table _ hx])

theorem AgreeBefore.mergeable_iff {u v : TreeUnit} {p : Nat} (h : AgreeBefore u v p) (x : NodeId) :
    mergeable v p x ↔ mergeable u p x := by
  refine and_congr (h.created_iff p x) (forall₂_congr fun q r => forall₂_congr fun h1 h2 => ?_)
  rw [h.nodes q (.inr ⟨h1, h2⟩)]

/-! ### What a merge takes (R121) -/

/-- The record of node p is over the least and the next of the nodes its merge may take. -/
structure TakesTwoLeast (u : TreeUnit) (p : Nat) (r : NodeRec) : Prop where
  left    : mergeable u p r.left
  right   : mergeable u p r.right
  ordered : less u.node r.left r.right = .ok true
  next    : ∀ x, mergeable u p x → x ≠ r.left → x ≠ r.right → less u.node r.right x = .ok true
  freq    : r.freq.toNat = nodeFreq u.node r.left + nodeFreq u.node r.right
  leaf    : r.leaf = false
  sym     : r.sym = 0#8

/-- Every internal node below n took the two least. -/
def MergedBelow (u : TreeUnit) (n : Nat) : Prop :=
  ∀ p : NodeId, 256 ≤ p.toNat → p.toNat < n → ∃ r, nodeAt u.node p = .ok r ∧ TakesTwoLeast u p.toNat r

/-- What a merge takes depends on the table and the older nodes' records only. -/
theorem TakesTwoLeast.congr {u v : TreeUnit} {p : Nat} {r : NodeRec} (h : TakesTwoLeast u p r) (ha : AgreeBefore u v p) :
    TakesTwoLeast v p r where
  left := (ha.mergeable_iff _).2 h.left
  right := (ha.mergeable_iff _).2 h.right
  ordered := (less_congr (ha.nodes _ h.left.created) (ha.nodes _ h.right.created)).trans h.ordered
  next x hx hl hr := by
    have hx' := (ha.mergeable_iff x).1 hx
    exact (less_congr (ha.nodes _ h.right.created) (ha.nodes _ hx'.created)).trans (h.next x hx' hl hr)
  freq := by rw [nodeFreq_congr (ha.nodes _ h.left.created), nodeFreq_congr (ha.nodes _ h.right.created)]; exact h.freq
  leaf := h.leaf
  sym := h.sym

theorem MergedBelow.congr {u v : TreeUnit} {n : Nat} (h : MergedBelow u n) (ha : AgreeBefore u v n) : MergedBelow v n := by
  intro p h1 h2
  obtain ⟨r, hr, htwo⟩ := h p h1 h2
  exact ⟨r, (ha.nodes p (.inr ⟨h1, h2⟩)).trans hr, htwo.congr (ha.mono (Nat.le_of_lt h2))⟩

/-- The left child is less than every other node the merge may take. -/
theorem TakesTwoLeast.left_less {u : TreeUnit} {p : Nat} {r : NodeRec} (h : TakesTwoLeast u p r) {x : NodeId} (hx : mergeable u p x)
    (hne : x ≠ r.left) : less u.node r.left x = .ok true := by
  by_cases hxr : x = r.right
  · exact hxr ▸ h.ordered
  · exact less_trans h.ordered (h.next x hx hne hxr)

/-- There is one record that takes the two least: `less` leaves no choice of the children, and they determine the rest. -/
theorem TakesTwoLeast.unique {u : TreeUnit} {p : Nat} {r s : NodeRec} (hr : TakesTwoLeast u p r) (hs : TakesTwoLeast u p s) : r = s := by
  have hleft : r.left = s.left := by
    by_contra hne
    exact less_asymm (hr.left_less hs.left (Ne.symm hne)) (hs.left_less hr.left hne)
  have hright : r.right = s.right := by
    by_contra hne
    have hr' : r.right ≠ s.left := fun hc => less_irrefl u.node s.left (by simpa [hleft, hc] using hr.ordered)
    have hs' : s.right ≠ r.left := fun hc => less_irrefl u.node r.left (by simpa [← hleft, hc] using hs.ordered)
    exact less_asymm (hr.next _ hs.right hs' (Ne.symm hne)) (hs.next _ hr.right hr' hne)
  have hfreq : r.freq = s.freq := BitVec.eq_of_toNat_eq (by rw [hr.freq, hs.freq, hleft, hright])
  have hleaf : r.leaf = s.leaf := hr.leaf.trans hs.leaf.symm
  have hsym : r.sym = s.sym := hr.sym.trans hs.sym.symm
  cases r
  cases s
  simp only at hleft hright hfreq hleaf hsym
  rw [hleft, hright, hfreq, hleaf, hsym]

/-- After the merge that creates node p, the nodes the next one may take are p and those p did not take. -/
theorem mergeable_succ {u : TreeUnit} {p : NodeId} {r : NodeRec} {held rest : List NodeId} (hp : 256 ≤ p.toNat)
    (hr : nodeAt u.node p = .ok r) (htwo : TakesTwoLeast u p.toNat r) (hbelow : MergedBelow u p.toNat)
    (hheld : ∀ x, x ∈ held ↔ mergeable u p.toNat x) (hnd : held.Nodup) (hperm : held.Perm (r.left :: r.right :: rest)) (x : NodeId) :
    x ∈ p :: rest ↔ mergeable u (p.toNat + 1) x := by
  have hrest : x ∈ rest ↔ mergeable u p.toNat x ∧ r.left ≠ x ∧ r.right ≠ x := by
    have hnd' := hperm.nodup_iff.1 hnd
    simp only [List.nodup_cons, List.mem_cons, not_or] at hnd'
    obtain ⟨⟨-, hl⟩, hr, -⟩ := hnd'
    rw [← hheld, hperm.mem_iff]
    simp only [List.mem_cons]
    refine ⟨fun h => ⟨.inr (.inr h), ?_, ?_⟩, fun ⟨h, hl, hr⟩ => (h.resolve_left (Ne.symm hl)).resolve_left (Ne.symm hr)⟩
    · rintro rfl; exact hl h
    · rintro rfl; exact hr h
  have hself : UntakenBefore u p.toNat p := fun q s h1 h2 hs => by
    obtain ⟨s', hs', htwo'⟩ := hbelow q h1 h2
    obtain rfl : s' = s := Except.ok.inj (hs'.symm.trans hs)
    exact ⟨(htwo'.left.created.mono (Nat.le_of_lt h2)).ne hp, (htwo'.right.created.mono (Nat.le_of_lt h2)).ne hp⟩
  rw [Machine.mergeable_iff, createdBefore_succ hp, untakenBefore_succ hp hr, List.mem_cons, hrest, Machine.mergeable_iff]
  constructor
  · rintro (rfl | ⟨⟨hc, hu⟩, hne⟩)
    · exact ⟨.inl rfl, hself, htwo.left.created.ne hp, htwo.right.created.ne hp⟩
    · exact ⟨.inr hc, hu, hne⟩
  · rintro ⟨rfl | hc, hu, hne⟩
    · exact .inl rfl
    · exact .inr ⟨⟨hc, hu⟩, hne⟩

/-! ### What the two loops keep -/

/-- While `TREE_BUILD` runs, with the symbols of `todo` still to come: the heap is in order and holds exactly the nodes the next merge
may take, and what is written of leaves and merges stands. -/
structure Grown (todo : List Nat) (v : TreeUnit) : Prop where
  nodup : todo.Nodup
  heap  : heapOk v.node v.heap
  mem   : ∀ x, x ∈ v.heap ↔ x.toNat ∉ todo ∧ mergeable v v.nnext.toNat x
  leaf  : ∀ c < 256, c ∉ todo → freqAt v c ≠ 0#32 → nodeAt v.node (BitVec.ofNat 9 c) = .ok (leafRec v c)
  inner : MergedBelow v v.nnext.toNat

theorem Grown.start (u : TreeUnit) : Grown Config.symbols { u with heap := [], nnext := Config.firstInternal } where
  nodup := List.nodup_range
  heap := ⟨List.nodup_nil, by simp, by simp⟩
  mem x := by
    show x ∈ [] ↔ _ ∧ mergeable _ 256 x
    rw [mergeable_first]
    simp only [Config.symbols, Config.nsym, List.mem_range, List.not_mem_nil, false_iff, not_and]
    omega
  leaf c hc hn := absurd (List.mem_range.2 hc) hn
  inner p h1 h2 := absurd h2 (Nat.not_lt.2 h1)

/-- What one turn of the leaf loop can do (R121). -/
theorem insertLeaf_cases {v v' : TreeUnit} {s : Nat} (h : insertLeaf v s = .ok v') :
    (freqAt v s = 0#32 ∧ v' = v) ∨
    ∃ heap, freqAt v s ≠ 0#32 ∧
      pqInsert (setNode v (BitVec.ofNat 9 s) (leafRec v s)).node v.heap (BitVec.ofNat 9 s) = .ok heap ∧
      v' = { setNode v (BitVec.ofNat 9 s) (leafRec v s) with heap := heap } := by
  unfold insertLeaf at h
  split at h
  · rename_i h0
    exact .inl ⟨h0, (Except.ok.inj h).symm⟩
  · rename_i h0
    split at h
    · rename_i heap hi
      exact .inr ⟨heap, h0, hi, (Except.ok.inj h).symm⟩
    · cases h

/-- While no merge is made, the heap holds the leaves of the used symbols that have had their turn. -/
theorem Grown.mem_leaves {v : TreeUnit} {todo : List Nat} (hg : Grown todo v) (hn : v.nnext.toNat = 256) (x : NodeId) :
    x ∈ v.heap ↔ x.toNat ∉ todo ∧ x.toNat < 256 ∧ freqAt v x.toNat ≠ 0#32 := by
  rw [hg.mem, hn, mergeable_first]

/-- An unused symbol has its turn. -/
theorem Grown.skipLeaf {v : TreeUnit} {s : Nat} {todo : List Nat} (hn : v.nnext.toNat = 256) (hg : Grown (s :: todo) v)
    (h0 : freqAt v s = 0#32) : Grown todo v where
  nodup := hg.nodup.of_cons
  heap := hg.heap
  mem x := by
    rw [hg.mem_leaves hn, hn, mergeable_first, List.mem_cons, not_or, and_assoc]
    exact and_iff_right_of_imp fun h hx => h.2.2 (hx ▸ h0)
  leaf c hc hct hcf := by
    have hcs : c ≠ s := by
      rintro rfl
      exact hcf h0
    exact hg.leaf c hc (by simp [hcs, hct]) hcf
  inner := hg.inner

/-- A used symbol has its turn: its leaf is one node more that a merge may take. -/
theorem Grown.addLeaf {v : TreeUnit} {s : Nat} {todo : List Nat} {heap : List NodeId} (hs : s < 256) (hn : v.nnext.toNat = 256)
    (hg : Grown (s :: todo) v) (h0 : freqAt v s ≠ 0#32)
    (hi : pqInsert (setNode v (BitVec.ofNat 9 s) (leafRec v s)).node v.heap (BitVec.ofNat 9 s) = .ok heap) :
    Grown todo { setNode v (BitVec.ofNat 9 s) (leafRec v s) with heap := heap } := by
  obtain ⟨hnew, hnd⟩ := List.nodup_cons.1 hg.nodup
  have hid : (BitVec.ofNat 9 s).toNat = s := leafId_toNat hs
  have hne : BitVec.ofNat 9 s ≠ Config.noneId := ne_noneId_of_lt (by omega)
  have hat := fun x => nodeAt_setNode v (BitVec.ofNat 9 s) x (leafRec v s) hne
  have hout : BitVec.ofNat 9 s ∉ v.heap := fun hc => ((hg.mem_leaves hn _).1 hc).1 (by simp [hid])
  have hold : ∀ x ∈ v.heap, nodeAt (setNode v (BitVec.ofNat 9 s) (leafRec v s)).node x = nodeAt v.node x := fun x hx => by
    rw [hat, if_neg (ne_of_mem_of_not_mem hx hout).symm]
  obtain ⟨hok, hperm⟩ := pqInsert_heapOk (heapOk_congr hg.heap hold) ⟨_, (hat _).trans (if_pos rfl)⟩ hout hi
  refine ⟨hnd, hok, fun x => ?_, fun c hc hct hcf => ?_, fun p h1 h2 => absurd h2 (Nat.not_lt.2 (hn ▸ h1))⟩
  · show x ∈ heap ↔ _ ∧ mergeable _ v.nnext.toNat x
    rw [hperm.mem_iff, List.mem_cons, hg.mem_leaves hn, hn, mergeable_first, List.mem_cons, not_or, ← BitVec.toNat_inj, hid]
    show _ ↔ _ ∧ _ ∧ freqAt v x.toNat ≠ 0#32
    by_cases hx : x.toNat = s
    · simp [hx, hnew, hs, h0]
    · simp [hx]
  · show nodeAt (setNode v _ _).node _ = .ok (leafRec v c)
    rw [hat]
    by_cases hcs : s = c
    · rw [if_pos (congrArg _ hcs), hcs]
    · rw [if_neg (fun he => hcs (by rw [← hid, he, leafId_toNat hc]))]
      exact hg.leaf c hc (by simp [hct, Ne.symm hcs]) hcf

/-- One turn of the leaf loop. -/
theorem Grown.insertLeaf {v v' : TreeUnit} {s : Nat} {todo : List Nat} (hs : s < 256) (hn : v.nnext = Config.firstInternal)
    (hg : Grown (s :: todo) v) (h : insertLeaf v s = .ok v') : Grown todo v' := by
  have hfirst : v.nnext.toNat = 256 := congrArg BitVec.toNat hn
  obtain ⟨h0, rfl⟩ | ⟨heap, h0, hi, rfl⟩ := insertLeaf_cases h
  · exact hg.skipLeaf hfirst h0
  · exact hg.addLeaf hs hfirst h0 hi

/-- What the end of one turn of the merge loop does (R121). -/
theorem addMerged_inv {v v' : TreeUnit} {held : List NodeId} {a b : NodeId} (h : addMerged v held a b = .ok v') :
    ∃ r, r.left = a ∧ r.right = b ∧ r.leaf = false ∧ r.sym = 0#8 ∧
      r.freq.toNat = nodeFreq v.node a + nodeFreq v.node b ∧ v.nnext ≠ Config.noneId ∧ v'.freq = v.freq ∧
      v'.nnext = v.nnext + 1#9 ∧ v'.node = (setNode v v.nnext r).node ∧ pqInsert v'.node held v.nnext = .ok v'.heap := by
  unfold addMerged at h
  split at h
  · cases h
  · rename_i hnone
    split at h
    · rename_i ra rb ha hb
      unfold mergedRec at h
      split at h
      · rename_i r hr
        split at hr
        · rename_i hlt
          obtain rfl := Except.ok.inj hr
          split at h
          · rename_i heap hi
            obtain rfl := Except.ok.inj h
            refine ⟨_, rfl, rfl, rfl, rfl, ?_, hnone, rfl, rfl, rfl, hi⟩
            rw [nodeFreq_of_ok ha, nodeFreq_of_ok hb]
            exact BitVec.toNat_add_of_lt hlt
          · cases h
        · cases hr
      · cases h
    · cases h
    · cases h

/-- What one turn of the merge loop does: the least and the next of the heap are taken, and the node over them is written and
inserted. -/
theorem mergeOnce_inv {v v' : TreeUnit} (hok : heapOk v.node v.heap) (h : mergeOnce v = .ok v') :
    ∃ r rest, v.heap.Perm (r.left :: r.right :: rest) ∧ heapOk v.node rest ∧
      less v.node r.left r.right = .ok true ∧ (∀ x ∈ rest, less v.node r.right x = .ok true) ∧
      r.leaf = false ∧ r.sym = 0#8 ∧ r.freq.toNat = nodeFreq v.node r.left + nodeFreq v.node r.right ∧
      v.nnext ≠ Config.noneId ∧ v'.freq = v.freq ∧ v'.nnext = v.nnext + 1#9 ∧ v'.node = (setNode v v.nnext r).node ∧
      pqInsert v'.node rest v.nnext = .ok v'.heap := by
  unfold mergeOnce at h
  split at h
  · rename_i a h1 he1
    split at h
    · rename_i b rest he2
      obtain ⟨hok1, hp1, hl1⟩ := pqExtractMin_least hok he1
      obtain ⟨hok2, hp2, hl2⟩ := pqExtractMin_least hok1 he2
      obtain ⟨r, rfl, rfl, hrec⟩ := addMerged_inv h
      exact ⟨r, rest, hp1.trans (hp2.cons _), hok2, hl1 _ (hp2.mem_iff.2 List.mem_cons_self), hl2, hrec⟩
    · cases h
  · cases h

/-- The id after one that is not `NONE`. -/
theorem toNat_succ_of_ne_none {n : NodeId} (h : n ≠ Config.noneId) : (n + 1#9).toNat = n.toNat + 1 := by
  have hne : n.toNat ≠ 511 := fun hc => h (BitVec.eq_of_toNat_eq hc)
  have hlt := n.isLt
  exact BitVec.toNat_add_of_lt (y := 1#9) (show n.toNat + 1 < 2 ^ 9 by omega)

/-- One turn of the merge loop: the heap held what the merge may take, so the two least of it are the two least of all. -/
theorem Grown.mergeOnce {freq : List (Nat × Word32)} {v v' : TreeUnit} (hb : Building freq v) (hg : Grown [] v)
    (h : mergeOnce v = .ok v') : Grown [] v' := by
  obtain ⟨r, rest, hperm, hrest, hless, hnext, hleaf, hsym, hfreq, hnone, htable, hnn, hnode, hi⟩ := mergeOnce_inv hg.heap h
  have hp := hb.first
  have hheld : ∀ x, x ∈ v.heap ↔ mergeable v v.nnext.toNat x := fun x => by simpa using hg.mem x
  have hat : ∀ x, nodeAt v'.node x = if v.nnext = x then .ok r else nodeAt v.node x := fun x => by
    rw [hnode, nodeAt_setNode _ _ _ _ hnone]
  have hagree : AgreeBefore v v' v.nnext.toNat :=
    ⟨fun k _ => freqAt_congr htable k, fun x hx => (hat x).trans (if_neg (hx.ne hp).symm)⟩
  have hparts : ∀ x, mergeable v v.nnext.toNat x ↔ x = r.left ∨ x = r.right ∨ x ∈ rest := fun x => by
    rw [← hheld, hperm.mem_iff, List.mem_cons, List.mem_cons]
  have htwo : TakesTwoLeast v v.nnext.toNat r :=
    ⟨(hparts _).2 (.inl rfl), (hparts _).2 (.inr (.inl rfl)), hless,
      fun x hx hl hr => hnext x ((((hparts x).1 hx).resolve_left hl).resolve_left hr), hfreq, hleaf, hsym⟩
  have hold : ∀ x ∈ rest, CreatedBefore v v.nnext.toNat x := fun x hx => ((hparts x).2 (.inr (.inr hx))).created
  have hrest' : heapOk v'.node rest := heapOk_congr hrest fun x hx => hagree.nodes x (hold x hx)
  have hnew : nodeAt v'.node v.nnext = .ok r := (hat _).trans (if_pos rfl)
  obtain ⟨hok, hperm'⟩ := pqInsert_heapOk hrest' ⟨r, hnew⟩ (fun hc => (hold _ hc).ne hp rfl) hi
  have hsucc : v'.nnext.toNat = v.nnext.toNat + 1 := by rw [hnn, toNat_succ_of_ne_none hnone]
  have hbelow := hg.inner.congr hagree
  have htwo' := htwo.congr hagree
  refine ⟨List.nodup_nil, hok, fun x => ?_, fun c hc _ hcf => ?_, fun p h1 h2 => ?_⟩
  · have hmem := mergeable_succ hp hnew htwo' hbelow (fun x => (hheld x).trans (hagree.mergeable_iff x).symm) hg.heap.1 hperm x
    rw [hsucc, hperm'.mem_iff, hmem]
    simp
  · rw [freqAt_congr htable] at hcf
    have hcr : CreatedBefore v v.nnext.toNat (BitVec.ofNat 9 c) := .inl (by rw [leafId_toNat hc]; exact ⟨hc, hcf⟩)
    rw [hagree.nodes _ hcr, leafRec, freqAt_congr htable]
    exact hg.leaf c hc (by simp) hcf
  · rw [hsucc] at h2
    by_cases hpn : p = v.nnext
    · exact ⟨r, hpn ▸ hnew, hpn ▸ htwo'⟩
    · have hne : p.toNat ≠ v.nnext.toNat := fun hc => hpn (BitVec.eq_of_toNat_eq hc)
      exact hbelow p h1 (by omega)

/-! ### What is left at the end -/

/-- What `TREE_BUILD` leaves: the leaves of the used symbols, merges of the two least, and as root the one node that a further merge could
take, if there is one. -/
structure Built (t : TreeUnit) : Prop where
  first : 256 ≤ t.nnext.toNat
  leaf  : ∀ c < 256, freqAt t c ≠ 0#32 → nodeAt t.node (BitVec.ofNat 9 c) = .ok (leafRec t c)
  inner : MergedBelow t t.nnext.toNat
  root  : ∀ x, mergeable t t.nnext.toNat x ↔ x ≠ Config.noneId ∧ x = t.root

theorem Grown.takeRoot {freq : List (Nat × Word32)} {v : TreeUnit} (hb : Building freq v) (h1 : v.heap.length ≤ 1) (hg : Grown [] v) :
    Built (takeRoot v) where
  first := hb.first
  leaf c hc hcf := hg.leaf c hc (by simp) hcf
  inner := hg.inner.congr ⟨fun _ _ => rfl, fun _ _ => rfl⟩
  root x := by
    have hmem : x ∈ v.heap ↔ mergeable v v.nnext.toNat x := by simpa using hg.mem x
    refine hmem.symm.trans ?_
    cases hh : v.heap with
    | nil => simp [Machine.takeRoot, hh]
    | cons r l =>
      obtain rfl : l = [] := List.length_eq_zero_iff.1 (by simpa [hh] using h1)
      obtain ⟨rr, hr⟩ := hb.heapRec r (by simp [hh])
      have hne := (nodeAt_ok.1 hr).1
      simp only [Machine.takeRoot, hh, List.mem_singleton]
      exact ⟨fun h => ⟨h ▸ hne, h⟩, And.right⟩

/-- `TREE_BUILD` of any unit answers what `Built` says; it keeps the table and empties the heap. -/
theorem treeBuild_built (u : TreeUnit) : ∃ t, treeBuild u = .ok t ∧ t.freq = u.freq ∧ t.heap = [] ∧ Built t := by
  obtain ⟨v, hv, hb, h1, hg⟩ := treeBuild_ok Grown u (.start u) (fun v s _ v' hs _ hn hg h => hg.insertLeaf hs hn h)
    (fun v v' hb _ hg h => hg.mergeOnce hb h)
  exact ⟨takeRoot v, hv, hb.table, rfl, hg.takeRoot hb h1⟩

theorem built_of_treeBuild {u t : TreeUnit} (h : treeBuild u = .ok t) : t.freq = u.freq ∧ Built t := by
  obtain ⟨t', ht', hfreq, -, hb⟩ := treeBuild_built u
  obtain rfl : t' = t := Except.ok.inj (ht'.symm.trans h)
  exact ⟨hfreq, hb⟩

/-- Settles O60, from what the two loops keep. -/
theorem treeBuildMergesTheTwoLeast : Obligations.TreeBuildMergesTheTwoLeast := by
  intro u t h
  obtain ⟨hfreq, hb⟩ := built_of_treeBuild h
  refine ⟨fun c hc hcf => ?_, fun p h1 h2 => ?_⟩
  · rw [← freqAt_congr hfreq] at hcf ⊢
    exact hb.leaf c hc hcf
  · obtain ⟨r, hr, htwo⟩ := hb.inner p h1 h2
    obtain ⟨⟨ra, ha⟩, ⟨rb, hb⟩, -⟩ := less_true_iff.1 htwo.ordered
    refine ⟨r, ra, rb, hr, ha, hb, htwo.left, htwo.right, htwo.ordered, htwo.next, ?_, htwo.leaf, htwo.sym⟩
    rw [htwo.freq, nodeFreq_of_ok ha, nodeFreq_of_ok hb]

end Sys2Proof.Machine
end

section
/-! PROOFS. The tree `TREE_BUILD` makes and its determinism, read off the finished arena by `Built`, with no word of the heap
(spec/42_tree_builder.md R122 to R126). -/

namespace Sys2Proof.Machine

/-! ### The table alone decides (R126) -/

/-- Two units built from one table agree on every node both have created, by induction along the order of creation. -/
theorem Built.agree {a b : TreeUnit} (ha : Built a) (hb : Built b) (ht : ∀ k < 256, freqAt b k = freqAt a k) {n : Nat}
    (hna : n ≤ a.nnext.toNat) (hnb : n ≤ b.nnext.toNat) : AgreeBefore a b n := by
  suffices hall : ∀ k x, x.toNat = k → CreatedBefore a n x → nodeAt b.node x = nodeAt a.node x from
    ⟨ht, fun x hx => hall _ x rfl hx⟩
  intro k
  induction k using Nat.strong_induction_on with
  | _ k ih =>
    rintro x rfl (⟨hx, hxf⟩ | ⟨h1, h2⟩)
    · have hleaf := ha.leaf _ hx hxf
      have hleaf' := hb.leaf _ hx (ht _ hx ▸ hxf)
      rw [BitVec.ofNat_toNat, BitVec.setWidth_eq] at hleaf hleaf'
      rw [hleaf, hleaf', leafRec, leafRec, ht _ hx]
    · obtain ⟨r, hr, htwo⟩ := ha.inner x h1 (by omega)
      obtain ⟨s, hs, htwo'⟩ := hb.inner x h1 (by omega)
      have hbelow : AgreeBefore a b x.toNat := ⟨ht, fun y hy => ih _ (hy.lt h1) y rfl (hy.mono (Nat.le_of_lt h2))⟩
      rw [hr, hs, (htwo.congr hbelow).unique htwo']

/-- When a unit has done its merges, another one built from the same table has no two nodes left to merge either. -/
theorem Built.nnext_le {a b : TreeUnit} (ha : Built a) (hb : Built b) (ht : ∀ k < 256, freqAt b k = freqAt a k) :
    b.nnext.toNat ≤ a.nnext.toNat := by
  by_contra hlt
  have hagree := ha.agree hb ht (Nat.le_refl _) (by omega)
  obtain ⟨r, -, htwo⟩ := hb.inner a.nnext ha.first (by omega)
  obtain ⟨-, hl⟩ := (ha.root _).1 ((hagree.mergeable_iff _).1 htwo.left)
  obtain ⟨-, hr⟩ := (ha.root _).1 ((hagree.mergeable_iff _).1 htwo.right)
  exact less_irrefl b.node a.root (by simpa [hl, hr] using htwo.ordered)

theorem Built.nnext_eq {a b : TreeUnit} (ha : Built a) (hb : Built b) (ht : ∀ k < 256, freqAt b k = freqAt a k) :
    a.nnext = b.nnext :=
  BitVec.eq_of_toNat_eq (Nat.le_antisymm (hb.nnext_le ha fun k hk => (ht k hk).symm) (ha.nnext_le hb ht))

theorem Built.root_eq {a b : TreeUnit} (ha : Built a) (hb : Built b) (ht : ∀ k < 256, freqAt b k = freqAt a k) : a.root = b.root := by
  have hn := ha.nnext_eq hb ht
  have hroots : ∀ x, x ≠ Config.noneId ∧ x = a.root ↔ x ≠ Config.noneId ∧ x = b.root := fun x => by
    rw [← ha.root, ← hb.root, ← hn]
    exact ((ha.agree hb ht (Nat.le_refl _) (by rw [hn])).mergeable_iff x).symm
  by_cases h : a.root = Config.noneId
  · by_contra hne
    exact hne ((hroots b.root).2 ⟨fun hc => hne (h.trans hc.symm), rfl⟩).2.symm
  · exact ((hroots a.root).1 ⟨h, rfl⟩).2

/-! ### Paths (R124 (d), (f)) -/

theorem Built.root_created {t : TreeUnit} (ht : Built t) (h : t.root ≠ Config.noneId) : CreatedBefore t t.nnext.toNat t.root :=
  ((ht.root t.root).2 ⟨h, rfl⟩).created

/-- The record of a created node is its leaf's, or that of a merge. -/
theorem Built.record {t : TreeUnit} (ht : Built t) {n : NodeId} (hn : CreatedBefore t t.nnext.toNat n) :
    nodeAt t.node n = .ok (leafRec t n.toNat) ∨
      256 ≤ n.toNat ∧ n.toNat < t.nnext.toNat ∧ ∃ r, nodeAt t.node n = .ok r ∧ TakesTwoLeast t n.toNat r := by
  rcases hn with ⟨h1, h2⟩ | ⟨h1, h2⟩
  · have hleaf := ht.leaf _ h1 h2
    rw [BitVec.ofNat_toNat, BitVec.setWidth_eq] at hleaf
    exact .inl hleaf
  · exact .inr ⟨h1, h2, ht.inner n h1 h2⟩

/-- A path goes from created nodes to created nodes, each choice to an older one: from node n at most n − 255 choices. -/
theorem Built.follow {t : TreeUnit} (ht : Built t) {n m : NodeId} {path : List Bool} (hn : CreatedBefore t t.nnext.toNat n)
    (h : follow t.node n path = some m) : CreatedBefore t t.nnext.toNat m ∧ path.length ≤ n.toNat - 255 := by
  induction path generalizing n with
  | nil =>
    obtain rfl : n = m := by simpa [follow_nil] using h
    exact ⟨hn, Nat.zero_le _⟩
  | cons c path ih =>
    obtain hleaf | ⟨h1, h2, r, hr, htwo⟩ := ht.record hn
    · exact absurd (follow_leaf hleaf rfl h) (by simp)
    · rw [follow_cons hr htwo.leaf] at h
      have hchild : CreatedBefore t n.toNat (if c then r.right else r.left) := by
        cases c
        · exact htwo.left.created
        · exact htwo.right.created
      obtain ⟨hm, hlen⟩ := ih (hchild.mono (Nat.le_of_lt h2)) h
      have hlt := hchild.lt h1
      exact ⟨hm, by rw [List.length_cons]; omega⟩

/-- Settles O34: the two arenas agree on what both created, both make the same number of merges, and paths stay within what was created. -/
theorem treeBuildIsAFunctionOfTheTable : Obligations.TreeBuildIsAFunctionOfTheTable := by
  intro u v a b htab hu hv
  obtain ⟨hfa, ha⟩ := built_of_treeBuild hu
  obtain ⟨hfb, hb⟩ := built_of_treeBuild hv
  have ht : ∀ k < 256, freqAt b k = freqAt a k := fun k hk => by
    rw [freqAt_congr hfa, freqAt_congr hfb, htab k hk]
  have hn := ha.nnext_eq hb ht
  refine ⟨ha.root_eq hb ht, hn, fun path n hpath hroot => ?_⟩
  have hagree := ha.agree hb ht (Nat.le_refl _) (by rw [hn])
  exact (hagree.nodes n (ha.follow (ha.root_created hroot) hpath).1).symm

/-! ### The leaves, their number and their sum (R124 (b), (c)) -/

theorem leavesUnder_leaf {node : List (Nat × NodeRec)} {n : NodeId} {r : NodeRec} (h : nodeAt node n = .ok r) (hl : r.leaf = true)
    (depth : Nat) : leavesUnder node (depth + 1) n = [r.sym.toNat] := by
  simp [leavesUnder, (nodeAt_ok.1 h).2, hl]

theorem leavesUnder_inner {node : List (Nat × NodeRec)} {n : NodeId} {r : NodeRec} (h : nodeAt node n = .ok r) (hl : r.leaf = false)
    (depth : Nat) : leavesUnder node (depth + 1) n = leavesUnder node depth r.left ++ leavesUnder node depth r.right := by
  simp [leavesUnder, (nodeAt_ok.1 h).2, hl]

/-- Children having smaller ids, a depth greater than the node's id makes no difference. -/
theorem Built.leavesUnder_depth {t : TreeUnit} (ht : Built t) (d e : Nat) {n : NodeId} (hn : CreatedBefore t t.nnext.toNat n)
    (hd : n.toNat < d) (he : n.toNat < e) : leavesUnder t.node d n = leavesUnder t.node e n := by
  induction d generalizing e n with
  | zero => exact absurd hd (Nat.not_lt_zero _)
  | succ d ih =>
    obtain ⟨e, rfl⟩ : ∃ k, e = k + 1 := Nat.exists_eq_add_one_of_ne_zero (by omega)
    obtain hleaf | ⟨h1, h2, r, hr, htwo⟩ := ht.record hn
    · rw [leavesUnder_leaf hleaf rfl, leavesUnder_leaf hleaf rfl]
    · have hchild : ∀ c, CreatedBefore t n.toNat c → leavesUnder t.node d c = leavesUnder t.node e c := fun c hc => by
        have hlt := hc.lt h1
        exact ih e (hc.mono (Nat.le_of_lt h2)) (by omega) (by omega)
      rw [leavesUnder_inner hr htwo.leaf, leavesUnder_inner hr htwo.leaf, hchild _ htwo.left.created, hchild _ htwo.right.created]

/-- The nodes that the merge creating node p may take, as the roots of a forest over the used symbols: their leaves, their number and their
sum. -/
structure ForestAt (t : TreeUnit) (p : Nat) (roots : List NodeId) : Prop where
  nodup  : roots.Nodup
  mem    : ∀ x, x ∈ roots ↔ mergeable t p x
  leaves : (roots.flatMap (leavesUnder t.node 511)).Perm (usedSymbols t)
  count  : p + roots.length = 256 + (usedSymbols t).length
  sum    : heapSum t.node roots = freqSum t

theorem mem_usedSymbols {u : TreeUnit} {c : Nat} : c ∈ usedSymbols u ↔ c < 256 ∧ freqAt u c ≠ 0#32 := by
  simp [usedSymbols, Config.symbols, Config.nsym]

/-- The unused symbols add nothing to the table's sum. -/
theorem sum_usedSymbols (u : TreeUnit) : ((usedSymbols u).map (fun c => (freqAt u c).toNat)).sum = freqSum u := by
  unfold usedSymbols freqSum
  induction Config.symbols with
  | nil => rfl
  | cons c l ih =>
    rw [List.map_cons, List.sum_cons, ← ih]
    by_cases h : freqAt u c = 0#32
    · rw [List.filter_cons_of_neg (by simp [h]), h, BitVec.toNat_zero, Nat.zero_add]
    · rw [List.filter_cons_of_pos (by simp [h]), List.map_cons, List.sum_cons]

theorem leafRec_freq (u : TreeUnit) (c : Nat) : (leafRec u c).freq.toNat = (freqAt u c).toNat := by
  have hlt := (freqAt u c).isLt
  exact (BitVec.toNat_setWidth _ _).trans (Nat.mod_eq_of_lt (by omega))

/-- Before the first merge the forest is the used symbols' leaves. -/
theorem Built.forestAt_first {t : TreeUnit} (ht : Built t) : ForestAt t 256 ((usedSymbols t).map (BitVec.ofNat 9)) where
  nodup := (usedSymbols_nodup t).map_on fun c hc d hd h => by
    rw [← leafId_toNat (mem_usedSymbols.1 hc).1, h, leafId_toNat (mem_usedSymbols.1 hd).1]
  mem x := by
    rw [mergeable_first, List.mem_map, ← mem_usedSymbols]
    constructor
    · rintro ⟨c, hc, rfl⟩
      rwa [leafId_toNat (mem_usedSymbols.1 hc).1]
    · exact fun h => ⟨x.toNat, h, by simp⟩
  leaves := by
    have hone : ∀ c ∈ usedSymbols t, leavesUnder t.node 511 (BitVec.ofNat 9 c) = [c] := fun c hc => by
      obtain ⟨hlt, hne⟩ := mem_usedSymbols.1 hc
      rw [leavesUnder_leaf (ht.leaf c hlt hne) rfl]
      exact congrArg (fun k => [k]) (Nat.mod_eq_of_lt hlt)
    rw [List.flatMap_map, List.flatMap_congr hone, List.flatMap_singleton']
  count := by rw [List.length_map]
  sum := by
    rw [heapSum, List.map_map, ← sum_usedSymbols]
    congr 1
    refine List.map_congr_left fun c hc => ?_
    obtain ⟨hlt, hne⟩ := mem_usedSymbols.1 hc
    rw [Function.comp_apply, nodeFreq_of_ok (ht.leaf c hlt hne), leafRec_freq]

/-- A merge puts one root over two: the leaves and the sum stay. -/
theorem Built.forestAt_succ {t : TreeUnit} (ht : Built t) {p : NodeId} (h1 : 256 ≤ p.toNat) (h2 : p.toNat < t.nnext.toNat)
    {roots : List NodeId} (hf : ForestAt t p.toNat roots) : ∃ roots', ForestAt t (p.toNat + 1) roots' := by
  obtain ⟨r, hr, htwo⟩ := ht.inner p h1 h2
  have hne : r.right ≠ r.left := fun hc => less_irrefl t.node r.left (by simpa [hc] using htwo.ordered)
  have hl : r.left ∈ roots := (hf.mem _).2 htwo.left
  have hr' : r.right ∈ roots.erase r.left := (List.mem_erase_of_ne hne).2 ((hf.mem _).2 htwo.right)
  obtain ⟨rest, hperm⟩ : ∃ rest, roots.Perm (r.left :: r.right :: rest) :=
    ⟨_, (List.perm_cons_erase hl).trans ((List.perm_cons_erase hr').cons _)⟩
  have hbelow : MergedBelow t p.toNat := fun q h1 hq => ht.inner q h1 (hq.trans h2)
  have hmem := mergeable_succ h1 hr htwo hbelow hf.mem hf.nodup hperm
  have hnd := hperm.nodup_iff.1 hf.nodup
  refine ⟨p :: rest, ⟨List.nodup_cons.2 ⟨fun hc => ?_, hnd.of_cons.of_cons⟩, hmem, ?_, ?_, ?_⟩⟩
  · exact ((hf.mem p).1 (hperm.mem_iff.2 (by simp [hc]))).created.ne h1 rfl
  · have hltl := htwo.left.created.lt h1
    have hltr := htwo.right.created.lt h1
    have hp := p.isLt
    refine List.Perm.trans ?_ ((hperm.symm.flatMap_right _).trans hf.leaves)
    rw [List.flatMap_cons, List.flatMap_cons, List.flatMap_cons, leavesUnder_inner hr htwo.leaf,
      ht.leavesUnder_depth 510 511 (htwo.left.created.mono (Nat.le_of_lt h2)) (by omega) (by omega),
      ht.leavesUnder_depth 510 511 (htwo.right.created.mono (Nat.le_of_lt h2)) (by omega) (by omega), List.append_assoc]
  · have hlen := hperm.length_eq
    have hcount := hf.count
    simp only [List.length_cons] at hlen ⊢
    omega
  · rw [← hf.sum, heapSum_perm hperm]
    simp only [heapSum, List.map_cons, List.sum_cons, nodeFreq_of_ok hr, htwo.freq, Nat.add_assoc]

theorem Built.forestAt {t : TreeUnit} (ht : Built t) (k : Nat) (hk : 256 + k ≤ t.nnext.toNat) :
    ∃ roots, ForestAt t (256 + k) roots := by
  induction k with
  | zero => exact ⟨_, ht.forestAt_first⟩
  | succ k ih =>
    obtain ⟨roots, hf⟩ := ih (by omega)
    have hp : (BitVec.ofNat 9 (256 + k)).toNat = 256 + k := Nat.mod_eq_of_lt (by have := t.nnext.isLt; omega)
    rw [← hp] at hf
    have hsucc := ht.forestAt_succ (by omega) (by omega) hf
    rwa [hp] at hsucc

/-- With a used symbol the last forest is one tree. -/
theorem Built.tree {t : TreeUnit} (ht : Built t) (h : usedSymbols t ≠ []) :
    t.root ≠ Config.noneId ∧ ForestAt t t.nnext.toNat [t.root] := by
  obtain ⟨roots, hf⟩ := ht.forestAt (t.nnext.toNat - 256) (by have := ht.first; omega)
  rw [Nat.add_sub_cancel' ht.first] at hf
  have hroot : ∀ x ∈ roots, x ≠ Config.noneId ∧ x = t.root := fun x hx => (ht.root x).1 ((hf.mem x).1 hx)
  cases roots with
  | nil => exact absurd hf.leaves.symm.eq_nil h
  | cons x rest =>
    obtain ⟨hne, rfl⟩ := hroot x List.mem_cons_self
    obtain rfl : rest = [] := List.eq_nil_iff_forall_not_mem.2 fun y hy =>
      (List.nodup_cons.1 hf.nodup).1 ((hroot y (List.mem_cons_of_mem _ hy)).2 ▸ hy)
    exact ⟨hne, hf⟩

/-! ### The statements about the tree (R122 to R125) -/

theorem usedSymbols_congr {u v : TreeUnit} (h : u.freq = v.freq) : usedSymbols u = usedSymbols v := by
  simp only [usedSymbols, freqAt_congr h]

theorem usedSymbols_eq_nil {u : TreeUnit} : usedSymbols u = [] ↔ ∀ k < 256, freqAt u k = 0#32 := by
  rw [List.eq_nil_iff_forall_not_mem]
  exact forall_congr' fun k => by rw [mem_usedSymbols, not_and, ne_eq, Decidable.not_not]

/-- On unused symbols the leaf loop does nothing (R121, R123). -/
theorem insertLeaves_unused {u : TreeUnit} (l : List Nat) (h : ∀ s ∈ l, freqAt u s = 0#32) : insertLeaves l u = .ok u := by
  induction l with
  | nil => rfl
  | cons s l ih =>
    rw [insertLeaves, insertLeaf, if_pos (h s List.mem_cons_self)]
    exact ih fun k hk => h k (List.mem_cons_of_mem _ hk)

/-- Settles O33: no leaf is inserted, so the merge loop does not run and the heap has no root to give. -/
theorem treeBuildNoSymbol : Obligations.TreeBuildNoSymbol := by
  intro u h
  have hleaves : insertLeaves Config.symbols { u with heap := [], nnext := Config.firstInternal } =
      .ok { u with heap := [], nnext := Config.firstInternal } :=
    insertLeaves_unused _ fun s hs => h s (List.mem_range.1 hs)
  rw [treeBuild, hleaves]
  rfl

/-- Settles O31: without used symbols by O33; else the last forest is the root's tree, and paths go down the ids from below `NNEXT`. -/
theorem treeBuildMakesTheTree : Obligations.TreeBuildMakesTheTree := by
  intro u
  obtain ⟨t, ht, hfreq, hheap, hb⟩ := treeBuild_built u
  refine ⟨t, ht, hfreq, hheap, fun h => ?_, fun h => ?_⟩
  · obtain rfl := Except.ok.inj ((treeBuildNoSymbol u (usedSymbols_eq_nil.1 h)).symm.trans ht)
    exact ⟨rfl, rfl⟩
  · rw [← usedSymbols_congr hfreq] at h ⊢
    rw [← freqSum_congr hfreq]
    obtain ⟨hroot, hf⟩ := hb.tree h
    have hcreated := hb.root_created hroot
    have hnext : t.nnext.toNat = 256 + ((usedSymbols t).length - 1) := by
      have hfirst := hb.first
      have hcount := hf.count
      rw [List.length_singleton] at hcount
      omega
    obtain ⟨r, hr⟩ : ∃ r, nodeAt t.node t.root = .ok r := by
      obtain hleaf | ⟨-, -, r, hr, -⟩ := hb.record hcreated
      · exact ⟨_, hleaf⟩
      · exact ⟨r, hr⟩
    refine ⟨hroot, hnext, by simpa using hf.leaves, ⟨r, hr, ?_⟩, fun path n hpath => ?_⟩
    · rw [← hf.sum, heapSum, List.map_singleton, List.sum_singleton, nodeFreq_of_ok hr]
    · have hlen := (hb.follow hcreated hpath).2
      have hlt := hcreated.lt hb.first
      omega

/-- Settles O32: by O31 no merge is made, and the symbol's leaf, which a merge could take, is then the root. -/
theorem treeBuildOneSymbol : Obligations.TreeBuildOneSymbol := by
  intro u c hc
  obtain ⟨t, ht, -, -, -, htree⟩ := treeBuildMakesTheTree u
  obtain ⟨-, hnext, -⟩ := htree (by simp [hc])
  obtain ⟨hfreq, hb⟩ := built_of_treeBuild ht
  rw [hc] at hnext
  rw [← usedSymbols_congr hfreq] at hc
  obtain ⟨hlt, hne⟩ := mem_usedSymbols.1 (hc ▸ List.mem_singleton_self c)
  have hroot : BitVec.ofNat 9 c = t.root := by
    refine ((hb.root _).1 ?_).2
    rw [hnext]
    exact mergeable_first.2 (by rw [leafId_toNat hlt]; exact ⟨hlt, hne⟩)
  refine ⟨t, ht, hroot.symm, BitVec.eq_of_toNat_eq hnext, ?_⟩
  rw [← hroot, hb.leaf c hlt hne, leafRec, freqAt_congr hfreq]

/-- Settles O35: the gate is open in COUNT, and `TREE_BUILD` never stops. -/
theorem tbuildBuildsAndGoesToTree : Obligations.TbuildBuildsAndGoesToTree := by
  intro s hp
  obtain ⟨u, hu, hfreq, -⟩ := treeBuild_total s.enc.tree
  refine ⟨u, hu, hfreq, ?_⟩
  calc exec .tbuild s
    _ = outcomeOf (tbuildRule s) := gateE_legal _ (by decide) hp
    _ = .next (s.withEnc ((s.enc.withTree u).withPhase .tree)) := by rw [tbuildRule, hu, outcomeOf_ok]

end Sys2Proof.Machine
end

section
/-! PROOFS. What `CODE_DERIVE` leaves, whatever tree part it ran on: every code is a path to a leaf, and every leaf of the tree has one
(spec/43_code_table_deriver.md R131 to R136). -/

namespace Sys2Proof.Machine

/-! ### `set_code` (R131) -/

theorem setCode_tree {e e' : Encoder} {s : Byte} {path : List Bool} (h : setCode e s path = .ok e') : e'.tree = e.tree := by
  obtain ⟨-, hframe, -, -⟩ := setCode_inv h
  rw [hframe]

/-- A code has room in `CLEN`: its length is recorded as it is. -/
theorem codeLength_toNat {path : List Bool} (h : path.length ≤ 256) : (BitVec.ofNat 9 path.length).toNat = path.length :=
  Nat.mod_eq_of_lt (by omega)

theorem clenAt_setCode_ne_zero {e e' : Encoder} {s : Byte} {path : List Bool} (h : setCode e s path = .ok e') (hp : path ≠ [])
    (k : Nat) : clenAt e' k ≠ 0#9 ↔ clenAt e k ≠ 0#9 ∨ k = s.toNat := by
  obtain ⟨hlen, -, hclen, -⟩ := setCode_inv h
  rw [hclen k]
  by_cases hk : s.toNat = k
  · have hne : BitVec.ofNat 9 path.length ≠ 0#9 := fun hc =>
      hp (List.length_eq_zero_iff.1 ((codeLength_toNat hlen).symm.trans (congrArg BitVec.toNat hc)))
    simp [hk, hne]
  · simp [hk, Ne.symm hk]

/-- A code just recorded reads as recorded, whatever the row held; the others read as before. -/
theorem codeOf_setCode {e e' : Encoder} {s : Byte} {path : List Bool} (h : setCode e s path = .ok e') (k : Nat) :
    codeOf e' k = if s.toNat = k then .ok path else codeOf e k := by
  obtain ⟨hlen, -, hclen, hcbits⟩ := setCode_inv h
  rw [codeOf, hclen k, hcbits k]
  by_cases hk : s.toNat = k
  · rw [if_pos hk, if_pos hk, if_pos hk, codeLength_toNat hlen, List.take_left, if_pos (by simp)]
  · rw [if_neg hk, if_neg hk, if_neg hk, codeOf]

theorem length_of_codeOf {e : Encoder} {k : Nat} {bits : List Bool} (h : codeOf e k = .ok bits) : bits.length = (clenAt e k).toNat := by
  unfold codeOf at h
  split at h
  · rename_i hle
    rw [← Except.ok.inj h, List.length_take, Nat.min_eq_left hle]
  · cases h

/-! ### What a finished walk did (R131) -/

theorem walk_inv {room : Nat} {e e' : Encoder} {n : NodeId} {path : List Bool} (h : walk (room + 1) e n path = .ok e') :
    ∃ r, nodeAt e.tree.node n = .ok r ∧
      (r.leaf = true ∧ setCode e r.sym path = .ok e' ∨
        r.leaf = false ∧ ∃ v, walk room e r.left (path ++ [false]) = .ok v ∧ walk room v r.right (path ++ [true]) = .ok e') := by
  unfold walk at h
  cases hr : nodeAt e.tree.node n with
  | error f => simp [hr] at h
  | ok r =>
    simp only [hr] at h
    refine ⟨r, rfl, ?_⟩
    cases hl : r.leaf with
    | true => exact .inl ⟨rfl, by simpa [hl] using h⟩
    | false =>
      simp only [hl, Bool.false_eq_true, if_false] at h
      cases hv : walk room e r.left (path ++ [false]) with
      | error f => simp [hv] at h
      | ok v => exact .inr ⟨rfl, v, rfl, by simpa [hv] using h⟩

/-- A finished walk kept the tree, and any property that recording the path to a leaf keeps. -/
theorem walk_keeps (P : Encoder → Prop) {u : TreeUnit} (room : Nat) {e e' : Encoder} {n : NodeId} {path : List Bool}
    (h : walk room e n path = .ok e') (he : e.tree = u) (hP : P e)
    (hset : ∀ v v' q m r, P v → follow u.node n q = some m → nodeAt u.node m = .ok r → r.leaf = true →
      setCode v r.sym (path ++ q) = .ok v' → P v') : e'.tree = u ∧ P e' := by
  induction room generalizing e e' n path with
  | zero => cases h
  | succ room ih =>
    obtain ⟨r, hr, ⟨hl, hs⟩ | ⟨hl, v, hleft, hright⟩⟩ := walk_inv h
    · rw [he] at hr
      exact ⟨(setCode_tree hs).trans he, hset e e' [] n r hP (follow_nil _ _) hr hl (by rwa [List.append_nil])⟩
    · rw [he] at hr
      obtain ⟨hv, hPv⟩ := ih hleft he hP fun w w' q m r' hw hq hm hml hs =>
        hset w w' (false :: q) m r' hw ((follow_cons hr hl _ _).trans hq) hm hml (by simpa using hs)
      exact ih hright hv hPv fun w w' q m r' hw hq hm hml hs =>
        hset w w' (true :: q) m r' hw ((follow_cons hr hl _ _).trans hq) hm hml (by simpa using hs)

theorem walk_tree {room : Nat} {e e' : Encoder} {n : NodeId} {path : List Bool} (h : walk room e n path = .ok e') : e'.tree = e.tree :=
  (walk_keeps (fun _ => True) room h rfl trivial fun _ _ _ _ _ _ _ _ _ _ => trivial).1

/-- A finished walk gave codes to the leaves under its node, and took none away. The path is empty at the root of the tree only, which is
then no leaf (R132). -/
theorem walk_coded (room : Nat) {depth : Nat} {e e' : Encoder} {n : NodeId} {path : List Bool} (h : walk room e n path = .ok e')
    (hpath : path = [] → ∀ r, nodeAt e.tree.node n = .ok r → r.leaf = false) (hd : room ≤ depth) (k : Nat) :
    clenAt e' k ≠ 0#9 ↔ clenAt e k ≠ 0#9 ∨ k ∈ leavesUnder e.tree.node depth n := by
  induction room generalizing depth e e' n path with
  | zero => cases h
  | succ room ih =>
    obtain ⟨depth, rfl⟩ : ∃ d, depth = d + 1 := Nat.exists_eq_add_one_of_ne_zero (by omega)
    obtain ⟨r, hr, ⟨hl, hs⟩ | ⟨hl, v, hleft, hright⟩⟩ := walk_inv h
    · have hne : path ≠ [] := fun hc => by simp [hpath hc r hr] at hl
      rw [clenAt_setCode_ne_zero hs hne, leavesUnder_leaf hr hl, List.mem_singleton]
    · have hd' : room ≤ depth := Nat.le_of_succ_le_succ hd
      rw [ih hright (by simp) hd', ih hleft (by simp) hd', walk_tree hleft, leavesUnder_inner hr hl, List.mem_append, or_assoc]

/-! ### What `CODE_DERIVE` did (R131) -/

theorem codeDerive_inv {e e' : Encoder} (h : codeDerive e = .ok e') :
    e.tree.root = Config.noneId ∧ e' = { e with clen := [] } ∨
      ∃ root, nodeAt e.tree.node e.tree.root = .ok root ∧
        (root.leaf = true ∧ setCode { e with clen := [] } root.sym [false] = .ok e' ∨
          root.leaf = false ∧ walk 257 { e with clen := [] } e.tree.root [] = .ok e') := by
  unfold codeDerive at h
  split at h
  · rename_i hroot
    exact .inl ⟨hroot, (Except.ok.inj h).symm⟩
  · cases hr : nodeAt e.tree.node e.tree.root with
    | error f => simp [hr] at h
    | ok root =>
      refine .inr ⟨root, rfl, ?_⟩
      cases hl : root.leaf with
      | true => exact .inl ⟨rfl, by simpa [hr, hl, Config.singleCode] using h⟩
      | false => exact .inr ⟨rfl, by simpa [hr, hl, Config.pathCap] using h⟩

/-- A finished `CODE_DERIVE` kept any property that holds of the emptied table and that recording a code keeps. -/
theorem codeDerive_keeps (P : Encoder → Prop) {e e' : Encoder} (h : codeDerive e = .ok e') (hP : P { e with clen := [] })
    (hset : ∀ v v' s path, P v → IsCode e.tree s path → setCode v s path = .ok v' → P v') : P e' := by
  obtain ⟨-, rfl⟩ | ⟨root, hr, ⟨hl, hs⟩ | ⟨hl, hw⟩⟩ := codeDerive_inv h
  · exact hP
  · exact hset _ _ _ _ hP ⟨root, hr, .inl ⟨hl, rfl, rfl⟩⟩ hs
  · exact (walk_keeps P 257 hw rfl hP fun v v' q m r hv hq hm hml hs =>
      hset v v' r.sym q hv ⟨root, hr, .inr ⟨hl, m, r, hq, hm, hml, rfl⟩⟩ hs).2

/-- The codes of a table are codes of the tree. -/
def CodesArePaths (u : TreeUnit) (e : Encoder) : Prop :=
  ∀ c : Byte, clenAt e c.toNat ≠ 0#9 → ∃ path, IsCode u c path ∧ codeOf e c.toNat = .ok path

theorem CodesArePaths.setCode {u : TreeUnit} {e e' : Encoder} {s : Byte} {path : List Bool} (h : CodesArePaths u e)
    (hs : setCode e s path = .ok e') (hp : IsCode u s path) : CodesArePaths u e' := by
  intro c hc
  by_cases hsc : s = c
  · subst hsc
    exact ⟨path, hp, by rw [codeOf_setCode hs, if_pos rfl]⟩
  · have hne : s.toNat ≠ c.toNat := fun hk => hsc (BitVec.eq_of_toNat_eq hk)
    rw [(setCode_inv hs).2.2.1, if_neg hne] at hc
    rw [codeOf_setCode hs, if_neg hne]
    exact h c hc

theorem codeDerive_codesArePaths {e e' : Encoder} (h : codeDerive e = .ok e') : CodesArePaths e.tree e' :=
  codeDerive_keeps (CodesArePaths e.tree) h (fun _ hc => absurd rfl hc) fun _ _ _ _ hv hp hs => hv.setCode hs hp

/-- The symbols with a code are those of the leaves under the root. -/
theorem codeDerive_coded {e e' : Encoder} (h : codeDerive e = .ok e') {depth : Nat} (hd : 257 ≤ depth) (k : Nat) :
    clenAt e' k ≠ 0#9 ↔ e.tree.root ≠ Config.noneId ∧ k ∈ leavesUnder e.tree.node depth e.tree.root := by
  obtain ⟨hroot, rfl⟩ | ⟨root, hr, hcase⟩ := codeDerive_inv h
  · simp [hroot, clenAt]
  · rw [and_iff_right (nodeAt_ok.1 hr).1]
    have hnone : ¬ clenAt { e with clen := [] } k ≠ 0#9 := fun hc => hc rfl
    obtain ⟨hl, hs⟩ | ⟨hl, hw⟩ := hcase
    · obtain ⟨depth, rfl⟩ : ∃ d, depth = d + 1 := Nat.exists_eq_add_one_of_ne_zero (by omega)
      rw [clenAt_setCode_ne_zero hs (by simp), or_iff_right hnone, leavesUnder_leaf hr hl, List.mem_singleton]
    · rw [walk_coded 257 hw (fun _ r hr' => Except.ok.inj (hr.symm.trans hr') ▸ hl) hd, or_iff_right hnone]

/-! ### Paths to leaves (R130, R134) -/

/-- No code is empty (R132). -/
theorem IsCode.ne_nil {u : TreeUnit} {c : Byte} {path : List Bool} (h : IsCode u c path) : path ≠ [] := by
  obtain ⟨root, hr, ⟨-, -, rfl⟩ | ⟨hl, m, r, hm, hmr, hml, -⟩⟩ := h
  · simp
  · rintro rfl
    obtain rfl : u.root = m := by simpa [follow_nil] using hm
    rw [← Except.ok.inj (hr.symm.trans hmr), hl] at hml
    cases hml

/-- At a leaf no path goes on, so a code that begins another one is the same path to the same leaf. -/
theorem IsCode.eq_of_isPrefix {u : TreeUnit} {a b : Byte} {x y : List Bool} (hx : IsCode u a x) (hy : IsCode u b y) (h : x <+: y) :
    a = b := by
  obtain ⟨q, rfl⟩ := h
  obtain ⟨root, hr, hx⟩ := hx
  obtain ⟨root', hr', hy⟩ := hy
  obtain rfl := Except.ok.inj (hr.symm.trans hr')
  obtain ⟨hl, rfl, -⟩ | ⟨hl, m, r, hm, hmr, hml, rfl⟩ := hx
  · obtain ⟨-, rfl, -⟩ | ⟨hl', -⟩ := hy
    · rfl
    · simp [hl] at hl'
  · obtain ⟨hl', -⟩ | ⟨-, n, r', hn, hnr, -, rfl⟩ := hy
    · simp [hl] at hl'
    · rw [follow_append hm] at hn
      obtain rfl := follow_leaf hmr hml hn
      obtain rfl : m = n := by simpa [follow_nil] using hn
      rw [Except.ok.inj (hmr.symm.trans hnr)]

/-- A code is one bit long, or as long as a path of the tree. -/
theorem IsCode.length_le {u : TreeUnit} {c : Byte} {path : List Bool} (h : IsCode u c path) {bound : Nat}
    (hb : ∀ q m, follow u.node u.root q = some m → q.length ≤ bound) : path.length ≤ max 1 bound := by
  obtain ⟨root, -, ⟨-, -, rfl⟩ | ⟨-, m, r, hm, -⟩⟩ := h
  · exact Nat.le_max_left _ _
  · exact (hb path m hm).trans (Nat.le_max_right _ _)

/-! ### The statements about the code table (R133 to R136) -/

/-- Settles O40: without a root only the lengths are cleared. -/
theorem noTreeGivesNoCodes : Obligations.NoTreeGivesNoCodes := fun _ h => ⟨_, if_pos h, fun _ => rfl, rfl⟩

/-- Settles O36: the gate is open in TREE, and on a sound tree part `CODE_DERIVE` completes, writing the code table only. -/
theorem cderiveDerivesAndGoesToCodes : Obligations.CderiveDerivesAndGoesToCodes := by
  intro s hp ht
  obtain ⟨e, he, -, hframe⟩ := codeDerive_ok (fun _ => True) ht trivial fun _ _ _ _ _ _ _ _ => trivial
  refine ⟨e, he, ?_⟩
  calc exec .cderive s
    _ = outcomeOf (cderiveRule s) := gateE_legal _ (by decide) hp
    _ = .next (s.withEnc (e.withPhase .codes)) := by rw [cderiveRule, he, outcomeOf_ok]
    _ = .next { s with enc := { s.enc with clen := e.clen, cbits := e.cbits, phase := .codes } } := by rw [hframe]; rfl

/-- Settles O37: what is recorded for a symbol is a code of the tree. -/
theorem codeIsThePathToTheLeaf : Obligations.CodeIsThePathToTheLeaf := by
  intro e e' _ h c hc
  obtain ⟨path, ⟨root, hr, hcase⟩, hcode⟩ := codeDerive_codesArePaths h c hc
  refine ⟨path, root, hcode, length_of_codeOf hcode, hr, fun hl => ?_, fun hl => ?_⟩
  · obtain ⟨-, rfl, rfl⟩ | ⟨hl', -⟩ := hcase
    · exact ⟨rfl, rfl⟩
    · simp [hl] at hl'
  · obtain ⟨hl', -⟩ | ⟨-, m, r, hm, hmr, hml, rfl⟩ := hcase
    · simp [hl] at hl'
    · exact ⟨m, r, hm, hmr, hml, rfl⟩

/-- Settles O38: both codes are paths to leaves of the one tree. -/
theorem codesArePrefixFree : Obligations.CodesArePrefixFree := by
  intro e e' _ h a b x y hab ha hb hx hy hxy
  obtain ⟨x', hxcode, hx'⟩ := codeDerive_codesArePaths h a ha
  obtain ⟨y', hycode, hy'⟩ := codeDerive_codesArePaths h b hb
  obtain rfl := Except.ok.inj (hx.symm.trans hx')
  obtain rfl := Except.ok.inj (hy.symm.trans hy')
  exact hab (hxcode.eq_of_isPrefix hycode hxy)

/-- The leaves under the root of a built tree are the used symbols (O31), and so are the symbols with a code. -/
theorem clenAt_ne_zero_iff_used {e e' : Encoder} {u : TreeUnit} (hu : treeBuild e.tree = .ok u)
    (h : codeDerive { e with tree := u } = .ok e') (c : Byte) : clenAt e' c.toNat ≠ 0#9 ↔ freqAt e.tree c.toNat ≠ 0#32 := by
  obtain ⟨t, ht, -, -, hnone, hsome⟩ := treeBuildMakesTheTree e.tree
  obtain rfl := Except.ok.inj (ht.symm.trans hu)
  rw [codeDerive_coded h (depth := 511) (by decide)]
  by_cases hused : usedSymbols e.tree = []
  · have hzero := usedSymbols_eq_nil.1 hused c.toNat c.isLt
    simp [(hnone hused).1, hzero]
  · obtain ⟨hroot, -, hleaves, -⟩ := hsome hused
    rw [and_iff_right hroot, hleaves.mem_iff, mem_usedSymbols, and_iff_right c.isLt]

/-- With d used symbols a derived code has at least 1 bit and at most d − 1, but 1 with one symbol (R135). -/
theorem clenAt_bounds {e e' : Encoder} {u : TreeUnit} (hu : treeBuild e.tree = .ok u) (h : codeDerive { e with tree := u } = .ok e')
    {c : Byte} (hc : clenAt e' c.toNat ≠ 0#9) :
    1 ≤ (clenAt e' c.toNat).toNat ∧ (clenAt e' c.toNat).toNat ≤ max 1 ((usedSymbols e.tree).length - 1) := by
  obtain ⟨t, ht, -, -, hnone, hsome⟩ := treeBuildMakesTheTree e.tree
  obtain rfl := Except.ok.inj (ht.symm.trans hu)
  obtain ⟨hroot, -⟩ := (codeDerive_coded h (depth := 511) (by decide) c.toNat).1 hc
  obtain ⟨-, -, -, -, hdepth⟩ := hsome fun hn => hroot (hnone hn).1
  obtain ⟨path, hp, hcode⟩ := codeDerive_codesArePaths h c hc
  rw [← length_of_codeOf hcode]
  exact ⟨List.length_pos_iff.2 hp.ne_nil, hp.length_le hdepth⟩

/-- Settles O39: the used symbols have the codes, and the bounds on a code's length leave 1 bit where d is 1. -/
theorem codesForExactlyTheUsedSymbols : Obligations.CodesForExactlyTheUsedSymbols := by
  intro e e' u hu h c
  have hiff := clenAt_ne_zero_iff_used hu h c
  refine ⟨hiff, fun hone hc => ?_, fun htwo => ?_⟩
  · obtain ⟨hlo, hhi⟩ := clenAt_bounds hu h (hiff.2 hc)
    exact BitVec.eq_of_toNat_eq (show (clenAt e' c.toNat).toNat = 1 by omega)
  · by_cases hc : clenAt e' c.toNat = 0#9
    · rw [hc]
      exact Nat.zero_le _
    · obtain ⟨-, hhi⟩ := clenAt_bounds hu h hc
      omega

end Sys2Proof.Machine
end

section
/-! PROOFS. A code decodes to its symbol, and so a message to itself (spec/47_container_decode.md R176, R180). -/

namespace Sys2Proof.Machine

/-! ### One bit (R176) -/

theorem nextNode_leafRoot {d : Decoder} {root : NodeRec} (hr : nodeAt d.tree.node d.tree.root = .ok root) (hl : root.leaf = true)
    (b : Bool) : nextNode d b = .ok d.tree.root := by
  simp [nextNode, isLeaf, hr, hl]

theorem nextNode_innerRoot {d : Decoder} {root r : NodeRec} (hr : nodeAt d.tree.node d.tree.root = .ok root) (hl : root.leaf = false)
    (hc : nodeAt d.tree.node d.cur = .ok r) (b : Bool) : nextNode d b = .ok (if b then r.right else r.left) := by
  simp [nextNode, isLeaf, hr, hl, hc]

theorem dstep_toLeaf {s : State} {b : Bool} {n : NodeId} {r : NodeRec} (hn : nextNode s.dec b = .ok n)
    (hr : nodeAt s.dec.tree.node n = .ok r) (hl : r.leaf = true) (hc : s.dec.dcnt ≠ Config.countMax) :
    dstep b s = .ok (finishSymbol r.sym s) := by
  simp [dstep, hn, hr, hl, hc]

theorem dstep_toInner {s : State} {b : Bool} {n : NodeId} {r : NodeRec} (hn : nextNode s.dec b = .ok n)
    (hr : nodeAt s.dec.tree.node n = .ok r) (hl : r.leaf = false) : dstep b s = .ok (s.withDec { s.dec with cur := n }) := by
  simp [dstep, hn, hr, hl]

/-! ### One code -/

theorem dstepAll_cons {s t : State} {b : Bool} (h : dstep b s = .ok t) (bits : List Bool) : dstepAll (b :: bits) s = dstepAll bits t := by
  rw [dstepAll, h]

theorem dstepAll_append {p : List Bool} {s t : State} (h : dstepAll p s = .ok t) (q : List Bool) :
    dstepAll (p ++ q) s = dstepAll q t := by
  induction p generalizing s with
  | nil => rw [Except.ok.inj h, List.nil_append]
  | cons b p ih =>
    cases hb : dstep b s with
    | error f => simp [dstepAll, hb] at h
    | ok v =>
      rw [dstepAll_cons hb] at h
      rw [List.cons_append, dstepAll_cons hb, ih h]

/-- From a cursor on an internal node, the bits of a path to a leaf finish the leaf's symbol. -/
theorem dstepAll_path {s : State} {root cur r : NodeRec} {m : NodeId} {path : List Bool} (ha : arenaOk s.dec.tree)
    (hroot : nodeAt s.dec.tree.node s.dec.tree.root = .ok root) (hrl : root.leaf = false) (hmax : s.dec.dcnt ≠ Config.countMax)
    (hcur : nodeAt s.dec.tree.node s.dec.cur = .ok cur) (hcl : cur.leaf = false)
    (hpath : follow s.dec.tree.node s.dec.cur path = some m) (hm : nodeAt s.dec.tree.node m = .ok r) (hml : r.leaf = true) :
    dstepAll path s = .ok (finishSymbol r.sym s) := by
  induction path generalizing s cur with
  | nil =>
    obtain rfl : s.dec.cur = m := by simpa [follow_nil] using hpath
    rw [← Except.ok.inj (hcur.symm.trans hm), hcl] at hml
    cases hml
  | cons b path ih =>
    rw [follow_cons hcur hcl] at hpath
    have hnext := nextNode_innerRoot hroot hrl hcur b
    obtain ⟨c, hc⟩ : ∃ c, nodeAt s.dec.tree.node (if b then cur.right else cur.left) = .ok c := by
      obtain ⟨-, -, ⟨-, hleft⟩, -, hright⟩ := children_ok ha hcur hcl
      cases b
      · exact hleft
      · exact hright
    cases hl : c.leaf with
    | true =>
      obtain rfl := follow_leaf hc hl hpath
      rw [← Option.some.inj ((follow_nil _ _).symm.trans hpath)] at hm
      obtain rfl := Except.ok.inj (hc.symm.trans hm)
      exact dstepAll_cons (dstep_toLeaf hnext hc hl hmax) []
    | false =>
      rw [dstepAll_cons (dstep_toInner hnext hc hl)]
      exact ih ha hroot hmax hc hl hpath hm

/-- From the root, the bits of a symbol's code finish the symbol. -/
theorem dstepAll_code {s : State} {c : Byte} {path : List Bool} (ha : arenaOk s.dec.tree) (hcur : s.dec.cur = s.dec.tree.root)
    (hmax : s.dec.dcnt ≠ Config.countMax) (h : IsCode s.dec.tree c path) : dstepAll path s = .ok (finishSymbol c s) := by
  obtain ⟨root, hr, ⟨hl, rfl, rfl⟩ | ⟨hl, m, r, hm, hmr, hml, rfl⟩⟩ := h
  · exact dstepAll_cons (dstep_toLeaf (nextNode_leafRoot hr hl false) hr hl hmax) []
  · rw [← hcur] at hm
    exact dstepAll_path ha hr hl hmax (hcur ▸ hr) hl hm hmr hml

/-! ### A message (R180) -/

theorem codesOf_cons {e : Encoder} {c : Byte} {msg : List Byte} {bits path : List Bool} (h : codesOf e (c :: msg) = .ok bits)
    (hc : codeOf e c.toNat = .ok path) : ∃ rest, codesOf e msg = .ok rest ∧ bits = path ++ rest := by
  rw [codesOf, hc] at h
  cases hr : codesOf e msg with
  | error f => simp [hr] at h
  | ok rest => exact ⟨rest, rfl, by simpa [hr] using h.symm⟩

theorem ne_countMax_of_lt {v w : Word32} (h : v.toNat < w.toNat) : v ≠ Config.countMax := by
  rintro rfl
  exact absurd h (Nat.not_lt.2 (Nat.le_sub_one_of_lt w.isLt))

/-- Between two symbols: the cursor is on the root, and the state is `Done` exactly when the total is reached. -/
structure BetweenSymbols (d : Decoder) : Prop where
  cur   : d.cur = d.tree.root
  state : d.state = if d.dcnt = d.total then .done else .decoding

theorem BetweenSymbols.finishSymbol {s : State} (h : BetweenSymbols s.dec) (hne : s.dec.dcnt ≠ s.dec.total) (c : Byte) :
    BetweenSymbols (finishSymbol c s).dec where
  cur := rfl
  state := by
    have hst := h.state
    rw [if_neg hne] at hst
    simp [Machine.finishSymbol, hst]

/-- The codes of a message decode to the message, symbol by symbol. -/
theorem dstepAll_codesOf {u : TreeUnit} {e : Encoder} (hu : arenaOk u) (hcodes : CodesArePaths u e) (msg : List Byte) {bits : List Bool}
    {s : State} (hs : BetweenSymbols s.dec) (htree : s.dec.tree = u) (hmsg : ∀ c ∈ msg, clenAt e c.toNat ≠ 0#9)
    (hbits : codesOf e msg = .ok bits) (hroom : s.dec.dcnt.toNat + msg.length ≤ s.dec.total.toNat) :
    ∃ t, dstepAll bits s = .ok t ∧ t.dout = s.dout ++ msg ∧ BetweenSymbols t.dec ∧
      t.dec.dcnt.toNat = s.dec.dcnt.toNat + msg.length := by
  induction msg generalizing bits s with
  | nil =>
    obtain rfl := Except.ok.inj hbits
    exact ⟨s, rfl, (List.append_nil _).symm, hs, rfl⟩
  | cons c msg ih =>
    subst htree
    rw [List.length_cons] at hroom
    obtain ⟨path, hpath, hc⟩ := hcodes c (hmsg c List.mem_cons_self)
    obtain ⟨rest, hrest, rfl⟩ := codesOf_cons hbits hc
    have hne : s.dec.dcnt ≠ s.dec.total := fun h => by rw [h] at hroom; omega
    have hmax : s.dec.dcnt ≠ Config.countMax := ne_countMax_of_lt (w := s.dec.total) (by omega)
    have hcount : (finishSymbol c s).dec.dcnt.toNat = s.dec.dcnt.toNat + 1 := toNat_succ_of_ne_max hmax
    have htotal : (finishSymbol c s).dec.total = s.dec.total := rfl
    obtain ⟨t, ht, hout, hbetween, hdcnt⟩ := ih (hs.finishSymbol hne c) rfl (fun k hk => hmsg k (List.mem_cons_of_mem _ hk)) hrest
      (by rw [hcount, htotal]; omega)
    refine ⟨t, ?_, ?_, hbetween, ?_⟩
    · rw [dstepAll_append (dstepAll_code hu hs.cur hmax hpath), ht]
    · rw [hout, finishSymbol, emitD_dout, State_withDec_dout, List.append_assoc, List.singleton_append]
    · rw [hdcnt, hcount, List.length_cons]
      omega

/-- Settles O56: the derived codes are paths of the decoder's tree. -/
theorem messageDecodesBack : Obligations.MessageDecodesBack := by
  intro e e' s msg bits h htree hs hst hcur hmsg hbits hroom
  obtain ⟨hlt, -⟩ := hs.decoding hst
  have hne : s.dec.dcnt ≠ s.dec.total := fun hc => by rw [hc] at hlt; omega
  obtain ⟨-, -, -, ha, -⟩ := hs.tree
  obtain ⟨t, ht, hout, hbetween, hdcnt⟩ := dstepAll_codesOf ha (htree ▸ codeDerive_codesArePaths h) msg
    ⟨hcur, by rw [if_neg hne, hst]⟩ rfl hmsg hbits hroom
  exact ⟨t, ht, hout, hbetween.cur, hdcnt, hbetween.state⟩

end Sys2Proof.Machine
end

section
/-! PROOFS. What the bit writer puts where (spec/44_bit_writer.md R141 to R146). The accumulator holds each pending bit at the position
it will have in the emitted byte and 0 below, so the bytes emitted and the accumulator together hold, after every write, exactly the bits
written (`Written`). -/

namespace Sys2Proof.Machine

/-! ### One write (R141) -/

theorem getLsbD_placeBit (acc : Byte) (cnt : BitVec 3) (b : Bool) {k : Nat} (hk : k < 8) :
    (placeBit acc cnt b).getLsbD k = (acc.getLsbD k || (decide (k = 7 - cnt.toNat) && b)) := by
  have hbit : ((BitVec.ofBool b).setWidth 8 <<< (7 - cnt.toNat)).getLsbD k = (decide (k = 7 - cnt.toNat) && b) := by
    obtain hlt | rfl | hgt := Nat.lt_trichotomy k (7 - cnt.toNat)
    · simp [hlt, hlt.ne]
    · simp [hk]
    · have hpos : k - (7 - cnt.toNat) ≠ 0 := by omega
      simp [hk, hgt.ne', hpos]
  rw [placeBit, BitVec.getLsbD_or, hbit]

theorem wbWrite_eighth {s : State} (h : s.enc.wbCnt = 7#3) (b : Bool) :
    wbWrite b s = emitE [placeBit s.enc.wbAcc s.enc.wbCnt b] (s.withEnc (s.enc.withWriter 0#8 0#3)) := if_pos h

theorem wbWrite_pending {s : State} (h : s.enc.wbCnt ≠ 7#3) (b : Bool) :
    wbWrite b s = s.withEnc (s.enc.withWriter (placeBit s.enc.wbAcc s.enc.wbCnt b) (s.enc.wbCnt + 1#3)) := if_neg h

/-! ### `WBIT` (R145) -/

theorem exec_wbit_illegal {b : Byte} (hb : 1 < b.toNat) (s : State) : exec (.wbit b) s = .next (illegal s) :=
  if_neg (Nat.not_le.2 hb)

theorem exec_wbit_body {b : Byte} {s : State} (hb : b.toNat ≤ 1) (hp : s.enc.phase = .body) :
    exec (.wbit b) s = .next (wbWrite (bitOperand b) s) :=
  calc exec (.wbit b) s
    _ = gateE .body s (wbitRule (bitOperand b)) := if_pos hb
    _ = .next (wbWrite (bitOperand b) s) := gateE_legal _ (by decide) hp

/-- Settles O41: in BODY the command is one write, whose accumulator is the old one with the operand's bit placed. -/
theorem wbitWritesOneBit : Obligations.WbitWritesOneBit := by
  intro b s
  refine ⟨fun hb => exec_wbit_illegal hb s, fun hb hp => ?_⟩
  refine ⟨placeBit s.enc.wbAcc s.enc.wbCnt (bitOperand b), fun k hk => getLsbD_placeBit _ _ _ hk, fun h7 => ?_, fun h7 => ?_⟩
  · rw [exec_wbit_body hb hp, wbWrite_eighth h7]
    rfl
  · rw [exec_wbit_body hb hp, wbWrite_pending h7]
    rfl

/-! ### `FLUSH` (R146) -/

/-- Settles O42: in BODY the command is `WB_FLUSH`, then the phase. -/
theorem flushEmitsThePartialByte : Obligations.FlushEmitsThePartialByte := by
  intro s hp
  calc exec .flush s
    _ = outcomeOf (flushRule s) := gateE_legal flushRule (by decide) hp
    _ = .next ((wbFlush s).withEnc ((wbFlush s).enc.withPhase .done)) := rfl
    _ = _ := by rw [wbFlush_eq]; rfl

/-! ### Bits in bytes (R143) -/

/-- The bytes hold the bits most significant first: byte q has bit 8q + r at position 7 − r, and 0 where there is no such bit. -/
def PackedAs (bytes : List Byte) (bits : List Bool) : Prop :=
  ∀ q r, r < 8 → (bytes.getD q 0#8).getLsbD (7 - r) = bits.getD (8 * q + r) false

theorem getD_concat {α : Type} (xs : List α) (x d : α) (i : Nat) :
    (xs ++ [x]).getD i d = if i = xs.length then x else xs.getD i d := by
  obtain hlt | rfl | hgt := Nat.lt_trichotomy i xs.length
  · rw [List.getD_append _ _ _ _ hlt, if_neg hlt.ne]
  · simp
  · rw [List.getD_append_right _ _ _ _ hgt.le, if_neg hgt.ne', List.getD_eq_default xs d hgt.le]
    exact List.getD_eq_default _ _ (by simp; omega)

theorem PackedAs.concat_zero {bytes : List Byte} {bits : List Bool} (h : PackedAs bytes bits) : PackedAs (bytes ++ [0#8]) bits := by
  intro q r hr
  rw [getD_concat, ← h q r hr]
  split
  · next hq => rw [List.getD_eq_default _ _ hq.ge]
  · rfl

/-- A last byte past the last bit is not needed. -/
theorem PackedAs.of_concat {bytes : List Byte} {x : Byte} {bits : List Bool} (h : PackedAs (bytes ++ [x]) bits)
    (hlen : bits.length ≤ 8 * bytes.length) : PackedAs bytes bits := by
  intro q r hr
  obtain hlt | hge := Nat.lt_or_ge q bytes.length
  · rw [← h q r hr, getD_concat, if_neg hlt.ne]
  · have hbit : bits.getD (8 * q + r) false = false := List.getD_eq_default _ _ (by omega)
    rw [hbit, List.getD_eq_default _ _ hge, BitVec.getLsbD_zero]

theorem packedAs_nil : PackedAs [] [] := by
  intro q r _
  rw [List.getD_nil, List.getD_nil, BitVec.getLsbD_zero]

/-- A bit placed below the bits of the last byte is the next bit held. -/
theorem PackedAs.placeBit {bytes : List Byte} {acc : Byte} {bits : List Bool} {cnt : BitVec 3} (h : PackedAs (bytes ++ [acc]) bits)
    (hlen : bits.length = 8 * bytes.length + cnt.toNat) (b : Bool) : PackedAs (bytes ++ [placeBit acc cnt b]) (bits ++ [b]) := by
  intro q r hr
  have hold := h q r hr
  have hcnt := cnt.isLt
  rw [getD_concat] at hold ⊢
  rw [getD_concat, hlen]
  by_cases hq : q = bytes.length
  · rw [if_pos hq] at hold ⊢
    rw [getLsbD_placeBit _ _ _ (by omega), hold]
    by_cases hc : r = cnt.toNat
    · have hnone : bits.getD (8 * q + r) false = false := List.getD_eq_default _ _ (by omega)
      rw [hnone, if_pos (by omega), decide_eq_true (by omega), Bool.false_or, Bool.true_and]
    · rw [if_neg (by omega), decide_eq_false (by omega), Bool.false_and, Bool.or_false]
  · rw [if_neg hq] at hold ⊢
    rw [hold, if_neg (by omega)]

/-! ### The writer's invariant (R143) -/

/-- The bytes emitted after `before`, and the accumulator below them, hold exactly the bits. -/
structure Written (before out : List Byte) (bits : List Bool) (s : State) : Prop where
  eout   : s.eout = before ++ out
  count  : bits.length = 8 * out.length + s.enc.wbCnt.toNat
  packed : PackedAs (out ++ [s.enc.wbAcc]) bits

theorem Written.wbWrite {before out : List Byte} {bits : List Bool} {s : State} (h : Written before out bits s) (b : Bool) :
    ∃ out', Written before out' (bits ++ [b]) (wbWrite b s) := by
  have hplaced := h.packed.placeBit h.count b
  obtain ⟨out', heout, hpacked⟩ : ∃ out', (Machine.wbWrite b s).eout = before ++ out' ∧
      PackedAs (out' ++ [(Machine.wbWrite b s).enc.wbAcc]) (bits ++ [b]) := by
    by_cases h7 : s.enc.wbCnt = 7#3
    · rw [wbWrite_eighth h7]
      exact ⟨out ++ [_], by simp [h.eout], hplaced.concat_zero⟩
    · rw [wbWrite_pending h7]
      exact ⟨out, h.eout, hplaced⟩
  refine ⟨out', heout, ?_, hpacked⟩
  have hcount := wbWrite_count b s
  rw [heout, h.eout, List.length_append, List.length_append] at hcount
  rw [List.length_append, List.length_singleton, h.count]
  omega

theorem Written.wbWriteAll {before out : List Byte} {bits : List Bool} {s : State} (h : Written before out bits s) (more : List Bool) :
    ∃ out', Written before out' (bits ++ more) (wbWriteAll more s) := by
  induction more generalizing out bits s with
  | nil => exact ⟨out, by rwa [List.append_nil]⟩
  | cons b more ih =>
    obtain ⟨out', h'⟩ := h.wbWrite b
    rw [List.append_cons]
    exact ih h'

theorem written_nil {s : State} (hcnt : s.enc.wbCnt = 0#3) (hacc : s.enc.wbAcc = 0#8) : Written s.eout [] [] s where
  eout := (List.append_nil _).symm
  count := by rw [hcnt]; rfl
  packed := by
    rw [hacc]
    exact packedAs_nil.concat_zero

/-- The bytes emitted once the writer is flushed. -/
theorem Written.wbFlush {before out : List Byte} {bits : List Bool} {s : State} (h : Written before out bits s) :
    ∃ out', (wbFlush s).eout = before ++ out' ∧ out'.length = (bits.length + 7) / 8 ∧ PackedAs out' bits := by
  have hcount := h.count
  have h8 := s.enc.wbCnt.isLt
  rw [wbFlush_eq]
  by_cases h0 : s.enc.wbCnt = 0#3
  · rw [h0, BitVec.toNat_zero] at hcount
    exact ⟨out, by simp [h0, h.eout], by omega, h.packed.of_concat hcount.le⟩
  · have hpos : s.enc.wbCnt.toNat ≠ 0 := fun hc => h0 (BitVec.eq_of_toNat_eq hc)
    refine ⟨out ++ [s.enc.wbAcc], by simp [h0, h.eout], ?_, h.packed⟩
    rw [List.length_append, List.length_singleton]
    omega

/-- Settles O43: the writes and the flush keep `Written`, and the bits are counted by `wbWriteAll_count`. -/
theorem writerPacksMostSignificantFirst : Obligations.WriterPacksMostSignificantFirst := by
  intro bits s hcnt hacc
  have hcount := wbWriteAll_count bits s
  have h8 := (wbWriteAll bits s).enc.wbCnt.isLt
  rw [hcnt, BitVec.toNat_zero] at hcount
  obtain ⟨_, hwritten⟩ := (written_nil hcnt hacc).wbWriteAll bits
  obtain ⟨out, hout, hlen, hpacked⟩ := hwritten.wbFlush
  exact ⟨by omega, by omega, out, hout, hlen, fun q r _ hr => hpacked q r hr⟩

end Sys2Proof.Machine
end

section
/-! The bit reader (spec/45_bit_reader.md): with n bits left, the reader gives bits n − 1 to 0 of its byte, the highest first. -/

namespace Sys2Proof.Machine

/-- R152: the bit taken is the one the new count points at. -/
theorem brNext_withReader_succ {n : Nat} (hn : n < 8) (v : Byte) (d : Decoder) :
    brNext (d.withReader v (BitVec.ofNat 4 (n + 1))) = .ok (v.getLsbD n, d.withReader v (BitVec.ofNat 4 n)) := by
  have hcount : (BitVec.ofNat 4 (n + 1)).toNat = n + 1 := Nat.mod_eq_of_lt (by omega)
  have hnext : BitVec.ofNat 4 (n + 1) - 1#4 = BitVec.ofNat 4 n := by
    rw [BitVec.ofNat_add, BitVec.add_sub_cancel]
  rw [brNext, Decoder_withReader_brCnt, hcount, hnext, if_pos ⟨by omega, by omega⟩]
  rfl

/-- R152: a call on an empty reader is a model-internal fault. -/
theorem brNext_empty {d : Decoder} (h : d.brCnt = 0#4) : brNext d = .error .readerCount := by
  rw [brNext, h, if_neg (by decide)]

theorem takeBits_cons {k : Nat} {b : Bool} {bs : List Bool} {d d' d'' : Decoder} (hb : brNext d = .ok (b, d'))
    (hbs : takeBits k d' = .ok (bs, d'')) : takeBits (k + 1) d = .ok (b :: bs, d'') := by
  simp [takeBits, hb, hbs]

/-- Taking every bit left in the reader gives them from the highest down and empties it. -/
theorem takeBits_withReader {n : Nat} (hn : n ≤ 8) (v : Byte) (d : Decoder) :
    takeBits n (d.withReader v (BitVec.ofNat 4 n)) = .ok ((List.range n).reverse.map v.getLsbD, d.withReader v 0#4) := by
  induction n with
  | zero => rfl
  | succ n ih =>
    have hrest := takeBits_cons (brNext_withReader_succ hn v d) (ih (Nat.le_of_succ_le hn))
    rwa [List.range_succ, List.reverse_append]

/-- Settles O44: `BR_LOAD` leaves eight bits, taken by `takeBits_withReader`; an empty reader faults. -/
theorem readerTakesMostSignificantFirst : Obligations.ReaderTakesMostSignificantFirst :=
  fun v d => ⟨takeBits_withReader (Nat.le_refl 8) v d, brNext_empty⟩

end Sys2Proof.Machine
end

section
/-! PROOFS. The container header (spec/20_memory.md R61, R62; spec/46_container_encode.md R161 to R167). A total and a table have one byte
at each offset (`headerByteAt`); `WHDR` emits the bytes at the offsets 0 to 1027 in order, and the decoder's header rule sets the byte at
the offset it counts and no other. -/

namespace Sys2Proof.Machine

/-! ### The byte lanes of a word (R62) -/

theorem headerLane_toNat (v : Word32) (k : Nat) : (headerLane v k).toNat = v.toNat / 2 ^ (8 * k) % 256 := by
  rw [headerLane, BitVec.extractLsb'_toNat, Nat.shiftRight_eq_div_pow]

theorem toNat_eq_sum_headerLane (v : Word32) :
    (headerLane v 0).toNat + 256 * (headerLane v 1).toNat + 65536 * (headerLane v 2).toNat + 16777216 * (headerLane v 3).toNat =
      v.toNat := by
  have hlt := v.isLt
  simp only [headerLane_toNat]
  omega

theorem word_eq_of_headerLane {v w : Word32} (h : ∀ k < 4, headerLane v k = headerLane w k) : v = w := by
  apply BitVec.eq_of_toNat_eq
  rw [← toNat_eq_sum_headerLane v, ← toNat_eq_sum_headerLane w, h 0 (by decide), h 1 (by decide), h 2 (by decide), h 3 (by decide)]

theorem getLsbD_laneMask (k : Nat) {i : Nat} (hi : i < 32) : (0xFF#32 <<< (8 * k)).getLsbD i = decide (8 * k ≤ i ∧ i < 8 * k + 8) := by
  have hmask : 0xFF#32 = (BitVec.allOnes 8).setWidth 32 := by decide
  rw [hmask, BitVec.getLsbD_shiftLeft, BitVec.getLsbD_setWidth, BitVec.getLsbD_allOnes, Bool.eq_iff_iff]
  simp only [Bool.and_eq_true, Bool.not_eq_true', decide_eq_true_eq, decide_eq_false_iff_not]
  omega

theorem getLsbD_setHeaderLane (v : Word32) (k : Nat) (b : Byte) {i : Nat} (hi : i < 32) :
    (setHeaderLane v k b).getLsbD i = if 8 * k ≤ i ∧ i < 8 * k + 8 then b.getLsbD (i - 8 * k) else v.getLsbD i := by
  rw [setHeaderLane, BitVec.getLsbD_or, BitVec.getLsbD_and, BitVec.getLsbD_not, getLsbD_laneMask k hi, BitVec.getLsbD_shiftLeft,
    BitVec.getLsbD_setWidth]
  obtain hbelow | hge := Nat.lt_or_ge i (8 * k)
  · simp [hi, hbelow, Nat.not_le.2 hbelow]
  · obtain hin | habove := Nat.lt_or_ge i (8 * k + 8)
    · simp [hi, hge, hin, show i - 8 * k < 32 by omega]
    · have hnone : b.getLsbD (i - 8 * k) = false := BitVec.getLsbD_of_ge _ _ (by omega)
      simp [hi, Nat.not_lt.2 habove, hnone]

/-- Writing a lane changes that lane and no other (spec/47_container_decode.md R171). -/
theorem headerLane_setHeaderLane (v : Word32) (b : Byte) {k j : Nat} (hj : j < 4) :
    headerLane (setHeaderLane v k b) j = if j = k then b else headerLane v j := by
  refine BitVec.eq_of_getLsbD_eq fun i hi => ?_
  rw [headerLane, BitVec.getLsbD_extractLsb', getLsbD_setHeaderLane v k b (by omega), decide_eq_true hi, Bool.true_and]
  by_cases hjk : j = k
  · subst hjk
    rw [if_pos (by omega), if_pos rfl, Nat.add_sub_cancel_left]
  · rw [if_neg (by omega), if_neg hjk, headerLane, BitVec.getLsbD_extractLsb', decide_eq_true hi, Bool.true_and]

/-! ### The byte at an offset (R61) -/

/-- The header byte at offset h: byte h of the total, or byte (h − 4) mod 4 of entry (h − 4) div 4 (R61, R62). -/
def headerByteAt (total : Word32) (u : TreeUnit) (h : Nat) : Byte :=
  if h < 4 then headerLane total h else headerLane (freqAt u ((h - 4) / 4)) ((h - 4) % 4)

theorem headerByteAt_total (total : Word32) (u : TreeUnit) {k : Nat} (hk : k < 4) : headerByteAt total u k = headerLane total k :=
  if_pos hk

theorem headerByteAt_table (total : Word32) (u : TreeUnit) (c : Nat) {k : Nat} (hk : k < 4) :
    headerByteAt total u (4 + 4 * c + k) = headerLane (freqAt u c) k := by
  have hentry : (4 + 4 * c + k - 4) / 4 = c := by omega
  have hlane : (4 + 4 * c + k - 4) % 4 = k := by omega
  rw [headerByteAt, if_neg (by omega), hentry, hlane]

/-- The 1028 bytes determine the total and the table. -/
theorem eq_of_headerByteAt {total total' : Word32} {u u' : TreeUnit}
    (h : ∀ j < 1028, headerByteAt total u j = headerByteAt total' u' j) :
    total = total' ∧ ∀ c < 256, freqAt u c = freqAt u' c := by
  refine ⟨word_eq_of_headerLane fun k hk => ?_, fun c hc => word_eq_of_headerLane fun k hk => ?_⟩
  · rw [← headerByteAt_total total u hk, ← headerByteAt_total total' u' hk]
    exact h k (by omega)
  · rw [← headerByteAt_table total u c hk, ← headerByteAt_table total' u' c hk]
    exact h (4 + 4 * c + k) (by omega)

/-! ### The bytes emitted (R161) -/

theorem tableBytes_append (u : TreeUnit) (l m : List Nat) : tableBytes u (l ++ m) = tableBytes u l ++ tableBytes u m := by
  induction l with
  | nil => rfl
  | cons c l ih => simp only [List.cons_append, tableBytes, ih, List.append_assoc]

theorem headerField_eq (v : Word32) : headerField v = (List.range 4).map (headerLane v) := rfl

theorem headerField_append_tableBytes (total : Word32) (u : TreeUnit) (n : Nat) :
    headerField total ++ tableBytes u (List.range n) = (List.range (4 + 4 * n)).map (headerByteAt total u) := by
  induction n with
  | zero => rfl
  | succ n ih =>
    have hentry : tableBytes u [n] = (List.range 4).map (fun k => headerByteAt total u (4 + 4 * n + k)) := by
      rw [tableBytes, tableBytes, List.append_nil, headerField_eq]
      exact List.map_congr_left fun k hk => (headerByteAt_table total u n (List.mem_range.1 hk)).symm
    rw [List.range_succ, tableBytes_append, ← List.append_assoc, ih, hentry, Nat.mul_succ, ← Nat.add_assoc,
      List.range_add (n := 4 + 4 * n), List.map_append, List.map_map]
    rfl

theorem headerBytes_eq (e : Encoder) : headerBytes e = (List.range 1028).map (headerByteAt e.total e.tree) :=
  headerField_append_tableBytes e.total e.tree 256

theorem headerBytes_length (e : Encoder) : (headerBytes e).length = 1028 := by
  rw [headerBytes_eq, List.length_map, List.length_range]

theorem headerBytes_getElem? (e : Encoder) {h : Nat} (hh : h < 1028) : (headerBytes e)[h]? = some (headerByteAt e.total e.tree h) := by
  rw [headerBytes_eq, List.getElem?_map, List.getElem?_range hh, Option.map_some]

theorem headerBytes_total (e : Encoder) {k : Nat} (hk : k < 4) : (headerBytes e)[k]? = some (headerLane e.total k) := by
  rw [headerBytes_getElem? e (by omega), headerByteAt_total _ _ hk]

theorem headerBytes_table (e : Encoder) {c k : Nat} (hc : c < 256) (hk : k < 4) :
    (headerBytes e)[4 + 4 * c + k]? = some (headerLane (freqAt e.tree c) k) := by
  rw [headerBytes_getElem? e (by omega), headerByteAt_table _ _ _ hk]

/-- Settles O45: the bytes emitted are `headerBytes`, whose byte at each offset is known. -/
theorem whdrEmitsTheHeader : Obligations.WhdrEmitsTheHeader := by
  intro s hp
  exact ⟨headerBytes s.enc, headerBytes_length s.enc, gateE_legal whdrRule (by decide) hp, fun _ hk => headerBytes_total s.enc hk,
    fun _ hc _ hk => headerBytes_table s.enc hc hk⟩

/-! ### The fields read as numbers (R167) -/

theorem fieldAt_eq_toNat {bs : List Byte} {offset : Nat} {v : Word32} (h : ∀ k < 4, bs[offset + k]? = some (headerLane v k)) :
    fieldAt bs offset = v.toNat := by
  have hlane (k : Nat) (hk : k < 4) : bs.getD (offset + k) 0#8 = headerLane v k := by
    rw [List.getD_eq_getElem?_getD, h k hk, Option.getD_some]
  calc fieldAt bs offset
    _ = (bs.getD (offset + 0) 0#8).toNat + 256 * (bs.getD (offset + 1) 0#8).toNat + 65536 * (bs.getD (offset + 2) 0#8).toNat +
          16777216 * (bs.getD (offset + 3) 0#8).toNat := rfl
    _ = v.toNat := by
      rw [hlane 0 (by decide), hlane 1 (by decide), hlane 2 (by decide), hlane 3 (by decide), toNat_eq_sum_headerLane]

theorem fieldAt_headerBytes_total (e : Encoder) : fieldAt (headerBytes e) 0 = e.total.toNat :=
  fieldAt_eq_toNat fun k hk => by rw [Nat.zero_add, headerBytes_total e hk]

theorem fieldAt_headerBytes_table (e : Encoder) {c : Nat} (hc : c < 256) :
    fieldAt (headerBytes e) (4 + 4 * c) = (freqAt e.tree c).toNat :=
  fieldAt_eq_toNat fun _ hk => headerBytes_table e hc hk

/-- Settles O46: the fields are the total and the table, whose sum is the invariant's (R28). -/
theorem headerFieldsSumToTotal : Obligations.HeaderFieldsSumToTotal := by
  intro s hs
  have hfields : (List.range 256).map (fun c => fieldAt (headerBytes s.enc) (4 + 4 * c)) =
      Config.symbols.map (fun c => (freqAt s.enc.tree c).toNat) :=
    List.map_congr_left fun c hc => fieldAt_headerBytes_table s.enc (List.mem_range.1 hc)
  rw [hfields, fieldAt_headerBytes_total]
  exact hs.sumTotal

/-! ### The bytes received (spec/47_container_decode.md R171) -/

/-- A byte stored is the byte at its offset; the bytes at the other offsets stay. -/
theorem headerByteAt_storeHeaderByte (d : Decoder) (h j : Nat) (v : Byte) :
    headerByteAt (storeHeaderByte d h v).total (storeHeaderByte d h v).tree j =
      if j = h then v else headerByteAt d.total d.tree j := by
  unfold storeHeaderByte headerByteAt
  by_cases hh : h < 4
  · rw [if_pos hh]
    by_cases hj : j < 4
    · rw [if_pos hj, if_pos hj, headerLane_setHeaderLane _ _ hj]
    · rw [if_neg hj, if_neg hj, if_neg (by omega)]
  · rw [if_neg hh]
    by_cases hj : j < 4
    · rw [if_pos hj, if_pos hj, if_neg (by omega)]
    · rw [if_neg hj, if_neg hj, freqAt_setFreq]
      by_cases hentry : (h - 4) / 4 = (j - 4) / 4
      · rw [if_pos hentry, headerLane_setHeaderLane _ _ (Nat.mod_lt _ (by decide)), hentry]
        exact if_congr (by omega) rfl rfl
      · rw [if_neg hentry, if_neg (by rintro rfl; exact hentry rfl)]

/-- The decoder holds exactly the bytes received so far, from offset 0 on, and waits for the tree once they are 1028. -/
structure HeaderRead (bs : List Byte) (d : Decoder) : Prop where
  count : d.hcnt.toNat = bs.length
  state : d.state = if bs.length = 1028 then .awaitTree else .awaitHeader
  bytes : bs = (List.range bs.length).map (headerByteAt d.total d.tree)

theorem headerRead_reset : HeaderRead [] Decoder.reset := ⟨rfl, rfl, rfl⟩

theorem HeaderRead.headerByteRule {bs : List Byte} {s : State} (h : HeaderRead bs s.dec) (hlen : bs.length < 1028) (v : Byte) :
    ∃ t, headerByteRule v s = .ok t ∧ HeaderRead (bs ++ [v]) t.dec := by
  have hlt : s.dec.hcnt.toNat < 1028 := h.count ▸ hlen
  refine ⟨_, if_pos hlt, ?_, ?_, ?_⟩
  · change (s.dec.hcnt + 1#11).toNat = _
    rw [BitVec.toNat_add, h.count, List.length_append]
    exact Nat.mod_eq_of_lt (show bs.length + 1 < 2048 by omega)
  · simp [h.count, Config.hdrLen]
  · have hold : bs = (List.range bs.length).map
        (headerByteAt (storeHeaderByte s.dec bs.length v).total (storeHeaderByte s.dec bs.length v).tree) := by
      conv_lhs => rw [h.bytes]
      refine List.map_congr_left fun j hj => ?_
      rw [headerByteAt_storeHeaderByte, if_neg (List.mem_range.1 hj).ne]
    rw [List.length_append, List.length_singleton, List.range_succ, List.map_append]
    simp [h.count, headerByteAt_storeHeaderByte, ← hold]

theorem HeaderRead.headerBytesIn {bs : List Byte} {s : State} (h : HeaderRead bs s.dec) (more : List Byte)
    (hlen : bs.length + more.length ≤ 1028) : ∃ t, headerBytesIn more s = .ok t ∧ HeaderRead (bs ++ more) t.dec := by
  induction more generalizing bs s with
  | nil => exact ⟨s, rfl, by rwa [List.append_nil]⟩
  | cons v more ih =>
    rw [List.length_cons] at hlen
    obtain ⟨s', hs', h'⟩ := h.headerByteRule (by omega) v
    obtain ⟨t, ht, hread⟩ := ih h' (by rw [List.length_append, List.length_singleton]; omega)
    refine ⟨t, ?_, by rwa [List.append_cons]⟩
    rw [Machine.headerBytesIn, hs']
    exact ht

/-- Settles O49: the decoder ends holding the bytes of the encoder's header, which determine the total and the table. -/
theorem headerReadsBack : Obligations.HeaderReadsBack := by
  intro e s hs
  have hlen := headerBytes_length e
  have hreset : HeaderRead [] s.dec := hs ▸ headerRead_reset
  obtain ⟨t, ht, hread⟩ := hreset.headerBytesIn (headerBytes e) (by rw [hlen, List.length_nil])
  rw [List.nil_append] at hread
  have hbytes := hread.bytes
  rw [hlen, headerBytes_eq, List.map_inj_left] at hbytes
  obtain ⟨htotal, htable⟩ := eq_of_headerByteAt fun j hj => (hbytes j (List.mem_range.2 hj)).symm
  exact ⟨t, ht, by rw [hread.state, if_pos hlen], htotal, htable⟩

end Sys2Proof.Machine
end

section
/-! PROOFS. `ESYM` (spec/46_container_encode.md R163): one of the two branches of its rule, by the code length. -/

namespace Sys2Proof.Machine

theorem esymRule_noCode {c : Byte} {s : State} (h : clenAt s.enc c.toNat = 0#9) : esymRule c s = .ok (raiseE .noCode s) := if_pos h

theorem esymRule_code {c : Byte} {s : State} {bits : List Bool} (h : clenAt s.enc c.toNat ≠ 0#9)
    (hbits : codeOf s.enc c.toNat = .ok bits) :
    esymRule c s = .ok (wbWriteAll bits s) := by
  rw [esymRule, if_neg h, hbits]

theorem exec_esym_body {c : Byte} {s t : State} (hp : s.enc.phase = .body) (h : esymRule c s = .ok t) : exec (.esym c) s = .next t :=
  calc exec (.esym c) s
    _ = outcomeOf (esymRule c s) := gateE_legal _ (by decide) hp
    _ = .next t := by rw [h, outcomeOf_ok]

/-- Settles O47: the bits written are counted by `wbWriteAll_count`. -/
theorem esymWritesTheCode : Obligations.EsymWritesTheCode := by
  intro c s hp
  refine ⟨fun h0 => exec_esym_body hp (esymRule_noCode h0), fun hne hheld => ?_⟩
  have hcode : codeOf s.enc c.toNat = .ok ((cbitsAt s.enc c.toNat).take (clenAt s.enc c.toNat).toNat) := if_pos hheld
  generalize (cbitsAt s.enc c.toNat).take (clenAt s.enc c.toNat).toNat = bits at hcode ⊢
  have hcount := wbWriteAll_count bits s
  have h8 := (wbWriteAll bits s).enc.wbCnt.isLt
  rw [length_of_codeOf hcode] at hcount
  exact ⟨_, exec_esym_body hp (esymRule_code hne hcode), rfl, by omega, by omega, wbWriteAll_frame bits s⟩

end Sys2Proof.Machine
end

section
/-! PROOFS. The decoder's commands by state (spec/47_container_decode.md R171 to R178). A body byte is its bits given to `DSTEP` with the
reader set aside (`bodyByteRule_eq`), so what a byte can do is what its bits can do (`Decoded`). -/

namespace Sys2Proof.Machine

/-! ### A header byte (R171) -/

theorem exec_dbyte_awaitHeader {s : State} (hst : s.dec.state = .awaitHeader) (v : Byte) :
    exec (.dbyte v) s = outcomeOf (headerByteRule v s) := by
  rw [exec, execDbyte, hst]

/-- Settles O48: the next state's frame is `headerByteRule_ok`'s, its bytes are `headerByteAt_storeHeaderByte`'s. -/
theorem dbyteAssemblesTheHeader : Obligations.DbyteAssemblesTheHeader := by
  intro v s hst hlt
  have hrule : headerByteRule v s = .ok _ := if_pos hlt
  obtain ⟨-, hframe⟩ := headerByteRule_ok hrule
  have hbyte := fun j => headerByteAt_storeHeaderByte s.dec s.dec.hcnt.toNat j v
  refine ⟨(storeHeaderByte s.dec s.dec.hcnt.toNat v).total,
    { s.dec.tree with freq := (storeHeaderByte s.dec s.dec.hcnt.toNat v).tree.freq }, ?_, rfl, fun k hk => ?_, fun c _ k hk => ?_⟩
  · rw [exec_dbyte_awaitHeader hst, hrule, outcomeOf_ok, hframe]
    simp only [Nat.reduceEqDiff]
    rfl
  · have hk' := hbyte k
    rw [headerByteAt_total _ _ hk, headerByteAt_total _ _ hk] at hk'
    exact hk'.trans (if_congr eq_comm rfl rfl)
  · have hk' := hbyte (4 + 4 * c + k)
    rw [headerByteAt_table _ _ c hk, headerByteAt_table _ _ c hk] at hk'
    exact hk'.trans (if_congr eq_comm rfl rfl)

/-! ### The end of the header (R172) -/

theorem exec_dtree_awaitTree {s t : State} (hst : s.dec.state = .awaitTree) (h : dtreeRule s = .ok t) : exec .dtree s = .next t := by
  rw [exec, execDtree, hst, h]
  rfl

theorem exec_dtree_seqError {s : State} (hst : s.dec.state ≠ .awaitTree) (hf : s.dec.state ≠ .fault) :
    exec .dtree s = .next (raiseD .seqError s) := by
  rw [exec, execDtree]
  cases h : s.dec.state with
  | awaitHeader | decoding | done => rfl
  | awaitTree => exact absurd h hst
  | fault => exact absurd h hf

theorem dtreeRule_noSymbols {s : State} (h : s.dec.total = 0#32) : dtreeRule s = .ok (s.withDec (s.dec.withState .done)) := if_pos h

theorem dtreeRule_emptyAlphabet {s : State} (h : s.dec.total ≠ 0#32) (hz : allZero s.dec.tree = true) :
    dtreeRule s = .ok (raiseD .emptyAlphabet s) := by
  rw [dtreeRule, if_neg h, if_pos hz]

theorem dtreeRule_builds {s : State} (h : s.dec.total ≠ 0#32) (hz : ¬ allZero s.dec.tree = true) {u : TreeUnit}
    (hu : treeBuild s.dec.tree = .ok u) :
    dtreeRule s = .ok (s.withDec { s.dec with tree := u, cur := u.root, dcnt := 0#32, state := .decoding }) := by
  rw [dtreeRule, if_neg h, if_neg hz, hu]

/-- Settles O50: `TREE_BUILD` always completes (`treeBuild_built`). -/
theorem dtreeStartsDecoding : Obligations.DtreeStartsDecoding := by
  intro s
  refine ⟨fun hst => ?_, exec_dtree_seqError, fun hst h => exec_dtree_awaitTree hst (dtreeRule_noSymbols h), fun hst h hz => ?_,
    fun hst h hused => ?_⟩
  · rw [exec, execDtree, hst]
  · exact exec_dtree_awaitTree hst (dtreeRule_emptyAlphabet h ((allZero_iff _).2 hz))
  · obtain ⟨u, hu, -⟩ := treeBuild_built s.dec.tree
    obtain ⟨k, hk, hne⟩ := hused
    exact ⟨u, hu, exec_dtree_awaitTree hst (dtreeRule_builds h (fun hz => hne ((allZero_iff _).1 hz k hk)) hu)⟩

/-! ### One bit (R176) -/

/-- A symbol finished in `Decoding`, with no wrap of the count. -/
theorem finishSymbol_decoding {s : State} (hst : s.dec.state = .decoding) (hmax : s.dec.dcnt ≠ Config.countMax) (sym : Byte) :
    finishSymbol sym s = { s with
      dout := s.dout ++ [sym]
      dec := { s.dec with
        dcnt := s.dec.dcnt + 1#32
        cur := s.dec.tree.root
        state := if s.dec.dcnt.toNat + 1 = s.dec.total.toNat then .done else .decoding } } := by
  simp only [finishSymbol, emitD, State.withDec, hst, ← BitVec.toNat_inj, toNat_succ_of_ne_max hmax]

/-- Settles O51: under the invariant the bit leads to a recorded node (`nextNode_recorded`) and the count, below the total, does not
wrap. -/
theorem dstepWalksTheTree : Obligations.DstepWalksTheTree := by
  intro bit s hs hst
  obtain ⟨hlt, hcur, -⟩ := hs.decoding hst
  obtain ⟨root, cur, n, r, hroot, hcurAt, hn, hnext, hr⟩ := nextNode_recorded hs.tree hcur bit
  have hmax := ne_countMax_of_lt hlt
  refine ⟨root, cur, r, n, hroot, hcurAt, hn, hr, fun hl => ?_, dstep_toInner hnext hr⟩
  rw [dstep_toLeaf hnext hr hl hmax, finishSymbol_decoding hst hmax]

/-! ### A body byte (R174) -/

theorem exec_dbyte_decoding {s : State} (hst : s.dec.state = .decoding) (v : Byte) :
    exec (.dbyte v) s = outcomeOf (bodyByteRule v s) := by
  rw [exec, execDbyte, hst]

/-- The state with another bit-reader accumulator. -/
def State.withReader (s : State) (v : Byte) (cnt : BitVec 4) : State := s.withDec (s.dec.withReader v cnt)

/-- The state with the bits left in the reader discarded (R174). -/
def State.discardBits (s : State) : State := s.withReader s.dec.brByte 0#4

theorem bodyByteRule_eq_decodeBits (v : Byte) (s : State) :
    bodyByteRule v s = (decodeBits 8 (s.withReader v 8#4)).map State.discardBits := by
  have hload : s.withDec (brLoad v s.dec) = s.withReader v 8#4 := rfl
  rw [bodyByteRule, hload]
  cases decodeBits 8 (s.withReader v 8#4) <;> rfl

theorem dstep_readerSetAside (bit : Bool) (s : State) (v : Byte) (cnt : BitVec 4) :
    dstep bit (s.withReader v cnt) = (dstep bit s).map (fun t => t.withReader v cnt) := by
  rw [State.withReader, dstep_withReader]
  cases dstep bit s <;> rfl

theorem decodeBit_withReader_succ {n : Nat} (hn : n < 8) (v : Byte) (s : State) :
    decodeBit (s.withReader v (BitVec.ofNat 4 (n + 1))) =
      (dstep (v.getLsbD n) s).map (fun t => t.withReader v (BitVec.ofNat 4 n)) := by
  rw [decodeBit, State.withReader, State_withDec_dec, brNext_withReader_succ hn]
  exact dstep_readerSetAside (v.getLsbD n) s v (BitVec.ofNat 4 n)

/-- The bit loop with n bits left is `DSTEP` of those bits with the reader set aside, apart from the bits discarded at the end. -/
theorem decodeBits_withReader {n : Nat} (hn : n ≤ 8) (v : Byte) (s : State) :
    (decodeBits n (s.withReader v (BitVec.ofNat 4 n))).map State.discardBits =
      (dstepWhile ((List.range n).reverse.map v.getLsbD) s).map (fun t => t.withReader v 0#4) := by
  induction n generalizing s with
  | zero => rfl
  | succ n ih =>
    have hsome : BitVec.ofNat 4 (n + 1) ≠ 0#4 := by
      rw [ne_eq, ← BitVec.toNat_inj, BitVec.toNat_ofNat, Nat.mod_eq_of_lt (by omega)]
      exact Nat.succ_ne_zero n
    rw [List.range_succ, List.reverse_append, List.reverse_singleton, List.singleton_append, List.map_cons, dstepWhile]
    by_cases hst : s.dec.state = .decoding
    · have hgo : ¬ ((s.withReader v (BitVec.ofNat 4 (n + 1))).dec.brCnt = 0#4 ∨
          (s.withReader v (BitVec.ofNat 4 (n + 1))).dec.state ≠ .decoding) := fun h => h.elim hsome fun h => h hst
      rw [if_pos hst, decodeBits, if_neg hgo, decodeBit_withReader_succ hn]
      cases dstep (v.getLsbD n) s with
      | error f => rfl
      | ok t => exact ih (Nat.le_of_succ_le hn) t
    · have hstop : decodeBits (n + 1) (s.withReader v (BitVec.ofNat 4 (n + 1))) = .ok _ := if_pos (.inr hst)
      rw [if_neg hst, hstop]
      rfl

/-- R174: a body byte is `DSTEP` of its bits; the reader then holds the byte and no bit. -/
theorem bodyByteRule_eq (v : Byte) (s : State) :
    bodyByteRule v s = (dstepWhile (bitsOf v) s).map (fun t => t.withReader v 0#4) := by
  rw [bodyByteRule_eq_decodeBits]
  exact decodeBits_withReader (Nat.le_refl 8) v s

/-- Settles O52: `bodyByteRule_eq` as an outcome. -/
theorem dbyteDecodesItsBits : Obligations.DbyteDecodesItsBits := by
  intro v s hst
  rw [exec_dbyte_decoding hst, bodyByteRule_eq]
  cases dstepWhile (bitsOf v) s <;> rfl

/-- From s to t the symbols `out` were emitted and counted, and the cursor and the state may have changed (R176). -/
def Decoded (s : State) (out : List Byte) (t : State) : Prop :=
  ∃ cur dcnt st, t = { s with dout := s.dout ++ out, dec := { s.dec with cur := cur, dcnt := dcnt, state := st } } ∧
    dcnt.toNat = s.dec.dcnt.toNat + out.length

theorem decoded_nil (s : State) : Decoded s [] s :=
  ⟨s.dec.cur, s.dec.dcnt, s.dec.state, by rw [List.append_nil], rfl⟩

theorem Decoded.trans {s t u : State} {out out' : List Byte} (h : Decoded s out t) (h' : Decoded t out' u) :
    Decoded s (out ++ out') u := by
  obtain ⟨_, _, _, rfl, hcount⟩ := h
  obtain ⟨cur, dcnt, st, rfl, hcount'⟩ := h'
  refine ⟨cur, dcnt, st, by simp only [List.append_assoc], ?_⟩
  rw [hcount', List.length_append, ← Nat.add_assoc, ← hcount]

/-- A bit emits at most one symbol. -/
theorem decoded_of_dstep {bit : Bool} {s t : State} (h : dstep bit s = .ok t) : ∃ out, out.length ≤ 1 ∧ Decoded s out t := by
  obtain ⟨n, r, -, -, ⟨-, hmax, rfl⟩ | ⟨-, rfl⟩⟩ := dstep_ok h
  · exact ⟨[r.sym], Nat.le_refl 1, _, _, _, rfl, toNat_succ_of_ne_max hmax⟩
  · exact ⟨[], Nat.zero_le 1, n, s.dec.dcnt, s.dec.state, by rw [List.append_nil]; rfl, rfl⟩

/-- Bits emit at most one symbol each. -/
theorem decoded_of_dstepWhile {bits : List Bool} {s t : State} (h : dstepWhile bits s = .ok t) :
    ∃ out, out.length ≤ bits.length ∧ Decoded s out t := by
  induction bits generalizing s with
  | nil =>
    obtain rfl := Except.ok.inj h
    exact ⟨[], Nat.le_refl 0, decoded_nil s⟩
  | cons b bits ih =>
    unfold dstepWhile at h
    split at h
    · split at h
      · rename_i s' hb
        obtain ⟨out, hlen, hout⟩ := decoded_of_dstep hb
        obtain ⟨out', hlen', hout'⟩ := ih h
        exact ⟨out ++ out', by rw [List.length_append, List.length_cons]; omega, hout.trans hout'⟩
      · cases h
    · obtain rfl := Except.ok.inj h
      exact ⟨[], Nat.zero_le _, decoded_nil s⟩

/-- Under the invariant, decoding or done, the decoder is in `Done` exactly at the total (R177). -/
theorem DecInv.state_eq {d : Decoder} (h : DecInv d) (hst : d.state = .decoding ∨ d.state = .done) :
    d.state = if d.dcnt = d.total then .done else .decoding := by
  obtain hdec | hdone := hst
  · obtain ⟨hlt, -⟩ := h.decoding hdec
    rw [hdec, if_neg fun hc => by rw [hc] at hlt; omega]
  · rw [hdone, if_pos (h.dcntDone hdone)]

/-- Settles O53: the byte completes and keeps the invariant, and its eight bits emit at most a symbol each. -/
theorem dbyteNeverPassesTheTotal : Obligations.DbyteNeverPassesTheTotal := by
  intro v s hs hst
  obtain ⟨t, ht⟩ := bodyByteRule_completes hs v
  have hinv := hs.bodyByteRule ht
  have hstate := hinv.state_eq ((bodyByteRule_state hst ht).imp_right And.right)
  have hexec : exec (.dbyte v) s = .next t := by rw [exec_dbyte_decoding hst, ht, outcomeOf_ok]
  rw [bodyByteRule_eq] at ht
  cases hbits : dstepWhile (bitsOf v) s with
  | error f => simp [hbits, Except.map] at ht
  | ok t' =>
    rw [hbits] at ht
    obtain rfl := Except.ok.inj ht
    obtain ⟨out, hlen, _, _, _, rfl, hcount⟩ := decoded_of_dstepWhile hbits
    exact ⟨_, out, hexec, rfl, hlen, hcount, hinv.dcntRange, hstate, rfl⟩

/-! ### After the total, and the end of the bytes (R175, R178) -/

/-- Settles O54, by the row of `execDbyte` for `Done`. -/
theorem dbyteInDoneIsDiscarded : Obligations.DbyteInDoneIsDiscarded := by
  intro v s hst
  rw [exec, execDbyte, hst]

/-- Settles O55, by the state's row of `execDend`. -/
theorem dendByState : Obligations.DendByState := by
  intro s
  refine ⟨?_, fun hst => ?_, ?_⟩
  · rintro (hst | hst) <;> rw [exec, execDend, hst] <;> rfl
  · rw [exec, execDend, hst]
    rfl
  · rintro (hst | hst) <;> rw [exec, execDend, hst]

end Sys2Proof.Machine
end

section
/-! PROOFS. The system commands answer in every phase and state (spec/48_system_commands.md R190 to R197): a unit reset replaces its unit,
a read appends one word, and the fields of a register's word stand where the maps of spec/10_state.md R44 and R45 put them. -/

namespace Sys2Proof.Machine

/-! ### The fields of the register words (R44, R45) -/

/-- R44, R45: `E_STATUS` and `D_STATUS`. -/
theorem statusWord_fields (ill : Bool) (err : ErrCode) (code : BitVec 3) :
    (statusWord ill err code).extractLsb' 0 3 = code ∧ (statusWord ill err code).getLsbD 3 = false ∧
    (statusWord ill err code).extractLsb' 4 4 = errBits err ∧ (statusWord ill err code).getLsbD 8 = ill ∧
    (statusWord ill err code).extractLsb' 9 23 = 0#23 := by
  unfold statusWord
  refine ⟨BitVec.extractLsb'_append_eq_right, ?_, ?_, ?_, ?_⟩
  · rw [BitVec.getLsbD_append, if_neg (by decide), BitVec.getLsbD_append, if_pos (by decide), BitVec.getLsbD_zero]
  · rw [BitVec.extractLsb'_append_eq_of_le (by decide), BitVec.extractLsb'_append_eq_of_le (by decide)]
    exact BitVec.extractLsb'_append_eq_right
  · rw [BitVec.getLsbD_append, if_neg (by decide), BitVec.getLsbD_append, if_neg (by decide), BitVec.getLsbD_append,
      if_neg (by decide), BitVec.getLsbD_append, if_pos (by decide), BitVec.getLsbD_ofBool]
    exact Bool.true_and ill
  · rw [BitVec.extractLsb'_append_eq_of_le (by decide), BitVec.extractLsb'_append_eq_of_le (by decide),
      BitVec.extractLsb'_append_eq_of_le (by decide)]
    exact BitVec.extractLsb'_append_eq_left

/-- R44, R45: `E_TREE` and `D_TREE`. -/
theorem treeWord_fields (u : TreeUnit) :
    (treeWord u).extractLsb' 0 9 = u.root ∧ (treeWord u).extractLsb' 9 7 = 0#7 ∧ (treeWord u).extractLsb' 16 9 = u.nnext ∧
    (treeWord u).extractLsb' 25 7 = 0#7 := by
  unfold treeWord
  refine ⟨BitVec.extractLsb'_append_eq_right, ?_, ?_, ?_⟩
  · rw [BitVec.extractLsb'_append_eq_of_le (by decide)]
    exact BitVec.extractLsb'_append_eq_right
  · rw [BitVec.extractLsb'_append_eq_of_le (by decide), BitVec.extractLsb'_append_eq_of_le (by decide)]
    exact BitVec.extractLsb'_append_eq_right
  · rw [BitVec.extractLsb'_append_eq_of_le (by decide), BitVec.extractLsb'_append_eq_of_le (by decide)]
    exact BitVec.extractLsb'_append_eq_left

/-- Two fields below zero bits, the shape of `E_WB` (R44) and `D_BR` (R45). -/
theorem zero_append_append_fields {m n k : Nat} (hi : BitVec n) (lo : BitVec k) :
    (0#m ++ hi ++ lo).extractLsb' 0 k = lo ∧ (0#m ++ hi ++ lo).extractLsb' k n = hi ∧
    (0#m ++ hi ++ lo).extractLsb' (k + n) m = 0#m := by
  refine ⟨BitVec.extractLsb'_append_eq_right, ?_, ?_⟩
  · rw [BitVec.extractLsb'_append_eq_of_le (Nat.le_refl k), Nat.sub_self]
    exact BitVec.extractLsb'_append_eq_right
  · rw [BitVec.extractLsb'_append_eq_of_le (Nat.le_add_right k n), Nat.add_sub_cancel_left]
    exact BitVec.extractLsb'_append_eq_left

/-! ### The register numbers (R44, R45) -/

theorem encRegister_reserved {n : Byte} (h : 3 < n.toNat) (s : State) : encRegister s n = none := by
  unfold encRegister
  split
  case h_5 => rfl
  all_goals omega

theorem decRegister_reserved {n : Byte} (h : 6 < n.toNat) (s : State) : decRegister s n = none := by
  unfold decRegister
  split
  case h_8 => rfl
  all_goals omega

/-! ### A register read (R193, R195, R197) -/

theorem exec_erdr_of_some {s : State} {n : Byte} {v : Word32} (h : encRegister s n = some v) :
    exec (.erdr n) s = .next { s with rsp := s.rsp ++ [v] } :=
  congrArg (readRegister · s) h

theorem exec_erdr_of_none {s : State} {n : Byte} (h : encRegister s n = none) : exec (.erdr n) s = .next { s with ill := true } :=
  congrArg (readRegister · s) h

theorem exec_drdr_of_some {s : State} {n : Byte} {v : Word32} (h : decRegister s n = some v) :
    exec (.drdr n) s = .next { s with rsp := s.rsp ++ [v] } :=
  congrArg (readRegister · s) h

theorem exec_drdr_of_none {s : State} {n : Byte} (h : decRegister s n = none) : exec (.drdr n) s = .next { s with ill := true } :=
  congrArg (readRegister · s) h

/-- Settles O25, register by register: the number's row of `encRegister` and the fields of its word. -/
theorem erdrAnswersRegister : Obligations.ErdrAnswersRegister := by
  intro s
  refine ⟨⟨_, exec_erdr_of_some rfl, ?status⟩, exec_erdr_of_some rfl, ⟨_, exec_erdr_of_some rfl, ?tree⟩,
    ⟨_, exec_erdr_of_some rfl, ?writer⟩, fun _ hn => exec_erdr_of_none (encRegister_reserved hn s)⟩
  case status => exact statusWord_fields s.ill s.enc.err (phaseCode s.enc.phase)
  case tree => exact treeWord_fields s.enc.tree
  case writer => exact zero_append_append_fields s.enc.wbCnt s.enc.wbAcc

/-- Settles O26, register by register: the number's row of `decRegister` and the fields of its word. -/
theorem drdrAnswersRegister : Obligations.DrdrAnswersRegister := by
  intro s
  refine ⟨⟨_, exec_drdr_of_some rfl, ?status⟩, exec_drdr_of_some rfl, ⟨_, exec_drdr_of_some rfl, ?tree⟩,
    ⟨_, exec_drdr_of_some rfl, ?reader⟩, exec_drdr_of_some rfl, ⟨_, exec_drdr_of_some rfl, ?headerCount⟩,
    ⟨_, exec_drdr_of_some rfl, ?cursor⟩, fun _ hn => exec_drdr_of_none (decRegister_reserved hn s)⟩
  case status => exact statusWord_fields s.ill s.dec.err (dstateCode s.dec.state)
  case tree => exact treeWord_fields s.dec.tree
  case reader => exact zero_append_append_fields s.dec.brCnt s.dec.brByte
  case headerCount => exact ⟨BitVec.extractLsb'_append_eq_right, BitVec.extractLsb'_append_eq_left⟩
  case cursor => exact ⟨BitVec.extractLsb'_append_eq_right, BitVec.extractLsb'_append_eq_left⟩

/-! ### The unit resets and the frequency reads (R190, R191, R194, R196) -/

/-- Settles O22: `resetE` and `resetD` put in the units that `State.reset` holds. -/
theorem unitResetsReset : Obligations.UnitResetsReset := fun _ => ⟨rfl, rfl⟩

/-- Settles O23: the command is `respond` of the entry. -/
theorem erdfAnswersFrequency : Obligations.ErdfAnswersFrequency := fun _ _ => rfl

/-- Settles O24: the command is `respond` of the entry. -/
theorem drdfAnswersFrequency : Obligations.DrdfAnswersFrequency := fun _ _ => rfl

end Sys2Proof.Machine
end

section
/-! PROOFS. The exceptions and the hardware reset: a faulted unit is changed by a reset only (spec/60_exceptions.md R211, R212), a command
out of its phase or state latches `SeqError` (R201), and a step that runs no word waits or resets (R220, spec/70_reset_and_hazards.md
R230). -/

namespace Sys2Proof.Machine

/-! ### A faulted unit over a step (R211, R212) -/

/-- R89 step 2: a system command resets its unit or, a read, leaves both units. -/
theorem exec_isSystem_next {i : Instr} {s t : State} (hsys : isSystem i = true) (h : exec i s = .next t) :
    (i = .ereset ∧ t = resetE s) ∨ (i = .dreset ∧ t = resetD s) ∨ (t.enc = s.enc ∧ t.dec = s.dec) := by
  cases i with
  | ereset => exact .inl ⟨rfl, (Host.Outcome.next.inj h).symm⟩
  | dreset => exact .inr (.inl ⟨rfl, (Host.Outcome.next.inj h).symm⟩)
  | erdf _ | drdf _ =>
    obtain rfl := Host.Outcome.next.inj h
    exact .inr (.inr ⟨rfl, rfl⟩)
  | erdr _ | drdr _ => exact .inr (.inr (readRegister_units h))
  | facc _ | tbuild | cderive | whdr | esym _ | wbit _ | flush | dbyte _ | dtree | dend => simp [isSystem, opcodeOf] at hsys

/-- A well-formed command other than `ERESET` leaves a faulted encoder: it is the decoder's, ignored, or a read. -/
theorem exec_enc_of_fault {i : Instr} {s t : State} (hw : i.WellFormed) (hf : s.enc.phase = .fault) (hne : i ≠ .ereset)
    (h : exec i s = .next t) : t.enc = s.enc := by
  cases hi : forEncoder i with
  | false => exact exec_enc hi h
  | true =>
    cases hsys : isSystem i with
    | false =>
      have hsame : exec i s = .next s := (faultedUnitIgnoresCommands i s hw hsys).1 hi hf
      exact congrArg State.enc (Host.Outcome.next.inj (h.symm.trans hsame))
    | true =>
      obtain ⟨hreset, -⟩ | ⟨-, rfl⟩ | ⟨henc, -⟩ := exec_isSystem_next hsys h
      · exact absurd hreset hne
      · rfl
      · exact henc

/-- A well-formed command other than `DRESET` leaves a faulted decoder: it is the encoder's, ignored, or a read. -/
theorem exec_dec_of_fault {i : Instr} {s t : State} (hw : i.WellFormed) (hf : s.dec.state = .fault) (hne : i ≠ .dreset)
    (h : exec i s = .next t) : t.dec = s.dec := by
  cases hi : forEncoder i with
  | true => exact exec_dec hi h
  | false =>
    cases hsys : isSystem i with
    | false =>
      have hsame : exec i s = .next s := (faultedUnitIgnoresCommands i s hw hsys).2 hi hf
      exact congrArg State.dec (Host.Outcome.next.inj (h.symm.trans hsame))
    | true =>
      obtain ⟨-, rfl⟩ | ⟨hreset, -⟩ | ⟨-, hdec⟩ := exec_isSystem_next hsys h
      · rfl
      · exact absurd hreset hne
      · exact hdec

/-- A word other than that of `j` does not decode to `j`. -/
theorem ne_of_decode {s : State} {w : CmdWord} {rest : List HostInput} {i j : Instr} (hin : s.hostIn = .word w :: rest)
    (hd : decode w = .ok i) (hne : s.hostIn.head? ≠ some (.word (encode j))) : i ≠ j := by
  rintro rfl
  rw [hin, encode_of_decode hd] at hne
  exact hne rfl

/-- Settles O20: only a decoded command or hardware reset changes a unit, and of the commands only the reset word of a faulted unit
changes that unit. -/
theorem faultedUnitKeepsItsState : Obligations.FaultedUnitKeepsItsState := by
  intro s t hrst h
  obtain ⟨-, rfl⟩ | ⟨w, rest, hin, hw⟩ | ⟨rest, hin, -⟩ | ⟨c, rest, -, -, -, henc, hdec, -⟩ := step_next h
  · exact ⟨fun _ _ => rfl, fun _ _ => rfl⟩
  · obtain ⟨i, hd, hwf, hx⟩ | ⟨-, rfl⟩ := runWord_next hw
    · exact ⟨fun hf hne => exec_enc_of_fault (s := acceptWord s rest) hwf hf (ne_of_decode (j := .ereset) hin hd hne) hx,
        fun hf hne => exec_dec_of_fault (s := acceptWord s rest) hwf hf (ne_of_decode (j := .dreset) hin hd hne) hx⟩
    · exact ⟨fun _ _ => rfl, fun _ _ => rfl⟩
  · rw [hin] at hrst
    exact absurd rfl hrst
  · exact ⟨fun _ _ => henc, fun _ _ => hdec⟩

/-! ### `SeqError` (R201, R206) -/

/-- A well-formed `WBIT` is gated, its only phase being BODY. -/
theorem exec_wbit_gated {b : Byte} (hw : (Instr.wbit b).WellFormed) (s : State) :
    exec (.wbit b) s = gateE .body s (wbitRule (bitOperand b)) :=
  if_pos (of_decide_eq_true hw)

theorem exec_dbyte_awaitTree {s : State} (hst : s.dec.state = .awaitTree) (v : Byte) :
    exec (.dbyte v) s = .next (raiseD .seqError s) := by
  rw [exec, execDbyte, hst]

/-- Settles O17: an encoder command is gated, and out of its phase the gate raises; a decoder command raises by its state's row. -/
theorem seqErrorOutOfPhase : Obligations.SeqErrorOutOfPhase := by
  refine ⟨rfl, fun s hf => ⟨fun hp => ?count, fun hp => ?tree, fun hp => ?codes, fun hp => ?body⟩,
    fun s => ⟨fun hst => ?awaitTree, ?dtree⟩⟩
  case count => exact ⟨fun _ => gateE_seqError _ hf hp, gateE_seqError _ hf hp⟩
  case tree => exact gateE_seqError _ hf hp
  case codes => exact gateE_seqError _ hf hp
  case body =>
    exact ⟨fun _ => gateE_seqError _ hf hp, fun _ hw => (exec_wbit_gated hw s).trans (gateE_seqError _ hf hp),
      gateE_seqError _ hf hp⟩
  case awaitTree =>
    obtain ⟨-, hdend, -⟩ := dendByState s
    exact ⟨exec_dbyte_awaitTree hst, hdend hst⟩
  case dtree => exact exec_dtree_seqError

/-! ### A wait and a hardware reset (R220, R230) -/

/-- Settles O8, by the row of `step` for no input. -/
theorem waitsWithStateKept : Obligations.WaitsWithStateKept := by
  intro s hin
  rw [step, hin]

/-- Settles O9, by the row of `step` for `rst`: `hardwareReset` reads nothing of the old state but the pending inputs. -/
theorem hardwareResetStep : Obligations.HardwareResetStep := by
  intro s rest hin
  rw [step, hin]
  rfl

end Sys2Proof.Machine
end
